-- ==== Sys2Proof/Word.lean ====
section
/-! DEFINITION. The word types: bytes, and the 16-, 32- and 64-bit quantities the spec names (R6, R8). -/

namespace Sys2Proof

/-- A byte is 8 bits (R50). -/
abbrev Byte := BitVec 8

/-- 16 bits: a segment selector, an error code, SP, IP. -/
abbrev Word16 := BitVec 16

/-- 32 bits: ESP, EIP, EFLAGS, a segment base or limit. -/
abbrev Word32 := BitVec 32

/-- 64 bits: RSP, RIP, a linear address of IA-32e mode. -/
abbrev Word64 := BitVec 64

end Sys2Proof
end

