-- ==== Sys2Proof/Config.lean ====
section
/-! DEFINITION. What an implementation fixes and the spec leaves open (R7), and the free values (U1 to U4, N2). -/

namespace Sys2Proof

/-- The parameters of R7 that do not change as the machine runs, and the free values, each a function of the draw
counter. The delivery procedures take them as an argument, so that one text serves every value. -/
structure Params where
  /-- `VA_BITS`: implemented linear-address bits (R58). -/
  vaBits : Nat
  /-- `V86_INTO_IOPL_SENSITIVE`: whether INTO takes the virtual-8086 IOPL check (R107). -/
  v86IntoIoplSensitive : Bool
  /-- `ALIGN_RSP_16`: whether a 64-bit delivery clears the low four bits of the stack pointer first (R187); the one from
  virtual-8086 mode does not (log 7). -/
  alignRsp16 : Bool
  /-- `IDT_ERRCODE_SCALE_64`: the factor of the IDT-form error code in IA-32e mode (R245). -/
  errScale64 : Nat
  /-- Whether the IST stack pointer is read before the handler's code segment is checked (R146, R228) or after it
  (R66, R248): the rules disagree (log 27). -/
  istReadFirst : Bool
  /-- `SelPad`: the bytes above a 16-bit value pushed in a wider slot (R62); a 4-byte slot takes the low 16 bits. -/
  selPad : Nat → BitVec 48
  /-- `RSP[63:32]` after a write of ESP or SP outside 64-bit mode (R20, U3). -/
  rspHigh : Nat → BitVec 32
  /-- `SS.sel[1:0]` after an IA-32e stack switch to level 1 or 2 (R191, U2). -/
  ssRpl : Nat → BitVec 2
  /-- The advanced instruction pointer where the sum does not fit its register (N2). -/
  ipPastTop : Nat → BitVec 64
  /-- A byte of the frame region after a #PF in mid-push (R241, U4). -/
  frameByte : Nat → BitVec 8

/-- OPEN, no default (R107, D10): nothing can be proved of its value. -/
opaque Config.v86IntoIoplSensitive : Bool

/-- OPEN (R187, D19): the page says nothing, hardware is known to align; nothing can be proved of its value. -/
opaque Config.alignRsp16 : Bool

/-- OPEN (R245, D35): true for the page's factor 16, false for the alternative 8. -/
opaque Config.errScaleIsPage : Bool

/-- OPEN (R146 and R228 against R66 and R248, log 27): nothing can be proved of its value. -/
opaque Config.istReadFirst : Bool

/-- Free value U1 (R62), per draw. -/
opaque Config.selPad : Nat → BitVec 48

/-- Free value U3 (R20), per draw. -/
opaque Config.rspHigh : Nat → BitVec 32

/-- Free value U2 (R191), per draw. -/
opaque Config.ssRpl : Nat → BitVec 2

/-- Free value of N2, per draw. -/
opaque Config.ipPastTop : Nat → BitVec 64

/-- Free value U4 (R241), per draw. -/
opaque Config.frameByte : Nat → BitVec 8

/-- `VA_BITS`, the spec's default 48 (R7, R58; PRESUMED, log 5). -/
def Config.vaBits : Nat := 48

/-- `IDT_ERRCODE_SCALE_64`: 16 or 8 (R7, R245; log 8). -/
def Config.errScale64 : Nat := if Config.errScaleIsPage then 16 else 8

/-- The parameters the machine runs with. -/
def Config.params : Params where
  vaBits := Config.vaBits
  v86IntoIoplSensitive := Config.v86IntoIoplSensitive
  alignRsp16 := Config.alignRsp16
  errScale64 := Config.errScale64
  istReadFirst := Config.istReadFirst
  selPad := Config.selPad
  rspHigh := Config.rspHigh
  ssRpl := Config.ssRpl
  ipPastTop := Config.ipPastTop
  frameByte := Config.frameByte

end Sys2Proof
end

