-- ==== Sys2Proof/Machine/State.lean ====
section
/-! DEFINITION. The machine's state as plain data (R20 to R35, R47), its faults (R240, R246), its refusals (R243), and
the state after reset (R48, R290, R291). -/

namespace Sys2Proof.Machine

/-- The exceptions that end a step (R11, R241, R246). The state the spec attaches to one is `faultState`
(Machine/AfterFault.lean). Every one is SAFE: the model stops where the processor goes on to enter a handler, which the spec leaves
out (R5 e, D9). -/
inductive Fault where
  /-- #UD, no code: LOCK prefix (R88), raised by all three; CEH in 64-bit mode (R87), raised by `INTO`. Safe. -/
  | ud
  /-- #GP: rows 3, 5 to 9, 11 to 13, 15 to 19, 21, 31 and 32 of R246; no code in real-address mode (R131). Safe. -/
  | gp (code : Option Word16)
  /-- #SS: rows 4 and 27 to 30 of R246; no code in real-address mode (R132). Safe. -/
  | ss (code : Option Word16)
  /-- #NP: rows 10, 14 and 20 of R246. Safe. -/
  | np (code : Word16)
  /-- #TS: rows 22 to 26 of R246. Safe. -/
  | ts (code : Word16)
  /-- #PF: row 33 of R246, with the fault code that the translation gives (R57, R244). Safe. -/
  | pf (code : Word16)
deriving DecidableEq, Repr

/-- The spec's closed list of refusals (R243): the spec gives the case no meaning. Every one is SAFE. -/
inductive Refusal where
  /-- An instruction whose arm has no meaning yet (none of this model's arms). Safe. -/
  | notModelled (mnemonic : String)
  /-- The opcode is not CCH, CDH or CEH; raised by the decoder (R83). Safe. -/
  | notInScope
  /-- A prefix other than LOCK precedes the opcode, which is not CEH in 64-bit mode; raised by the decoder (R89, R101, R243),
  and by the fetch for a run of prefix bytes, LOCK among them or not, that leaves no room for the opcode and its immediate within
  15 bytes (log 10). Safe. -/
  | otherPrefix
  /-- The instruction bytes cannot be fetched for a reason other than a page fault; raised by the fetch (R81). Safe. -/
  | unfetchable
  /-- `INT imm8` or `INTO` with VM = 1 and VME = 1; raised by the dispatch (R108). Safe. -/
  | vmeRedirection
  /-- A task gate passed its checks; raised by the task-gate path (R157). Safe. -/
  | taskSwitch
  /-- The frame would wrap around the stack-pointer modulus; raised by the room checks of 16- and 32-bit frames (R61; a 64-bit
  frame: log 28). Safe. -/
  | stackWrap
  /-- The state breaks an invariant of R49; raised by all three instructions. Safe. -/
  | brokenInvariant
deriving DecidableEq, Repr

/-- Why a procedure ends without a next state. -/
inductive Stop where
  | fault (f : Fault)
  | refuse (r : Refusal)
deriving DecidableEq, Repr

/-- The hidden part of a segment register (R35). `db` is the descriptor's one D/B bit: D of a code segment, B of a
stack segment (R40). -/
structure Hidden where
  base : Word32
  limit : Word32
  dpl : BitVec 2
  code : Bool
  conforming : Bool
  writableData : Bool
  expandDown : Bool
  l : Bool
  db : Bool
  usable : Bool
deriving DecidableEq, Repr

/-- A segment register: visible selector and hidden part (R35). -/
structure SegReg where
  sel : Word16
  hidden : Hidden
deriving DecidableEq, Repr

/-- IDTR or GDTR: base and limit (R32, R33). -/
structure TableReg where
  base : Word64
  limit : Word16
deriving DecidableEq, Repr

/-- LDTR: selector and hidden base and limit (R33). -/
structure LdtReg where
  sel : Word16
  base : Word64
  limit : Word32
deriving DecidableEq, Repr

/-- The kind of the current TSS (R34). -/
inductive TssKind where
  | tss16
  | tss32
  | tss64
deriving DecidableEq, Repr

/-- TR: selector, hidden base and limit, and the kind of the TSS (R34). -/
structure TaskReg where
  sel : Word16
  base : Word64
  limit : Word32
  kind : TssKind
deriving DecidableEq, Repr

/-- Kinds of memory access that the translation tells apart (R57). -/
inductive Access where
  | read
  | write
  | fetch
deriving DecidableEq, Repr

/-- The privilege an access is translated with (R57). -/
inductive Priv where
  | supervisor
  | user
deriving DecidableEq, Repr

/-- What `Translate` answers: a physical address, or a page-fault code (R57). -/
inductive XlatResult where
  | phys (p : Word64)
  | pageFault (code : Word16)
deriving DecidableEq, Repr

/-- One entry of the translation: what one linear byte address, accessed in one way, translates to (R57). -/
structure XlatEntry where
  linear : Word64
  access : Access
  priv : Priv
  result : XlatResult
deriving DecidableEq, Repr

/-- Memory: bytes by physical address, addresses strictly rising, no entry holding the byte an unlisted one reads as. -/
abbrev Memory := List Host.Cell

/-- The state of the machine (INVENTORY.md, State). -/
structure State where
  /-- ESP, the low half of the RSP cell; SP is its bits 15:0 (R20). -/
  rspLo : Word32
  /-- RSP[63:32] (R20). -/
  rspHi : Word32
  /-- The instruction pointer: IP, EIP and RIP are its low 16, 32 and 64 bits (R22). -/
  rip : Word64
  /-- EFLAGS (R25, R26). -/
  eflags : Word32
  /-- The current privilege level (R28). -/
  cpl : BitVec 2
  /-- PE: 0 selects real-address mode (R29). -/
  pe : Bool
  /-- VME: virtual-mode extensions (R30). -/
  vme : Bool
  /-- IA32_EFER.LMA (R31). -/
  lma : Bool
  /-- IDTR (R32). -/
  idtr : TableReg
  /-- GDTR (R33). -/
  gdtr : TableReg
  /-- LDTR (R33). -/
  ldtr : LdtReg
  /-- TR (R34). -/
  tr : TaskReg
  /-- CS (R35). -/
  cs : SegReg
  /-- SS (R35). -/
  ss : SegReg
  /-- DS (R35). -/
  ds : SegReg
  /-- ES (R35). -/
  es : SegReg
  /-- FS (R35). -/
  fs : SegReg
  /-- GS (R35). -/
  gs : SegReg
  /-- Memory (R47, R50). -/
  mem : Memory
  /-- The model's own: the parameter `Translate`; an access no entry names translates to itself (R57, log 3). -/
  xlat : List XlatEntry
  /-- The model's own: the number of free values drawn so far (log 4). -/
  draws : Nat
deriving DecidableEq, Repr

/-- A real-address-mode segment after reset: limit FFFFH, read/write data (R291; PRESUMED, log 1). -/
def resetHidden (base : Word32) : Hidden where
  base := base
  limit := 0xFFFF#32
  dpl := 0#2
  code := false
  conforming := false
  writableData := true
  expandDown := false
  l := false
  db := false
  usable := true

/-- The machine right after reset. IDTR.base = 0 is the spec's (R290); every other value is PRESUMED, the family's
(R291, GK33, log 1), and memory lists nothing (log 2). -/
def State.reset : State where
  rspLo := 0#32
  rspHi := 0#32
  rip := 0xFFF0#64
  eflags := 0x2#32
  cpl := 0#2
  pe := false
  vme := false
  lma := false
  idtr := ⟨0#64, 0xFFFF#16⟩
  gdtr := ⟨0#64, 0xFFFF#16⟩
  ldtr := ⟨0#16, 0#64, 0xFFFF#32⟩
  tr := ⟨0#16, 0#64, 0xFFFF#32, .tss32⟩
  cs := ⟨0xF000#16, resetHidden 0xFFFF0000#32⟩
  ss := ⟨0#16, resetHidden 0#32⟩
  ds := ⟨0#16, resetHidden 0#32⟩
  es := ⟨0#16, resetHidden 0#32⟩
  fs := ⟨0#16, resetHidden 0#32⟩
  gs := ⟨0#16, resetHidden 0#32⟩
  mem := []
  xlat := []
  draws := 0

end Sys2Proof.Machine
end

