-- ==== Sys2Proof/Machine/Operands.lean ====
section
/-! DEFINITION. Bit fields, byte order, and the layouts of selectors, gates, descriptors and task-state segments
(R36 to R44). The layouts are the default `Layout` of R7 (PRESUMED, log 9). -/

namespace Sys2Proof.Machine

/-! ## Bit fields and byte order -/

/-- The bit slice `v[hi:lo]` (R8). -/
def bits (v hi lo : Nat) : Nat := (v >>> lo) % 2 ^ (hi + 1 - lo)

/-- The bit `v[i]` (R8). -/
def bitAt (v i : Nat) : Bool := v.testBit i

/-- The unsigned value of bytes in increasing address order: least significant first (R52, R54). -/
def leNat : List Byte → Nat
  | [] => 0
  | b :: bs => b.toNat + 256 * leNat bs

/-- The `n` bytes of `v` in increasing address order (R53, R54). -/
def leBytes : Nat → Nat → List Byte
  | 0, _ => []
  | n + 1, v => BitVec.ofNat 8 v :: leBytes n (v / 256)

/-! ## Selectors (R36) -/

/-- `RPL = sel[1:0]`. -/
def selRpl (sel : Word16) : BitVec 2 := sel.setWidth 2

/-- `TI = sel[2]`, the local/global bit: true is local. -/
def selLocal (sel : Word16) : Bool := sel.getLsbD 2

/-- The selector's byte offset in its table, `sel AND FFF8H` (R33). -/
def selOffset (sel : Word16) : Nat := (sel &&& 0xFFF8#16).toNat

/-- A selector is NULL when `sel[15:2] = 0`. -/
def selNull (sel : Word16) : Bool := sel.extractLsb' 2 14 == 0#14

/-- `sel` with its RPL field replaced. -/
def withRpl (sel : Word16) (rpl : BitVec 2) : Word16 := sel.extractLsb' 2 14 ++ rpl

/-! ## Gates (R37 to R39, R44) -/

/-- `GateType` (R44). -/
inductive GateKind where
  | task
  | interrupt
  | trap
  | other
deriving DecidableEq, Repr

/-- `GateSize` (R44). -/
inductive GateSize where
  | g16
  | g32
  | g64
deriving DecidableEq, Repr

/-- The width of one push, in bytes: 2, 4 or 8 (R6). -/
def GateSize.bytes : GateSize → Nat
  | .g16 => 2
  | .g32 => 4
  | .g64 => 8

/-- The fields of an IDT entry that the rules read (R44). -/
structure Gate where
  kind : GateKind
  size : GateSize
  dpl : BitVec 2
  present : Bool
  sel : Word16
  off : Word64
  ist : Nat
deriving DecidableEq, Repr

/-- A protected-mode IDT entry from its 8 bytes (R38): byte 5 is bits 47:40. The offset is cut to the gate's size. -/
def gate8 (raw : Nat) : Gate :=
  let ty := bits raw 44 40
  let off16 := bits raw 15 0
  let off32 := off16 + bits raw 63 48 * 2 ^ 16
  { kind := if ty = 5 then .task else if ty = 6 ∨ ty = 14 then .interrupt else if ty = 7 ∨ ty = 15 then .trap else .other
    size := if ty = 14 ∨ ty = 15 then .g32 else .g16
    dpl := BitVec.ofNat 2 (bits raw 46 45)
    present := bitAt raw 47
    sel := BitVec.ofNat 16 (bits raw 31 16)
    off := BitVec.ofNat 64 (if ty = 14 ∨ ty = 15 then off32 else off16)
    ist := 0 }

/-- An IA-32e-mode IDT entry from its 16 bytes (R39): only 64-bit interrupt and trap gates. -/
def gate16 (raw : Nat) : Gate :=
  let ty := bits raw 44 40
  { kind := if ty = 14 then .interrupt else if ty = 15 then .trap else .other
    size := .g64
    dpl := BitVec.ofNat 2 (bits raw 46 45)
    present := bitAt raw 47
    sel := BitVec.ofNat 16 (bits raw 31 16)
    off := BitVec.ofNat 64 (bits raw 15 0 + bits raw 63 48 * 2 ^ 16 + bits raw 95 64 * 2 ^ 32)
    ist := bits raw 34 32 }

/-! ## Segment and TSS descriptors (R40, R41, R44) -/

/-- The fields of an 8-byte descriptor that the rules read (R40, R41). -/
structure SegDesc where
  present : Bool
  dpl : BitVec 2
  /-- Byte 5 bit 4: code or data. -/
  s : Bool
  /-- Byte 5 bits 3:0. -/
  type : Nat
  base : Word32
  effLimit : Word32
  l : Bool
  db : Bool
deriving DecidableEq, Repr

/-- A descriptor from its 8 bytes (R40): byte 5 is bits 47:40, byte 6 bits 55:48. -/
def segDesc (raw : Nat) : SegDesc :=
  let limit := bits raw 15 0 + bits raw 51 48 * 2 ^ 16
  { present := bitAt raw 47
    dpl := BitVec.ofNat 2 (bits raw 46 45)
    s := bitAt raw 44
    type := bits raw 43 40
    base := BitVec.ofNat 32 (bits raw 39 16 + bits raw 63 56 * 2 ^ 24)
    effLimit := BitVec.ofNat 32 (if bitAt raw 55 then limit * 4096 + 4095 else limit)
    l := bitAt raw 53
    db := bitAt raw 54 }

/-- `IsCode(d)`: S = 1 and X = 1 (R40). -/
def SegDesc.isCode (d : SegDesc) : Bool := d.s && bitAt d.type 3

/-- `IsConforming(d)`: a code segment with C = 1 (R40). -/
def SegDesc.isConforming (d : SegDesc) : Bool := d.isCode && bitAt d.type 2

/-- `IsWritableData(d)`: S = 1, X = 0, W = 1 (R40). -/
def SegDesc.isWritableData (d : SegDesc) : Bool := d.s && !bitAt d.type 3 && bitAt d.type 1

/-- `ExpandDown(d)`: a data segment with E = 1 (R40). -/
def SegDesc.isExpandDown (d : SegDesc) : Bool := d.s && !bitAt d.type 3 && bitAt d.type 2

/-- `TSSAvailable(d)`: a system descriptor of type 1 or 9 (R41, R152). -/
def SegDesc.isAvailableTss (d : SegDesc) : Bool := !d.s && (d.type == 1 || d.type == 9)

/-- The hidden part that a load of the descriptor gives a segment register (R35). -/
def SegDesc.hidden (d : SegDesc) : Hidden where
  base := d.base
  limit := d.effLimit
  dpl := d.dpl
  code := d.isCode
  conforming := d.isConforming
  writableData := d.isWritableData
  expandDown := d.isExpandDown
  l := d.l
  db := d.db
  usable := true

/-! ## Task-state segments (R42, R43) -/

/-- Byte offset of `ESPn` in a 32-bit TSS; `SSn` is 4 bytes above (R42). -/
def tss32Offset (n : BitVec 2) : Nat := n.toNat * 8 + 4

/-- Byte offset of `SPn` in a 16-bit TSS; `SSn` is 2 bytes above (R42). -/
def tss16Offset (n : BitVec 2) : Nat := n.toNat * 4 + 2

/-- Byte offset of `RSPn` in a 64-bit TSS (R43). -/
def tss64RspOffset (n : BitVec 2) : Nat := n.toNat * 8 + 4

/-- Byte offset of `ISTx` in a 64-bit TSS (R43). -/
def tss64IstOffset (x : Nat) : Nat := x * 8 + 28

/-! ## Limits and canonical addresses (R58, R61, R63) -/

/-- `InLimit(d, lo, hi)` (R63). -/
def inLimit (h : Hidden) (lo hi : Nat) : Bool :=
  if h.expandDown then
    decide (h.limit.toNat < lo) && decide (hi ≤ if h.db then 0xFFFFFFFF else 0xFFFF)
  else decide (hi ≤ h.limit.toNat)

/-- `Canonical(a)`: bits 63 down to `VA_BITS - 1` are all equal (R58). -/
def canonical (vaBits : Nat) (a : Word64) : Bool :=
  let top := a.toNat >>> (vaBits - 1)
  top == 0 || top == 2 ^ (64 - (vaBits - 1)) - 1

/-- Whether the `n` bytes from `a` all have canonical addresses. -/
def allCanonical (vaBits : Nat) : Nat → Word64 → Bool
  | 0, _ => true
  | n + 1, a => canonical vaBits a && allCanonical vaBits n (a + 1#64)

/-- The stack address size `W` (R21). -/
inductive StackWidth where
  | w16
  | w32
  | w64
deriving DecidableEq, Repr

/-- `2^W`. -/
def StackWidth.modulus : StackWidth → Nat
  | .w16 => 2 ^ 16
  | .w32 => 2 ^ 32
  | .w64 => 2 ^ 64

/-- The stack address size that a stack segment's B flag gives (R21). -/
def stackWidthOf (h : Hidden) : StackWidth := if h.db then .w32 else .w16

/-- The three answers of `StackRoom` (R61). -/
inductive Room where
  | yes
  | no
  | ambiguous
deriving DecidableEq, Repr

/-- `StackRoom(d, W, sp, n)` (R61). -/
def stackRoom (h : Hidden) (w : StackWidth) (sp n : Nat) : Room :=
  let top := if sp = 0 then w.modulus else sp
  if top < n then .ambiguous
  else if inLimit h (top - n) (top - 1) then .yes else .no

/-- The real-mode stack segment of R61: limit FFFFH, expand-up. -/
def realModeStack : Hidden := resetHidden 0#32

/-! ## Error codes (R10, R245) -/

/-- The IDT form: `vector * scale + 2 + EXT`. -/
def idtCode (scale vector : Nat) (ext : Bool) : Word16 := BitVec.ofNat 16 (vector * scale + 2 + ext.toNat)

/-- The selector form: `(sel AND FFFCH) + EXT`. -/
def selCode (sel : Word16) (ext : Bool) : Word16 := (sel &&& 0xFFFC#16) + BitVec.ofNat 16 ext.toNat

/-- The zero form: `0 + EXT`. -/
def extCode (ext : Bool) : Word16 := BitVec.ofNat 16 ext.toNat

end Sys2Proof.Machine
end

