-- ==== Sys2Proof/Machine/Flags.lean ====
section
/-! DEFINITION. The flags of EFLAGS that the spec names (R26), and what each delivery clears (R111). The bit positions
are the default `FlagBits` of R7 (PRESUMED, log 9). -/

namespace Sys2Proof.Machine

/-- OF, bit 11. -/
def flagOF (e : Word32) : Bool := e.getLsbD 11
/-- IF, bit 9. -/
def flagIF (e : Word32) : Bool := e.getLsbD 9
/-- TF, bit 8. -/
def flagTF (e : Word32) : Bool := e.getLsbD 8
/-- IOPL, bits 13:12. -/
def flagIOPL (e : Word32) : BitVec 2 := e.extractLsb' 12 2
/-- NT, bit 14. -/
def flagNT (e : Word32) : Bool := e.getLsbD 14
/-- RF, bit 16. -/
def flagRF (e : Word32) : Bool := e.getLsbD 16
/-- VM, bit 17. -/
def flagVM (e : Word32) : Bool := e.getLsbD 17
/-- AC, bit 18. -/
def flagAC (e : Word32) : Bool := e.getLsbD 18

/-- The bits of IF, TF and AC. -/
def realModeClears : Word32 := 0x00040300#32

/-- The bits of TF, NT, RF and VM. -/
def trapGateClears : Word32 := 0x00034100#32

/-- The bits of IF, TF, NT, RF and VM. -/
def interruptGateClears : Word32 := 0x00034300#32

/-- `e` with the bits of `mask` cleared. -/
def clearFlags (mask e : Word32) : Word32 := e &&& ~~~mask

/-- EFLAGS after a real-address-mode delivery (R130). -/
def eflagsAfterReal (e : Word32) : Word32 := clearFlags realModeClears e

/-- EFLAGS after a delivery through a gate: IF is cleared by an interrupt gate only (R189, R205, R226). -/
def eflagsAfterGate (k : GateKind) (e : Word32) : Word32 :=
  if k = .interrupt then clearFlags interruptGateClears e else clearFlags trapGateClears e

/-- `RFLAGS = zext_64(EFLAGS)` (R25). -/
def rflags (e : Word32) : Word64 := e.setWidth 64

end Sys2Proof.Machine
end

