-- ==== Sys2Proof/Syntax.lean ====
section
/-! DEFINITION. The three instructions of the opcode table (R80, R83), each with its LOCK-prefixed form (R88). -/

namespace Sys2Proof

/-- One constructor per row of the opcode table. `lock` says that a LOCK prefix precedes the opcode (R88). -/
inductive Instr where
  /-- `INT 3`, byte CCH: breakpoint, vector 3 (R102). -/
  | int3 (lock : Bool)
  /-- `INT imm8`, bytes CDH ib: vector `ib` (R103); WellFormed says that `ib` is one unsigned byte (R82). -/
  | intImm8 (lock : Bool) (ib : Nat)
  /-- `INTO`, byte CEH: vector 4 when OF = 1 (R104). -/
  | into (lock : Bool)
deriving DecidableEq, Repr

/-- Whether a LOCK prefix precedes the opcode (R88). -/
def Instr.lock : Instr → Bool
  | .int3 l => l
  | .intImm8 l _ => l
  | .into l => l

/-- The operating modes of R45: real-address, virtual-8086, protected, compatibility and 64-bit mode. -/
inductive OpMode where
  | real
  | v86
  | prot
  | compat
  | mode64
deriving DecidableEq, Repr

end Sys2Proof
end

