-- ==== Sys2Proof/WellFormed.lean ====
section
/-! DEFINITION. Which terms of `Instr` stand for encodings (R82), and in which mode each is an instruction (R84). -/

namespace Sys2Proof

/-- The immediate of `INT imm8` is one unsigned byte, 0 to 255 (R82); the other forms have no operand. -/
def Instr.wellFormed : Instr → Bool
  | .int3 _ => true
  | .intImm8 _ ib => decide (ib < 256)
  | .into _ => true

/-- The mode columns of the opcode table (R84): CEH is Invalid in 64-bit mode; all else is Valid. -/
def Instr.validIn : Instr → OpMode → Bool
  | .int3 _, _ => true
  | .intImm8 _ _, _ => true
  | .into _, .mode64 => false
  | .into _, _ => true

end Sys2Proof
end

