-- ==== Sys2Proof/Machine/Ops.lean ====
section
/-! DEFINITION. The named operations over memory and registers: modes, translation, MemRead and MemWrite, pushes, and
taking an interrupt or exception, with the reading back of its frame beside it. -/

namespace Sys2Proof.Machine

/-- The answer of a procedure: a value, or why it ends without one. -/
abbrev Res (α : Type) := Except Stop α

/-- `raise #X(code)` (R9). -/
def raise {α : Type} (f : Fault) : Res α := .error (.fault f)

/-- `refuse(reason)` (R9, R243). -/
def refuse {α : Type} (r : Refusal) : Res α := .error (.refuse r)

/-- `IF c THEN raise ... FI`. -/
def stopIf (c : Bool) (e : Stop) : Res Unit := if c then .error e else .ok ()

/-- The outcome of a step (R11). -/
def toOutcome : Res State → Host.Outcome State Fault Refusal
  | .ok s => .next s
  | .error (.fault f) => .fault f
  | .error (.refuse r) => .refused r

/-! ## Modes and invariants -/

/-- The operating mode (R45). The combination VM = 1, LMA = 1 counts as virtual-8086 mode. -/
def opMode (s : State) : OpMode :=
  if !s.pe then .real
  else if flagVM s.eflags then .v86
  else if s.lma then (if s.cs.hidden.l then .mode64 else .compat)
  else .prot

/-- Whether the processor is in 64-bit mode. -/
def inMode64 (s : State) : Bool := opMode s == .mode64

/-- The invariants of R49 that the types do not already keep. -/
def lawful (s : State) : Bool :=
  (decide (s.tr.kind = .tss64) == s.lma) && (!flagVM s.eflags || s.cpl == 3#2) && (!s.lma || s.pe)

/-- The privilege with which CPL decides an access (R57): level 3 is user (PRESUMED, log 3). -/
def cplPriv (s : State) : Priv := if s.cpl = 3#2 then .user else .supervisor

/-! ## Memory -/

/-- What a byte of memory that nothing has written reads as (DESIGN CHOICE, log 2). -/
def unlistedByte : Byte := 0#8

/-- The byte at a physical address. -/
def readByte : Memory → Nat → Byte
  | [], _ => unlistedByte
  | (x, b) :: m, a => if x = a then b else readByte m a

/-- A list of cells with one put before the first of a greater address. -/
def insertCell (a : Nat) (b : Byte) : Memory → Memory
  | [] => [(a, b)]
  | (x, c) :: m => if a < x then (a, b) :: (x, c) :: m else (x, c) :: insertCell a b m

/-- One byte stored at a physical address; storing what an unlisted address reads as removes the entry. -/
def writeByte (m : Memory) (a : Nat) (b : Byte) : Memory :=
  let m' := m.filter (fun c => c.1 != a)
  if b = unlistedByte then m' else insertCell a b m'

/-- Bytes stored one after another. -/
def storeCells (m : Memory) : List Host.Cell → Memory
  | [] => m
  | (a, b) :: cs => storeCells (writeByte m a b) cs

/-- Addresses strictly rising, from `lo` on, and no entry holding `unlistedByte`. -/
def Memory.wfFrom (lo : Nat) : Memory → Bool
  | [] => true
  | (a, b) :: m => decide (lo ≤ a) && b != unlistedByte && Memory.wfFrom (a + 1) m

/-- The canonical form of memory. -/
def Memory.wf (m : Memory) : Bool := Memory.wfFrom 0 m

/-! ## Linear addresses and translation -/

/-- A linear address: modulo 2^32 outside IA-32e mode, modulo 2^64 in it (R50, R52, R112 d). -/
def linear (s : State) (a : Word64) : Word64 := if s.lma then a else a &&& 0xFFFFFFFF#64

/-- The entry of the translation for one access; an access that none names translates to itself. -/
def lookupXlat (a : Word64) (k : Access) (pr : Priv) : List XlatEntry → XlatResult
  | [] => .phys a
  | e :: es => if e.linear = a ∧ e.access = k ∧ e.priv = pr then e.result else lookupXlat a k pr es

/-- `Translate(linear, kind, privilege)` (R57): the identity in real-address mode. -/
def translateAddr (s : State) (a : Word64) (k : Access) (pr : Priv) : XlatResult :=
  if s.pe then lookupXlat a k pr s.xlat else .phys a

/-- The physical addresses of the `n` bytes from `a`, or the first page fault (R52, R53). -/
def physAddrs (s : State) (k : Access) (pr : Priv) : Nat → Word64 → Res (List Nat)
  | 0, _ => .ok []
  | n + 1, a =>
    match translateAddr s (linear s a) k pr with
    | .pageFault c => raise (.pf c)
    | .phys p =>
      match physAddrs s k pr n (a + 1#64) with
      | .ok ps => .ok (p.toNat :: ps)
      | .error e => .error e

/-- `MemRead(addr, n)` of a table or task-state segment: supervisor (R52, R57). -/
def memRead (s : State) (n : Nat) (a : Word64) : Res Nat :=
  match physAddrs s .read .supervisor n a with
  | .ok ps => .ok (leNat (ps.map (readByte s.mem)))
  | .error e => .error e

/-- The linear address that lies `off` bytes into a table. -/
def tableAddr (base : Word64) (off : Nat) : Word64 := base + BitVec.ofNat 64 off

/-! ## The stack pointer and the instruction pointer -/

/-- RSP, the whole cell (R20). -/
def rsp (s : State) : Word64 := s.rspHi ++ s.rspLo

/-- The stack pointer of a width: SP, ESP or RSP (R20, R60). -/
def stackPtr (s : State) : StackWidth → Nat
  | .w16 => s.rspLo.toNat % 2 ^ 16
  | .w32 => s.rspLo.toNat
  | .w64 => (rsp s).toNat

/-- A write of SP, ESP or RSP. SP leaves ESP[31:16]; SP and ESP leave RSP[63:32] a free value (R20, U3). -/
def setStackPtr (p : Params) (s : State) (sp : Nat) : StackWidth → State
  | .w16 => { s with
      rspLo := s.rspLo.extractLsb' 16 16 ++ BitVec.ofNat 16 sp
      rspHi := p.rspHigh s.draws
      draws := s.draws + 1 }
  | .w32 => { s with rspLo := BitVec.ofNat 32 sp, rspHi := p.rspHigh s.draws, draws := s.draws + 1 }
  | .w64 => { s with
      rspLo := BitVec.ofNat 32 sp
      rspHi := BitVec.ofNat 32 (sp / 2 ^ 32)
      draws := s.draws + 1 }

/-- EIP (R22). -/
def eip (s : State) : Word32 := s.rip.setWidth 32

/-- The instruction pointer that a delivery saves: RIP in 64-bit mode, EIP zero-extended elsewhere (R23, R114). -/
def savedIp (s : State) : Word64 := if inMode64 s then s.rip else (eip s).setWidth 64

/-- `rip` with EIP written; RIP[63:32] stays (DEDUCED, log 12). -/
def writeEip (rip : Word64) (v : Word32) : Word64 := rip.extractLsb' 32 32 ++ v

/-- The instruction pointer moved past an instruction of `len` bytes (R23). A sum that does not fit the register is a
free value (N2, R112 f). -/
def advanceIp (p : Params) (len : Nat) (s : State) : State :=
  if inMode64 s then
    if s.rip.toNat + len < 2 ^ 64 then { s with rip := s.rip + BitVec.ofNat 64 len }
    else { s with rip := p.ipPastTop s.draws, draws := s.draws + 1 }
  else if (eip s).toNat + len < 2 ^ 32 then { s with rip := writeEip s.rip (eip s + BitVec.ofNat 32 len) }
  else { s with rip := writeEip s.rip ((p.ipPastTop s.draws).setWidth 32), draws := s.draws + 1 }

/-! ## Descriptor tables and the task-state segment -/

/-- Base of the table that a selector's TI bit chooses (R33). -/
def tableBase (s : State) (sel : Word16) : Word64 := if selLocal sel then s.ldtr.base else s.gdtr.base

/-- "Within its descriptor table limits" (R33). -/
def inTable (s : State) (sel : Word16) : Bool :=
  if selLocal sel then !selNull s.ldtr.sel && decide (selOffset sel + 7 ≤ s.ldtr.limit.toNat)
  else decide (selOffset sel + 7 ≤ s.gdtr.limit.toNat)

/-- The linear address of a selector's descriptor (R33). -/
def descAddr (s : State) (sel : Word16) : Word64 := tableAddr (tableBase s sel) (selOffset sel)

/-- The descriptor of a selector, read from its table (R33, R40). -/
def readDesc (s : State) (sel : Word16) : Res SegDesc :=
  match memRead s 8 (descAddr s sel) with
  | .ok raw => .ok (segDesc raw)
  | .error e => .error e

/-- The error `#TS(current TSS selector)` (R181, R245 b). -/
def tssFault (s : State) : Stop := .fault (.ts (selCode s.tr.sel false))

/-- `ReadTSS64(off)` (R149). -/
def readTss64 (p : Params) (s : State) (off : Nat) : Res Word64 := do
  stopIf (decide (s.tr.limit.toNat < off + 7) || !allCanonical p.vaBits 8 (tableAddr s.tr.base off)) (tssFault s)
  let v ← memRead s 8 (tableAddr s.tr.base off)
  pure (BitVec.ofNat 64 v)

/-- The stack pointer and stack selector of level `n` in a 32-bit TSS (R181). -/
def readTss32Stack (s : State) (n : BitVec 2) : Res (Word32 × Word16) := do
  stopIf (decide (s.tr.limit.toNat < tss32Offset n + 7)) (tssFault s)
  let sp ← memRead s 4 (tableAddr s.tr.base (tss32Offset n))
  let sel ← memRead s 2 (tableAddr s.tr.base (tss32Offset n + 4))
  pure (BitVec.ofNat 32 sp, BitVec.ofNat 16 sel)

/-- The stack pointer and stack selector of level `n` in a 16-bit TSS; the limit test is the page's `+ 4` (R182, C10). -/
def readTss16Stack (s : State) (n : BitVec 2) : Res (Word32 × Word16) := do
  stopIf (decide (s.tr.limit.toNat < tss16Offset n + 4)) (tssFault s)
  let sp ← memRead s 2 (tableAddr s.tr.base (tss16Offset n))
  let sel ← memRead s 2 (tableAddr s.tr.base (tss16Offset n + 2))
  pure (BitVec.ofNat 32 sp, BitVec.ofNat 16 sel)

/-- The checks on a new stack segment for level `n`, and its descriptor (R184, R185, R202). -/
def newStackSegment (s : State) (ext : Bool) (n : BitVec 2) (sel : Word16) : Res SegDesc := do
  stopIf (selNull sel) (.fault (.ts (extCode ext)))
  stopIf (!inTable s sel || selRpl sel != n) (.fault (.ts (selCode sel ext)))
  let d ← readDesc s sel
  stopIf (d.dpl != n || !d.isWritableData) (.fault (.ts (selCode sel ext)))
  stopIf (!d.present) (.fault (.ss (some (selCode sel ext))))
  pure d

/-- The room check of a 16- or 32-bit frame: `no` raises `f`, `ambiguous` is refused (R61, R186). -/
def requireRoom (h : Hidden) (w : StackWidth) (sp n : Nat) (f : Fault) : Res Unit :=
  match stackRoom h w sp n with
  | .yes => .ok ()
  | .no => raise f
  | .ambiguous => refuse .stackWrap

/-- The check of a 64-bit frame of `n` bytes below `top`: `#SS(0)` on a non-canonical byte (R186, R222). It is the only check:
a frame that wraps 2^64 (`top` from 1 to `n - 1`, so 1 to 39 for the five values of the three instructions) has canonical bytes
at both ends of the address space and is delivered. That is a DESIGN CHOICE (log 28): the 64-bit arms of R180 and R220 test
nothing but canonical addresses, whereas U13, R243 and D20 speak of refusing a frame that wraps the stack-pointer modulus
without setting the 64-bit width apart. -/
def requireCanonicalFrame (p : Params) (top : Word64) (n : Nat) : Res Unit :=
  stopIf (!allCanonical p.vaBits n (top - BitVec.ofNat 64 n)) (.fault (.ss (some 0#16)))

/-- The stack pointer of a 64-bit delivery before its pushes: aligned when `ALIGN_RSP_16` (R187, R223). The transfer from
virtual-8086 mode does not call it (a DESIGN CHOICE, logs 7 and 13). -/
def alignTop (p : Params) (top : Word64) : Word64 := if p.alignRsp16 then top &&& 0xFFFFFFFFFFFFFFF0#64 else top

/-! ## Events -/

/-- What generates an event: one of the three instructions, or something else, an external interrupt or an exception
(R2, R85, R249). -/
inductive Source where
  | int3
  | intImm8
  | into
  | other
deriving DecidableEq, Repr

/-- "Generated by INT n, INT 3, or INTO" (R100). -/
def Source.software : Source → Bool
  | .other => false
  | _ => true

/-- The inputs of the delivery procedures (R2, R10, R100). -/
structure Event where
  vector : Nat
  source : Source
  ext : Bool
  code : Option Word16
deriving DecidableEq, Repr

/-- The event of one of the three instructions: EXT = 0 and no error code (R100). -/
def softwareEvent (source : Source) (vector : Nat) : Event :=
  { vector := vector, source := source, ext := false, code := none }

/-! ## Taking an interrupt or exception -/

/-- One value of a frame. -/
inductive Slot where
  /-- A flags image or an offset: its low bytes, zero-extended (R114). -/
  | exact (v : Word64)
  /-- A selector or an error code: 16 bits, and `SelPad` above them in a wider slot (R62). -/
  | padded (v : Word16)
deriving DecidableEq, Repr

/-- The error code of an event, pushed last where it has one (R210, R249). -/
def codeSlots (ev : Event) : List Slot := ev.code.toList.map Slot.padded

/-- The bytes of a slot of `k` bytes, lowest address first. -/
def slotBytes (p : Params) (draw k : Nat) : Slot → List Byte
  | .exact v => leBytes k v.toNat
  | .padded v => (leBytes 2 v.toNat ++ leBytes 6 (p.selPad draw).toNat).take k

/-- Where a delivery pushes: the stack's base, its address size, the slot size, and the privilege (R57, R60). -/
structure PushPlace where
  base : Word64
  width : StackWidth
  size : GateSize
  priv : Priv
deriving DecidableEq, Repr

/-- The stack pointer after one more push: decremented modulo 2^W (R60). -/
def pushedPtr (c : PushPlace) (sp : Nat) : Nat := (sp + c.width.modulus - c.size.bytes) % c.width.modulus

/-- The physical addresses of the slot that stands at the stack pointer `sp` (R60). -/
def slotAddrs (s : State) (c : PushPlace) (sp : Nat) : Res (List Nat) :=
  physAddrs s .write c.priv c.size.bytes (c.base + BitVec.ofNat 64 sp)

/-- `Push_n(v)` (R60): the decrement before the store. -/
def push (p : Params) (c : PushPlace) (v : Slot) (s : State) : Res State :=
  let sp := pushedPtr c (stackPtr s c.width)
  match slotAddrs s c sp with
  | .error e => .error e
  | .ok as =>
    .ok (setStackPtr p { s with mem := storeCells s.mem (as.zip (slotBytes p s.draws c.size.bytes v)) } sp c.width)

/-- The pushes of a frame, in order. -/
def pushAll (p : Params) (c : PushPlace) : List Slot → State → Res State
  | [], s => .ok s
  | v :: vs, s =>
    match push p c v s with
    | .ok s' => pushAll p c vs s'
    | .error e => .error e

/-- The physical addresses of `n` slots pushed from the stack pointer `sp` on: every byte a frame stores to. -/
def frameAddrs (s : State) (c : PushPlace) : Nat → Nat → Res (List Nat)
  | 0, _ => .ok []
  | n + 1, sp =>
    match slotAddrs s c (pushedPtr c sp) with
    | .error e => .error e
    | .ok as =>
      match frameAddrs s c n (pushedPtr c sp) with
      | .error e => .error e
      | .ok rest => .ok (as ++ rest)

/-- The physical addresses of the `n` bytes from `a` that translate for a push. -/
def translatedAddrs (s : State) (c : PushPlace) : Nat → Word64 → List Nat
  | 0, _ => []
  | n + 1, a =>
    match translateAddr s (linear s a) .write c.priv with
    | .phys x => x.toNat :: translatedAddrs s c n (a + 1#64)
    | .pageFault _ => translatedAddrs s c n (a + 1#64)

/-- The frame region of `n` slots pushed from the stack pointer `sp` on: the physical addresses of all of its bytes that
translate, stored to or not (R241). -/
def frameRegion (s : State) (c : PushPlace) : Nat → Nat → List Nat
  | 0, _ => []
  | n + 1, sp =>
    translatedAddrs s c c.size.bytes (c.base + BitVec.ofNat 64 (pushedPtr c sp)) ++ frameRegion s c n (pushedPtr c sp)

/-- What a delivery that has passed every check will do: the stack it uses, the frame, and the registers it loads. The
values saved are those from before the instruction (R180 "old", R205 `tempEFLAGS`). -/
structure Delivery where
  /-- SS for the handler: the old one where no stack is switched to. -/
  ss : SegReg
  /-- ESP before the pushes. -/
  rspLo : Word32
  /-- RSP[63:32] before the pushes. -/
  rspHi : Word32
  place : PushPlace
  /-- The frame in push order. -/
  slots : List Slot
  cs : SegReg
  rip : Word64
  cpl : BitVec 2
  eflags : Word32
  /-- Whether DS, ES, FS and GS are nullified (R208). -/
  nullData : Bool
  /-- The draw counter before the pushes. -/
  draws : Nat
deriving DecidableEq, Repr

/-- A segment register nullified: selector 0, hidden part unusable (R35, R208). -/
def nullified (r : SegReg) : SegReg := { sel := 0#16, hidden := { r.hidden with usable := false } }

/-- The handler's stack in place, nothing pushed yet. -/
def withHandlerStack (d : Delivery) (s : State) : State :=
  { s with ss := d.ss, rspLo := d.rspLo, rspHi := d.rspHi, draws := d.draws }

/-- The registers a delivery loads beside the stack. -/
def withHandlerRegisters (d : Delivery) (s : State) : State :=
  { s with
    cs := d.cs
    rip := d.rip
    cpl := d.cpl
    eflags := d.eflags
    ds := if d.nullData then nullified s.ds else s.ds
    es := if d.nullData then nullified s.es else s.es
    fs := if d.nullData then nullified s.fs else s.fs
    gs := if d.nullData then nullified s.gs else s.gs }

/-- TAKING AN INTERRUPT OR EXCEPTION, the one operation every delivery ends in (R251): the handler's stack, the frame,
then CS, the instruction pointer, CPL and the flags. -/
def enterHandler (p : Params) (d : Delivery) (s : State) : Res State :=
  match pushAll p d.place d.slots (withHandlerStack d s) with
  | .ok s' => .ok (withHandlerRegisters d s')
  | .error e => .error e

/-- Free values at addresses, one draw for each. -/
def freeCells (p : Params) (draw : Nat) : List Nat → List Host.Cell
  | [] => []
  | a :: as => (a, p.frameByte draw) :: freeCells p (draw + 1) as

/-- The frame region of a delivery that begins in `s`. -/
def deliveryRegion (d : Delivery) (s : State) : List Nat :=
  frameRegion s d.place d.slots.length (stackPtr (withHandlerStack d s) d.place.width)

/-- `s` with every byte of the delivery's frame region a free value: what a #PF in the middle of the pushes leaves
(R241, U4). -/
def withOpenFrame (p : Params) (d : Delivery) (s : State) : State :=
  { s with
    mem := storeCells s.mem (freeCells p s.draws (deliveryRegion d s))
    draws := s.draws + (deliveryRegion d s).length }

/-! ## What a return consumes -/

/-- The three shapes of frame (R252): without a stack pointer, with one, and with the data segments as well. -/
inductive FrameShape where
  | plain
  | withStack
  | withData
deriving DecidableEq, Repr

/-- The frame that a return from an interrupt procedure would consume (R252). IRET itself is outside the spec (R5 d):
this is what it finds. -/
structure ReturnImage where
  ip : Nat
  cs : Nat
  flags : Nat
  /-- The old stack pointer and SS, where the frame holds them. -/
  stack : Option (Nat × Nat)
  /-- ES, DS, FS, GS, where the frame holds them. -/
  data : List Nat
deriving DecidableEq, Repr

/-- The low `n` bytes of the slot `i` above the stack pointer; slot 0 is the lowest. -/
def readSlot (s : State) (c : PushPlace) (n i : Nat) : Res Nat :=
  let sp := (stackPtr s c.width + i * c.size.bytes) % c.width.modulus
  match physAddrs s .read c.priv n (c.base + BitVec.ofNat 64 sp) with
  | .ok ps => .ok (leNat (ps.map (readByte s.mem)))
  | .error e => .error e

/-- Instruction pointer, CS, flags; then the stack pointer and SS; then ES, DS, FS and GS, from the lowest address
upward (R252). A selector is the low 2 bytes of its slot (R62). -/
def returnImage (s : State) (c : PushPlace) (shape : FrameShape) : Res ReturnImage := do
  let k := c.size.bytes
  let ip ← readSlot s c k 0
  let cs ← readSlot s c 2 1
  let flags ← readSlot s c k 2
  match shape with
  | .plain => pure ⟨ip, cs, flags, none, []⟩
  | .withStack =>
    let sp ← readSlot s c k 3
    let ss ← readSlot s c 2 4
    pure ⟨ip, cs, flags, some (sp, ss), []⟩
  | .withData =>
    let sp ← readSlot s c k 3
    let ss ← readSlot s c 2 4
    let es ← readSlot s c 2 5
    let ds ← readSlot s c 2 6
    let fs ← readSlot s c 2 7
    let gs ← readSlot s c 2 8
    pure ⟨ip, cs, flags, some (sp, ss), [es, ds, fs, gs]⟩

end Sys2Proof.Machine
end

