-- ==== Sys2Proof/Machine/GateSelection.lean ====
section
/-! DEFINITION. Gate selection and checks: PROTECTED-MODE (R140 to R144), IA-32e-MODE (R146 to R149), TASK-GATE (R150 to
R157), and the checks of TRAP-OR-INTERRUPT-GATE (R160 to R169). -/

namespace Sys2Proof.Machine

/-- PROTECTED-MODE up to the dispatch on the gate's type (R140 to R143): the gate, checked. -/
def protectedGate (ev : Event) (s : State) : Res Gate := do
  let named : Word16 := idtCode 8 ev.vector ev.ext
  stopIf (decide (s.idtr.limit.toNat < ev.vector * 8 + 7)) (.fault (.gp (some named)))
  let raw ← memRead s 8 (tableAddr s.idtr.base (ev.vector * 8))
  let g := gate8 raw
  stopIf (g.kind == .other) (.fault (.gp (some named)))
  stopIf (ev.source.software && g.dpl.ult s.cpl) (.fault (.gp (some (idtCode 8 ev.vector false))))
  stopIf (!g.present) (.fault (.np named))
  pure g

/-- The stack pointer that the gate's IST field names, where it is not 0 (R149). -/
def istPointer (p : Params) (s : State) (g : Gate) : Res (Option Word64) :=
  if g.ist = 0 then .ok none
  else
    match readTss64 p s (tss64IstOffset g.ist) with
    | .ok v => .ok (some v)
    | .error e => .error e

/-- The place of the IST read in IA-32e-MODE: before the handler's segment is checked (R146, R228) a read that stops ends
the delivery here, else where the transfer begins (R66, R248). Open: `istReadFirst`, a DESIGN CHOICE, log 27. -/
def istCheckedFirst (p : Params) (ist : Res (Option Word64)) : Res Unit :=
  match ist with
  | .ok _ => .ok ()
  | .error e => stopIf p.istReadFirst e

/-- IA-32e-MODE up to the IST read (R146 to R148): the gate, checked. -/
def longGate (p : Params) (ev : Event) (s : State) : Res Gate := do
  let named : Word16 := idtCode p.errScale64 ev.vector ev.ext
  stopIf (decide (s.idtr.limit.toNat < ev.vector * 16 + 15)) (.fault (.gp (some named)))
  stopIf (!allCanonical p.vaBits 16 (tableAddr s.idtr.base (ev.vector * 16))) (.fault (.gp (some named)))
  let raw ← memRead s 16 (tableAddr s.idtr.base (ev.vector * 16))
  let g := gate16 raw
  stopIf (g.kind == .other) (.fault (.gp (some named)))
  stopIf (ev.source.software && g.dpl.ult s.cpl) (.fault (.gp (some (idtCode p.errScale64 ev.vector false))))
  stopIf (!g.present) (.fault (.np named))
  pure g

/-- TASK-GATE (R150 to R157): its checks, then the refusal of the task switch, which the spec does not define. -/
def taskGate (ev : Event) (s : State) (g : Gate) : Res Delivery := do
  stopIf (selNull g.sel) (.fault (.gp (some (extCode ev.ext))))
  stopIf (selLocal g.sel || decide (s.gdtr.limit.toNat < selOffset g.sel + 7)) (.fault (.gp (some (selCode g.sel false))))
  let raw ← memRead s 8 (tableAddr s.gdtr.base (selOffset g.sel))
  let td := segDesc raw
  stopIf (!td.isAvailableTss) (.fault (.gp (some (selCode g.sel false))))
  stopIf (!td.present) (.fault (.np (selCode g.sel false)))
  refuse .taskSwitch

/-- TRAP-OR-INTERRUPT-GATE up to the choice of transfer (R160 to R164, R168): the handler's code segment, checked. -/
def handlerSegment (p : Params) (ev : Event) (s : State) (g : Gate) : Res SegDesc := do
  let named : Word16 := selCode g.sel ev.ext
  stopIf (selNull g.sel) (.fault (.gp (some (extCode ev.ext))))
  stopIf (!inTable s g.sel) (.fault (.gp (some named)))
  stopIf (s.lma && !allCanonical p.vaBits 8 (descAddr s g.sel)) (.fault (.gp (some named)))
  let d ← readDesc s g.sel
  stopIf (!d.isCode || s.cpl.ult d.dpl) (.fault (.gp (some named)))
  stopIf (s.lma && (!d.l || d.db)) (.fault (.gp (some named)))
  stopIf (!d.present) (.fault (.np named))
  pure d

end Sys2Proof.Machine
end

