-- ==== Sys2Proof/Machine/FromV86.lean ====
section
/-! DEFINITION. Delivery from virtual-8086 mode: INTERRUPT-FROM-VIRTUAL-8086-MODE (R200 to R211). -/

namespace Sys2Proof.Machine

/-- The nine values of the frame, and the error code, in push order (R206, R207, R210). -/
def v86Slots (ev : Event) (s : State) : List Slot :=
  [.padded s.gs.sel, .padded s.fs.sel, .padded s.ds.sel, .padded s.es.sel, .padded s.ss.sel,
    .exact (s.rspLo.setWidth 64), .exact (rflags s.eflags), .padded s.cs.sel, .exact (savedIp s)] ++ codeSlots ev

/-- The level-0 stack of the current TSS: 32-bit, else 16-bit (R201). -/
def v86Stack (s : State) (n : BitVec 2) : Res (Word32 × Word16) :=
  match s.tr.kind with
  | .tss32 => readTss32Stack s n
  | _ => readTss16Stack s n

/-- The new instruction pointer: the whole offset for a 32-bit gate, its low 16 bits otherwise (R208). -/
def v86Ip (g : Gate) : Word32 :=
  if g.size = .g32 then g.off.setWidth 32 else (g.off &&& 0xFFFF#64).setWidth 32

/-- The stack width of the transfer: by the new SS, and 64 bits with a 64-bit gate (R21). -/
def v86Width (g : Gate) (sd : SegDesc) : StackWidth := if g.size = .g64 then .w64 else stackWidthOf sd.hidden

/-- The room test: by gate size, the third arm for a 64-bit gate (R203, R209; log 13). `hi` and `newSp` are the halves
of RSP after the load of ESP. -/
def v86Room (p : Params) (ev : Event) (g : Gate) (sd : SegDesc) (newSs : Word16) (hi newSp : Word32) (n : Nat) :
    Res Unit :=
  if g.size = .g64 then requireCanonicalFrame p (hi ++ newSp) n
  else
    requireRoom sd.hidden (stackWidthOf sd.hidden) (newSp.toNat % (stackWidthOf sd.hidden).modulus) n
      (.ss (some (selCode newSs ev.ext)))

/-- The base that a push adds: the new SS's, and 0 with a 64-bit stack pointer (R60). -/
def v86Base (g : Gate) (sd : SegDesc) : Word64 := if g.size = .g64 then 0#64 else sd.base.setWidth 64

/-- INTERRUPT-FROM-VIRTUAL-8086-MODE (R200). Through a 64-bit gate, which only a state with VM = 1 and LMA = 1 reaches
(log 13), it keeps the steps of R200: in particular the stack pointer is never aligned, whatever ALIGN_RSP_16 says. R7 and R187
speak of IA-32e-mode delivery, and R200 and R209 have no such step, so whether it applies there is open: a DESIGN CHOICE
(logs 7 and 13). -/
def fromV86 (p : Params) (ev : Event) (s : State) (g : Gate) (d : SegDesc) : Res Delivery := do
  let (newSp, newSs) ← v86Stack s d.dpl
  let sd ← newStackSegment s ev.ext d.dpl newSs
  let slots := v86Slots ev s
  v86Room p ev g sd newSs (p.rspHigh s.draws) newSp (slots.length * g.size.bytes)
  stopIf (!inLimit d.hidden g.off.toNat g.off.toNat) (.fault (.gp (some 0#16)))
  pure
    { ss := { sel := newSs, hidden := sd.hidden }
      rspLo := newSp
      rspHi := p.rspHigh s.draws
      place := { base := v86Base g sd, width := v86Width g sd, size := g.size, priv := .supervisor }
      slots := slots
      cs := { sel := withRpl g.sel 0#2, hidden := d.hidden }
      rip := writeEip s.rip (v86Ip g)
      cpl := 0#2
      eflags := eflagsAfterGate g.kind s.eflags
      nullData := true
      draws := s.draws + 1 }

end Sys2Proof.Machine
end

