-- ==== Sys2Proof/Machine/InterPrivilege.lean ====
section
/-! DEFINITION. Delivery with a change of privilege level: INTER-PRIVILEGE-LEVEL-INTERRUPT (R180 to R192). -/

namespace Sys2Proof.Machine

/-- The five values of the frame, and the error code, in push order (R189, R190). -/
def interSlots (ev : Event) (s : State) : List Slot :=
  [.padded s.ss.sel, .exact (rsp s), .exact (rflags s.eflags), .padded s.cs.sel, .exact (savedIp s)] ++ codeSlots ev

/-- The new stack pointer and stack selector from the current TSS (R181 to R183); an IST pointer is kept. -/
def interStack (p : Params) (s : State) (ist : Option Word64) (n : BitVec 2) : Res (Word64 × Word16) :=
  match s.tr.kind with
  | .tss32 => do
    let (sp, sel) ← readTss32Stack s n
    pure (sp.setWidth 64, sel)
  | .tss16 => do
    let (sp, sel) ← readTss16Stack s n
    pure (sp.setWidth 64, sel)
  | .tss64 =>
    match ist with
    | some top => pure (top, 0#16)
    | none => do
      let top ← readTss64 p s (tss64RspOffset n)
      pure (top, 0#16)

/-- The transfer with LMA = 0: a 16- or 32-bit gate and a stack segment from the TSS (R184 to R190). -/
def interLegacy (p : Params) (ev : Event) (s : State) (g : Gate) (d : SegDesc) : Res Delivery := do
  let (newSp, newSs) ← interStack p s none d.dpl
  let sd ← newStackSegment s ev.ext d.dpl newSs
  let width := stackWidthOf sd.hidden
  let slots := interSlots ev s
  requireRoom sd.hidden width (newSp.toNat % width.modulus) (slots.length * g.size.bytes)
    (.ss (some (selCode newSs ev.ext)))
  stopIf (!inLimit d.hidden g.off.toNat g.off.toNat) (.fault (.gp (some 0#16)))
  pure
    { ss := { sel := newSs, hidden := sd.hidden }
      rspLo := newSp.setWidth 32
      rspHi := p.rspHigh s.draws
      place := { base := sd.base.setWidth 64, width := width, size := g.size, priv := .supervisor }
      slots := slots
      cs := { sel := withRpl g.sel d.dpl, hidden := d.hidden }
      rip := writeEip s.rip (g.off.setWidth 32)
      cpl := d.dpl
      eflags := eflagsAfterGate g.kind s.eflags
      nullData := false
      draws := s.draws + 1 }

/-- SS after an IA-32e stack switch to level `n`: a NULL selector, whose RPL is a free value for n = 1 or 2, and an
unusable hidden part (R191, U2). -/
def nullStackSegment (p : Params) (s : State) (n : BitVec 2) : SegReg :=
  { sel := if n = 0#2 then 0#16 else (p.ssRpl s.draws).setWidth 16, hidden := { s.ss.hidden with usable := false } }

/-- The transfer with LMA = 1: a 64-bit gate and a 64-bit stack pointer (R186 to R191). -/
def interLong (p : Params) (ev : Event) (s : State) (g : Gate) (ist : Option Word64) (d : SegDesc) : Res Delivery := do
  let (newSp, _) ← interStack p s ist d.dpl
  let top := alignTop p newSp
  let slots := interSlots ev s
  requireCanonicalFrame p top (slots.length * g.size.bytes)
  stopIf (!canonical p.vaBits g.off) (.fault (.gp (some 0#16)))
  pure
    { ss := nullStackSegment p s d.dpl
      rspLo := top.setWidth 32
      rspHi := top.extractLsb' 32 32
      place := { base := 0#64, width := .w64, size := g.size, priv := .supervisor }
      slots := slots
      cs := { sel := withRpl g.sel d.dpl, hidden := d.hidden }
      rip := g.off
      cpl := d.dpl
      eflags := eflagsAfterGate g.kind s.eflags
      nullData := false
      draws := s.draws + 1 }

end Sys2Proof.Machine
end

