-- ==== Sys2Proof/Machine/IntraPrivilege.lean ====
section
/-! DEFINITION. Delivery without a change of privilege level: INTRA-PRIVILEGE-LEVEL-INTERRUPT (R220 to R228). -/

namespace Sys2Proof.Machine

/-- The three values of a 16- or 32-bit frame, and the error code, in push order (R225, R227). -/
def intraLegacySlots (ev : Event) (s : State) : List Slot :=
  [.exact (rflags s.eflags), .padded s.cs.sel, .exact (savedIp s)] ++ codeSlots ev

/-- The five values of a 64-bit frame, and the error code, in push order (R223, R225, R227). -/
def intraLongSlots (ev : Event) (s : State) : List Slot :=
  [.padded s.ss.sel, .exact (rsp s), .exact (rflags s.eflags), .padded s.cs.sel, .exact (savedIp s)] ++ codeSlots ev

/-- The transfer with LMA = 0: a 16- or 32-bit gate and the current stack (R221, R224 to R226). -/
def intraLegacy (ev : Event) (s : State) (g : Gate) (d : SegDesc) : Res Delivery := do
  let width := stackWidthOf s.ss.hidden
  let slots := intraLegacySlots ev s
  requireRoom s.ss.hidden width (stackPtr s width) (slots.length * g.size.bytes) (.ss (some 0#16))
  stopIf (!inLimit d.hidden g.off.toNat g.off.toNat) (.fault (.gp (some 0#16)))
  pure
    { ss := s.ss
      rspLo := s.rspLo
      rspHi := s.rspHi
      place := { base := s.ss.hidden.base.setWidth 64, width := width, size := g.size, priv := cplPriv s }
      slots := slots
      cs := { sel := withRpl g.sel s.cpl, hidden := d.hidden }
      rip := writeEip s.rip (g.off.setWidth 32)
      cpl := s.cpl
      eflags := eflagsAfterGate g.kind s.eflags
      nullData := false
      draws := s.draws }

/-- The transfer with LMA = 1: a 64-bit gate, on the IST stack or the current one (R222 to R226). -/
def intraLong (p : Params) (ev : Event) (s : State) (g : Gate) (ist : Option Word64) (d : SegDesc) : Res Delivery := do
  let top := alignTop p (ist.getD (rsp s))
  let slots := intraLongSlots ev s
  requireCanonicalFrame p top (slots.length * g.size.bytes)
  stopIf (!canonical p.vaBits g.off) (.fault (.gp (some 0#16)))
  pure
    { ss := s.ss
      rspLo := top.setWidth 32
      rspHi := top.extractLsb' 32 32
      place :=
        { base := 0#64, width := .w64, size := g.size, priv := if ist.isSome then .supervisor else cplPriv s }
      slots := slots
      cs := { sel := withRpl g.sel s.cpl, hidden := d.hidden }
      rip := g.off
      cpl := s.cpl
      eflags := eflagsAfterGate g.kind s.eflags
      nullData := false
      draws := s.draws }

end Sys2Proof.Machine
end

