-- ==== Sys2Proof/Machine/RealMode.lean ====
section
/-! DEFINITION. Delivery in real-address mode: REAL-ADDRESS-MODE (R130 to R136). -/

namespace Sys2Proof.Machine

/-- The frame of three words, in push order (R133). -/
def realModeSlots (s : State) : List Slot :=
  [.exact (rflags s.eflags), .padded s.cs.sel, .exact (savedIp s)]

/-- Where a real-address-mode delivery pushes: the current stack, 16-bit SP (R21, R60). -/
def realModePlace (s : State) : PushPlace :=
  { base := s.ss.hidden.base.setWidth 64, width := .w16, size := .g16, priv := cplPriv s }

/-- CS after a real-address-mode load: base = selector * 16, limit FFFFH (R35, R130). -/
def realModeCs (s : State) (sel : Word16) : SegReg :=
  { sel := sel, hidden := { s.cs.hidden with base := BitVec.ofNat 32 (sel.toNat * 16), limit := 0xFFFF#32 } }

/-- REAL-ADDRESS-MODE up to its first write (R130): the limit test, the room test, the entry. -/
def realMode (ev : Event) (s : State) : Res Delivery := do
  stopIf (decide (s.idtr.limit.toNat < ev.vector * 4 + 3)) (.fault (.gp none))
  requireRoom realModeStack .w16 (stackPtr s .w16) 6 (.ss none)
  let entry ← memRead s 4 (tableAddr s.idtr.base (ev.vector * 4))
  pure
    { ss := s.ss
      rspLo := s.rspLo
      rspHi := s.rspHi
      place := realModePlace s
      slots := realModeSlots s
      cs := realModeCs s (BitVec.ofNat 16 (bits entry 31 16))
      rip := writeEip s.rip (BitVec.ofNat 32 (bits entry 15 0))
      cpl := s.cpl
      eflags := eflagsAfterReal s.eflags
      nullData := false
      draws := s.draws }

end Sys2Proof.Machine
end

