-- ==== Sys2Proof/Machine/Deliver.lean ====
section
/-! DEFINITION. The top-level dispatch DELIVER (R105 to R108), the choice of transfer (R165 to R167), and going on past
a raised exception (R240, R241). -/

namespace Sys2Proof.Machine

/-- The choice of transfer at the end of TRAP-OR-INTERRUPT-GATE (R160, R165 to R167, R169). `ist` is what the read of the
IST stack pointer answers (R146, step 12 of R248): every transfer that a 64-bit gate can reach is bound to it, so the read's
fault is never lost, whichever transfer it is. The two 64-bit transfers use its value; the one from virtual-8086 mode takes
its stack by its own rules, and only the fault of the read shows there (log 27). -/
def transfer (p : Params) (ev : Event) (s : State) (g : Gate) (ist : Res (Option Word64)) (d : SegDesc) :
    Res Delivery :=
  if !d.isConforming && d.dpl.ult s.cpl then
    if !flagVM s.eflags then
      if s.lma then (ist >>= fun top => interLong p ev s g top d) else interLegacy p ev s g d
    else if d.dpl != 0#2 then raise (.gp (some (selCode g.sel false)))
    else (ist >>= fun _ => fromV86 p ev s g d)
  else if flagVM s.eflags then raise (.gp (some (selCode g.sel false)))
  else if s.lma then (ist >>= fun top => intraLong p ev s g top d)
  else intraLegacy ev s g d

/-- TRAP-OR-INTERRUPT-GATE (R160): the handler's segment, then the transfer. -/
def trapOrInterruptGate (p : Params) (ev : Event) (s : State) (g : Gate) (ist : Res (Option Word64)) :
    Res Delivery :=
  match handlerSegment p ev s g with
  | .ok d => transfer p ev s g ist d
  | .error e => .error e

/-- PROTECTED-MODE (R140, R144). -/
def protectedMode (p : Params) (ev : Event) (s : State) : Res Delivery :=
  match protectedGate ev s with
  | .ok g => if g.kind = .task then taskGate ev s g else trapOrInterruptGate p ev s g (.ok none)
  | .error e => .error e

/-- IA-32e-MODE (R146), with the IST read where `istReadFirst` places it (log 27). -/
def longMode (p : Params) (ev : Event) (s : State) : Res Delivery := do
  let g ← longGate p ev s
  istCheckedFirst p (istPointer p s g)
  trapOrInterruptGate p ev s g (istPointer p s g)

/-- Whether VME redirection concerns the event: the regular software interrupts, not INT 3 (R108). -/
def redirectable : Source → Bool
  | .intImm8 => true
  | .into => true
  | .int3 => false
  | .other => false

/-- `IoplSensitive` (R106, R107); events that are not software interrupts do not take the check (R249). -/
def ioplSensitive (p : Params) : Source → Bool
  | .intImm8 => true
  | .into => p.v86IntoIoplSensitive
  | .int3 => false
  | .other => false

/-- DELIVER up to the first write (R105): every check of the mode's procedure, and what the delivery will do. -/
def deliveryOf (p : Params) (ev : Event) (s : State) : Res Delivery :=
  if !s.pe then realMode ev s
  else if flagVM s.eflags && s.vme && redirectable ev.source then refuse .vmeRedirection
  else if flagVM s.eflags && (flagIOPL s.eflags).ult 3#2 && ioplSensitive p ev.source then raise (.gp (some 0#16))
  else if !s.lma then protectedMode p ev s
  else longMode p ev s

/-- DELIVER (R105): the checks, then the handler is entered. -/
def deliver (p : Params) (ev : Event) (s : State) : Res State :=
  match deliveryOf p ev s with
  | .ok d => enterHandler p d s
  | .error e => .error e

/-! ## Raised exceptions

The spec stops at the fault (R241, D9), and so does every instruction of this model. `faultState` is the state that R241
attaches to the fault. R241 leaves a reader who wishes to go on the delivery procedures with `software = false`, the vector
of R240, the code, and an EXT of the reader's choosing: `takeException` is that, from the attached state. No instruction
calls it. -/

/-- The state that R241 attaches to a fault of the delivery of `ev`, where `before` is the state before the instruction and
`s` the one with the instruction pointer advanced: `before`, and after a #PF in a push the bytes of the frame open (U4). -/
def deliveryFaultState (p : Params) (ev : Event) (before s : State) : State :=
  match deliveryOf p ev s with
  | .error _ => before
  | .ok d =>
    match enterHandler p d s with
    | .ok _ => before
    | .error _ => withOpenFrame p d before

/-- The interrupt vector number of an exception (R240). -/
def faultVector : Fault → Nat
  | .ud => 6
  | .ts _ => 10
  | .np _ => 11
  | .ss _ => 12
  | .gp _ => 13
  | .pf _ => 14

/-- The error code that an exception carries (R244). -/
def faultCode : Fault → Option Word16
  | .ud => none
  | .ts c => some c
  | .np c => some c
  | .ss c => c
  | .gp c => c
  | .pf c => some c

/-- Delivery of a raised exception from the state `s` that R241 attaches to it (log 24). -/
def takeException (p : Params) (ext : Bool) (f : Fault) (s : State) : Res State :=
  deliver p { vector := faultVector f, source := .other, ext := ext, code := faultCode f } s

end Sys2Proof.Machine
end

