-- ==== Sys2Proof/Machine/SoftwareInt.lean ====
section
/-! DEFINITION. The meanings of the three instructions (R100 to R104), and what each names. -/

namespace Sys2Proof.Machine

/-! ## What an instruction names -/

/-- The vector (R82, R102 to R104). -/
def vectorOf : Instr → Nat
  | .int3 _ => 3
  | .intImm8 _ ib => ib
  | .into _ => 4

/-- The kind of opcode (R85). -/
def sourceOf : Instr → Source
  | .int3 _ => .int3
  | .intImm8 _ _ => .intImm8
  | .into _ => .into

/-- The length that the instruction pointer is advanced by (R90). -/
def lengthOf : Instr → Nat
  | .int3 _ => 1
  | .intImm8 _ _ => 2
  | .into _ => 1

/-- The event an instruction delivers (R100). -/
def eventOf (i : Instr) : Event := softwareEvent (sourceOf i) (vectorOf i)

/-- The state in which an instruction's own rule runs: the instruction pointer advanced (R23). -/
def advanced (i : Instr) (s : State) : State := advanceIp Config.params (lengthOf i) s

/-! ## The meanings -/

/-- What the three instructions share (R101): a state outside the invariants of R49 is refused, LOCK raises #UD, then
the instruction pointer is advanced and the instruction's own rule applied. That the refusal comes before every other check,
and after the fetch, is a DESIGN CHOICE (log 15). -/
def afterPreChecks (p : Params) (lock : Bool) (len : Nat) (own : State → Res State) (s : State) : Res State :=
  if !lawful s then refuse .brokenInvariant
  else if lock then raise .ud
  else own (advanceIp p len s)

/-- INT 3 with the parameters as an argument (R102). -/
def int3With (p : Params) (lock : Bool) (s : State) : Res State :=
  afterPreChecks p lock 1 (deliver p (softwareEvent .int3 3)) s

/-- INT imm8 with the parameters as an argument (R103). -/
def intImm8With (p : Params) (lock : Bool) (ib : Nat) (s : State) : Res State :=
  afterPreChecks p lock 2 (deliver p (softwareEvent .intImm8 ib)) s

/-- INTO's own rule on the advanced state: delivery through vector 4 when OF = 1, else nothing more (R104). -/
def intoOwn (p : Params) (s : State) : Res State :=
  if flagOF s.eflags then deliver p (softwareEvent .into 4) s else .ok s

/-- INTO with the parameters as an argument (R104): #UD in 64-bit mode before OF is tested (R87). -/
def intoWith (p : Params) (lock : Bool) (s : State) : Res State :=
  afterPreChecks p (lock || !(Instr.into lock).validIn (opMode s)) 1 (intoOwn p) s

/-- `INT 3` (R102). -/
def execInt3 (lock : Bool) (s : State) : Host.Outcome State Fault Refusal :=
  toOutcome (int3With Config.params lock s)

/-- `INT imm8` (R103). -/
def execIntImm8 (lock : Bool) (ib : Nat) (s : State) : Host.Outcome State Fault Refusal :=
  toOutcome (intImm8With Config.params lock ib s)

/-- `INTO` (R104). -/
def execInto (lock : Bool) (s : State) : Host.Outcome State Fault Refusal :=
  toOutcome (intoWith Config.params lock s)

end Sys2Proof.Machine
end

