-- ==== Sys2Proof/Machine/Dispatch.lean ====
section
/-! DEFINITION. The dispatch of the three instructions to their meanings. -/

namespace Sys2Proof.Machine

def exec (i : Instr) (s : State) : Host.Outcome State Fault Refusal :=
  match i with
  | .int3 lock => Sys2Proof.Machine.execInt3 lock s
  | .intImm8 lock ib => Sys2Proof.Machine.execIntImm8 lock ib s
  | .into lock => Sys2Proof.Machine.execInto lock s

end Sys2Proof.Machine
end

