-- ==== Sys2Proof/Decode.lean ====
section
/-! DEFINITION. Decoding and encoding of the three instructions (R80 to R90). -/

namespace Sys2Proof

/-- What the decoder answers for the bytes it has been given. -/
inductive DecodeResult where
  /-- The bytes begin with this instruction. -/
  | instr (i : Instr)
  /-- The bytes end before the instruction does: one more byte is needed. -/
  | more
  /-- One of the three opcodes stands behind a prefix other than LOCK (R89), and is not CEH in 64-bit mode (R101). -/
  | otherPrefix
  /-- The opcode is not CCH, CDH or CEH (R83). -/
  | notInScope
deriving DecidableEq, Repr

/-- The LOCK prefix byte, F0H (R88; the value is general knowledge, log 9). -/
def isLockByte (b : Byte) : Bool := b == 0xF0#8

/-- The prefix bytes other than LOCK (R89): operand size, address size, the six segment overrides, the two repeat
prefixes, and in 64-bit mode REX 40H to 4FH (PRESUMED byte values, log 10). -/
def isOtherPrefixByte (m64 : Bool) (b : Byte) : Bool :=
  b == 0x66#8 || b == 0x67#8 || b == 0x2E#8 || b == 0x36#8 || b == 0x3E#8 || b == 0x26#8
    || b == 0x64#8 || b == 0x65#8 || b == 0xF2#8 || b == 0xF3#8
    || (m64 && decide (0x40 ≤ b.toNat) && decide (b.toNat ≤ 0x4F))

/-- What an opcode of this spec behind prefixes is, in the order of R101 (D30): the two cases that raise #UD, LOCK and CEH
in 64-bit mode, are the instruction, which raises it; then any other prefix is refused. -/
def asForm (m64 lock other : Bool) (i : Instr) : DecodeResult :=
  if lock || (m64 && !i.validIn .mode64) then .instr i
  else if other then .otherPrefix
  else .instr i

/-- Read the prefix run, then the opcode and the immediate (R83, R88, R89). -/
def decodeFrom (m64 lock other : Bool) : List Byte → DecodeResult
  | [] => .more
  | b :: rest =>
    if isLockByte b then decodeFrom m64 true other rest
    else if isOtherPrefixByte m64 b then decodeFrom m64 lock true rest
    else if b == 0xCC#8 then asForm m64 lock other (.int3 lock)
    else if b == 0xCE#8 then asForm m64 lock other (.into lock)
    else if b == 0xCD#8 then
      match rest with
      | [] => .more
      | ib :: _ => asForm m64 lock other (.intImm8 lock ib.toNat)
    else .notInScope

/-- The decoder (R83): `m64` says that the processor is in 64-bit mode, where 40H to 4FH are prefixes. -/
def decode (m64 : Bool) (bs : List Byte) : DecodeResult := decodeFrom m64 false false bs

/-- The opcode byte and the immediate (R80). -/
def opcodeBytes : Instr → List Byte
  | .int3 _ => [0xCC#8]
  | .intImm8 _ ib => [0xCD#8, BitVec.ofNat 8 ib]
  | .into _ => [0xCE#8]

/-- The bytes of an instruction, in increasing address order (R54, R80, R88). -/
def encode (i : Instr) : List Byte :=
  if i.lock then 0xF0#8 :: opcodeBytes i else opcodeBytes i

/-- The longest admitted form: LOCK, CDH, ib (R90). -/
def maxInstrBytes : Nat := 3

/-- The `n` low bytes of `w`, lowest first. -/
def wordBytes : Nat → Nat → List Byte
  | 0, _ => []
  | n + 1, w => BitVec.ofNat 8 w :: wordBytes n (w / 256)

/-- The bytes of an opcode-table word of `nbits` bits: every bit above `nbits` is 0. -/
def tableWordBytes (nbits w : Nat) : List Byte := wordBytes (max maxInstrBytes (nbits / 8)) (w % 2 ^ nbits)

/-- The instruction the decoder reads from an opcode-table word (outside 64-bit mode). -/
def decodeTableWord (nbits w : Nat) : Option Instr :=
  match decode false (tableWordBytes nbits w) with
  | .instr i => some i
  | _ => none

end Sys2Proof
end

