-- ==== Sys2Proof/Machine/Fetch.lean ====
section
/-! DEFINITION. Fetching the bytes of an instruction (R22, R81, R90). -/

namespace Sys2Proof.Machine

/-- The linear address of byte `i` of the next instruction: `RIP + i` in 64-bit mode, `CS.base + EIP + i` elsewhere
(R22). -/
def fetchAddr (s : State) (i : Nat) : Word64 :=
  if inMode64 s then s.rip + BitVec.ofNat 64 i
  else s.cs.hidden.base.setWidth 64 + (eip s).setWidth 64 + BitVec.ofNat 64 i

/-- Whether byte `i` can be fetched, page faults apart (R81): its address is canonical in 64-bit mode, its offset is
within the code-segment limit elsewhere. -/
def fetchable (vaBits : Nat) (s : State) (i : Nat) : Bool :=
  if inMode64 s then canonical vaBits (fetchAddr s i)
  else decide ((eip s).toNat + i ≤ s.cs.hidden.limit.toNat)

/-- Byte `i` of the next instruction (R81). The test of the code-segment limit, or of a canonical address, comes before the
translation, so that a byte which fails it and whose translation would page-fault too is refused and raises no #PF. R81, D1
and R248 do not order the two: a DESIGN CHOICE (log 29). -/
def fetchByte (vaBits : Nat) (s : State) (i : Nat) : Res Byte :=
  if !fetchable vaBits s i then refuse .unfetchable
  else
    match translateAddr s (linear s (fetchAddr s i)) .fetch (cplPriv s) with
    | .phys a => .ok (readByte s.mem a.toNat)
    | .pageFault c => raise (.pf c)

/-- Fetch byte after byte until the decoder answers; the first byte that stops decides (R81, log 29). A byte that cannot be fetched, a prefix other than LOCK and an opcode
that is not of this spec are the refusals of R81, R89 and R83 (R243). A run of prefix bytes, LOCK among them or not, that
leaves no room within `fuel` bytes for the whole of the opcode and its immediate is refused as a prefix case: with the limit of
15, 15 or more prefix bytes before any opcode, or 14 before `CDH ib`, whose `ib` would be byte 16. So a LOCK in such a run
raises no #UD, where it does in a shorter one (DESIGN CHOICE, log 10: the spec gives no limit of length). -/
def fetchInstr (vaBits : Nat) (s : State) : Nat → List Byte → Res Instr
  | 0, _ => refuse .otherPrefix
  | fuel + 1, bs =>
    match fetchByte vaBits s bs.length with
    | .error e => .error e
    | .ok b =>
      match decode (inMode64 s) (bs ++ [b]) with
      | .instr i => .ok i
      | .more => fetchInstr vaBits s fuel (bs ++ [b])
      | .otherPrefix => refuse .otherPrefix
      | .notInScope => refuse .notInScope

/-- The most bytes one instruction may have, prefixes, opcode and immediate together (PRESUMED, the family's limit, log 10:
the spec gives none). -/
def fetchLimit : Nat := 15

/-- The next instruction. -/
def nextInstr (vaBits : Nat) (s : State) : Res Instr := fetchInstr vaBits s fetchLimit []

/-- Bytes placed where the fetch reads them, the first as byte `i`; a byte whose fetch would page-fault is left out. -/
def placeBytes (s : State) : Nat → List Byte → State
  | _, [] => s
  | i, b :: bs =>
    match translateAddr s (linear s (fetchAddr s i)) .fetch (cplPriv s) with
    | .phys a => placeBytes { s with mem := writeByte s.mem a.toNat b } (i + 1) bs
    | .pageFault _ => placeBytes s (i + 1) bs

end Sys2Proof.Machine
end

