-- ==== Sys2Proof/Machine/Step.lean ====
section
/-! DEFINITION. One step: fetch, decode, execute (R11, R81, R83). -/

namespace Sys2Proof.Machine

/-- One step (R11): the next instruction is fetched and executed. Nothing stands around `exec`: each instruction advances
the instruction pointer itself (R102 to R104). The fetch comes before the refusal of a state outside R49, which `exec` makes,
so that such a state can end in the fetch's #PF or in a refusal of the fetch or the decoder: the spec does not place that
refusal (R243, R248), and this is a DESIGN CHOICE (log 15). -/
def step (s : State) : Host.Outcome State Fault Refusal :=
  match nextInstr Config.vaBits s with
  | .ok i => exec i s
  | .error (.fault f) => .fault f
  | .error (.refuse r) => .refused r

/-- `s` with an opcode-table word's instruction stored where `step` fetches its next instruction. -/
def State.withFetchWord (s : State) (nbits w : Nat) : State := placeBytes s 0 (tableWordBytes nbits w)

end Sys2Proof.Machine
end

