-- ==== Sys2Proof/Machine/AfterFault.lean ====
section
/-! DEFINITION. The state that R241 attaches to a fault, and a step that goes on past it. The outcome of `step` carries the
exception and its code; these functions hold the rest of R241. -/

namespace Sys2Proof.Machine

/-- The state attached to a fault that `exec i s` ends in (R241): `s`, with EIP at the first byte and no register changed;
after a #PF in a push the bytes of the frame region are free values (U4). -/
def faultState (i : Instr) (s : State) : State :=
  if i.lock || !i.validIn (opMode s) then s
  else deliveryFaultState Config.params (eventOf i) s (advanced i s)

/-- The state attached to a fault that `step s` ends in: that of the instruction, and `s` where the fetch page-faults. -/
def stepFaultState (s : State) : State :=
  match nextInstr Config.vaBits s with
  | .ok i => faultState i s
  | .error _ => s

/-- A step, and past a fault the delivery of the exception from the state attached to it, with an EXT of the caller's: what
R241 leaves to a reader who wishes to go on (DESIGN CHOICE, log 24). A second fault on the way ends it. -/
def stepPastFault (ext : Bool) (s : State) : Host.Outcome State Fault Refusal :=
  match step s with
  | .fault f => toOutcome (takeException Config.params ext f (stepFaultState s))
  | o => o

end Sys2Proof.Machine
end

