-- ==== Sys2Proof/Safety.lean ====
section
/-! DEFINITION. The terms that statements use: when an instruction delivers, what stays as it was, the
invariant that every step keeps, and what a safe step is. -/

namespace Sys2Proof.Machine

/-! ## When an instruction delivers -/

/-- The instruction goes on to DELIVER: the invariants of R49 hold, there is no LOCK prefix, and INTO finds OF = 1 and is
not in 64-bit mode (R101 to R104). -/
abbrev Delivers (i : Instr) (s : State) : Prop :=
  lawful s = true ∧ i.lock = false ∧ (i = .into false → flagOF s.eflags = true ∧ opMode s ≠ .mode64)

/-- The delivery goes on to the IDT entry: PE = 1, and virtual-8086 mode does not stop it (R105 to R108): INT 3 is exempt,
INT imm8 needs VME = 0 and IOPL = 3. INTO is left to statements of its own, because R107 is open. -/
abbrev ReachesGate (i : Instr) (s : State) : Prop :=
  Delivers i s ∧ s.pe = true ∧
    (flagVM s.eflags = true → sourceOf i = .int3 ∨ (s.vme = false ∧ flagIOPL s.eflags = 3#2))

/-- The return address fits its register (R23; N2 leaves the rest open). -/
abbrev ReturnFits (i : Instr) (s : State) : Prop :=
  if inMode64 s then s.rip.toNat + lengthOf i < 2 ^ 64 else (eip s).toNat + lengthOf i < 2 ^ 32

/-- The return address: the address of the next instruction (R23). -/
def returnIp (i : Instr) (s : State) : Nat :=
  if inMode64 s then s.rip.toNat + lengthOf i else (eip s).toNat + lengthOf i

/-! ## What stays as it was -/

/-- PE, VME, LMA, IDTR, GDTR, LDTR, TR and the translation: no instruction of this spec writes them. -/
abbrev SameSystem (s t : State) : Prop :=
  t.pe = s.pe ∧ t.vme = s.vme ∧ t.lma = s.lma ∧ t.idtr = s.idtr ∧ t.gdtr = s.gdtr ∧ t.ldtr = s.ldtr ∧ t.tr = s.tr ∧
    t.xlat = s.xlat

/-- DS, ES, FS and GS. -/
abbrev SameDataSegments (s t : State) : Prop := t.ds = s.ds ∧ t.es = s.es ∧ t.fs = s.fs ∧ t.gs = s.gs

/-- The default `Translate`: the identity (R57). -/
abbrev Unmapped (s : State) : Prop := s.xlat = []

/-- Every byte of memory reads as before, but those at the `n` linear addresses from `a` on. -/
def MemorySameOutside (s t : State) (n : Nat) (a : Word64) : Prop :=
  ∀ x : Nat, (∀ i < n, x ≠ (linear s (a + BitVec.ofNat 64 i)).toNat) → readByte t.mem x = readByte s.mem x

/-- The stack pointer `n` slots below `sp`, modulo 2^W (R60). -/
def belowPtr (c : PushPlace) (n sp : Nat) : Nat := (sp + c.width.modulus - n * c.size.bytes) % c.width.modulus

/-- A frame of `n` slots stands below the stack pointer `sp`: the stack pointer is at its lowest slot, and memory outside
its bytes is as it was. -/
structure FramePushed (s t : State) (c : PushPlace) (n sp : Nat) : Prop where
  pointer : stackPtr t c.width = belowPtr c n sp
  outside : MemorySameOutside s t (n * c.size.bytes) (c.base + BitVec.ofNat 64 (belowPtr c n sp))

/-- The handler is entered: where control goes, CPL and EFLAGS (R251), and the system registers as they were. -/
structure Arrives (s t : State) (cs : SegReg) (rip : Word64) (cpl : BitVec 2) (eflags : Word32) : Prop where
  cs : t.cs = cs
  rip : t.rip = rip
  cpl : t.cpl = cpl
  eflags : t.eflags = eflags
  system : SameSystem s t

/-! ## Tables that let a delivery through -/

/-- The IDT entry of a vector with LMA = 0 is a present interrupt or trap gate that the current level may use
(R141 to R143). -/
abbrev LegacyGate (s : State) (v : Nat) (g : Gate) : Prop :=
  s.lma = false ∧ v * 8 + 7 ≤ s.idtr.limit.toNat ∧
    (∃ raw, memRead s 8 (tableAddr s.idtr.base (v * 8)) = .ok raw ∧ g = gate8 raw) ∧
    (g.kind = .interrupt ∨ g.kind = .trap) ∧ s.cpl.toNat ≤ g.dpl.toNat ∧ g.present = true

/-- The IDT entry of a vector with LMA = 1 is a present 64-bit interrupt or trap gate, at canonical addresses, that the
current level may use (R147, R148). -/
abbrev LongGate (s : State) (v : Nat) (g : Gate) : Prop :=
  s.lma = true ∧ v * 16 + 15 ≤ s.idtr.limit.toNat ∧
    allCanonical Config.vaBits 16 (tableAddr s.idtr.base (v * 16)) = true ∧
    (∃ raw, memRead s 16 (tableAddr s.idtr.base (v * 16)) = .ok raw ∧ g = gate16 raw) ∧
    (g.kind = .interrupt ∨ g.kind = .trap) ∧ s.cpl.toNat ≤ g.dpl.toNat ∧ g.present = true

/-- The gate's selector names a present code segment of no lower privilege, in IA-32e mode one of 64-bit code
(R161 to R164, R168). -/
abbrev HandlerCode (s : State) (g : Gate) (d : SegDesc) : Prop :=
  selNull g.sel = false ∧ inTable s g.sel = true ∧
    (s.lma = true → allCanonical Config.vaBits 8 (descAddr s g.sel) = true) ∧ readDesc s g.sel = .ok d ∧
    d.isCode = true ∧ d.dpl.toNat ≤ s.cpl.toNat ∧ (s.lma = true → d.l = true ∧ d.db = false) ∧ d.present = true

/-- The current 32- or 16-bit TSS holds this stack for level `n`, within the limit tests (R42, R181, R182). -/
abbrev TssStack (s : State) (n : Nat) (sp : Word32) (sel : Word16) : Prop :=
  (s.tr.kind = .tss32 ∧ n * 8 + 11 ≤ s.tr.limit.toNat ∧
      memRead s 4 (tableAddr s.tr.base (n * 8 + 4)) = .ok sp.toNat ∧
      memRead s 2 (tableAddr s.tr.base (n * 8 + 8)) = .ok sel.toNat) ∨
    (s.tr.kind = .tss16 ∧ n * 4 + 6 ≤ s.tr.limit.toNat ∧
      memRead s 2 (tableAddr s.tr.base (n * 4 + 2)) = .ok sp.toNat ∧
      memRead s 2 (tableAddr s.tr.base (n * 4 + 4)) = .ok sel.toNat)

/-- The current 64-bit TSS holds this stack pointer at an offset, within its limit and at canonical addresses (R149). -/
abbrev Tss64Stack (s : State) (off : Nat) (sp : Word64) : Prop :=
  off + 7 ≤ s.tr.limit.toNat ∧ allCanonical Config.vaBits 8 (tableAddr s.tr.base off) = true ∧
    memRead s 8 (tableAddr s.tr.base off) = .ok sp.toNat

/-- The read of that stack pointer or stack selector page-faults with code `c` (R52, R181, R182). -/
abbrev TssStackPageFaults (s : State) (n : Nat) (c : Word16) : Prop :=
  let pf : Res Nat := .error (.fault (.pf c))
  (s.tr.kind = .tss32 ∧ n * 8 + 11 ≤ s.tr.limit.toNat ∧
      (memRead s 4 (tableAddr s.tr.base (n * 8 + 4)) = pf ∨
        (∃ sp, memRead s 4 (tableAddr s.tr.base (n * 8 + 4)) = .ok sp) ∧
          memRead s 2 (tableAddr s.tr.base (n * 8 + 8)) = pf)) ∨
    (s.tr.kind = .tss16 ∧ n * 4 + 6 ≤ s.tr.limit.toNat ∧
      (memRead s 2 (tableAddr s.tr.base (n * 4 + 2)) = pf ∨
        (∃ sp, memRead s 2 (tableAddr s.tr.base (n * 4 + 2)) = .ok sp) ∧
          memRead s 2 (tableAddr s.tr.base (n * 4 + 4)) = pf))

/-- The read of the 64-bit TSS field at an offset page-faults with code `c` (R52, R149). -/
abbrev Tss64PageFaults (s : State) (off : Nat) (c : Word16) : Prop :=
  off + 7 ≤ s.tr.limit.toNat ∧ allCanonical Config.vaBits 8 (tableAddr s.tr.base off) = true ∧
    memRead s 8 (tableAddr s.tr.base off) = .error (.fault (.pf c))

/-- A selector names a present writable data segment of level `n`, with RPL `n` (R184, R185). -/
abbrev StackSegment (s : State) (n : BitVec 2) (sel : Word16) (d : SegDesc) : Prop :=
  selNull sel = false ∧ inTable s sel = true ∧ selRpl sel = n ∧ readDesc s sel = .ok d ∧ d.dpl = n ∧
    d.isWritableData = true ∧ d.present = true

/-- The IST field is 0, or names a stack pointer that can be read (R149). -/
abbrev IstReadable (s : State) (g : Gate) : Prop := g.ist = 0 ∨ ∃ sp, Tss64Stack s (g.ist * 8 + 28) sp

/-- The delivery has a gate: every check up to TRAP-OR-INTERRUPT-GATE has passed (R140, R146). -/
abbrev GateChosen (i : Instr) (s : State) (g : Gate) : Prop :=
  ReachesGate i s ∧ (LegacyGate s (vectorOf i) g ∨ (LongGate s (vectorOf i) g ∧ IstReadable s g))

/-- A task gate that passes every check of R141 to R143 and of R151 to R153. -/
abbrev TaskGatePasses (s : State) (v : Nat) : Prop :=
  s.pe = true ∧ s.lma = false ∧ v * 8 + 7 ≤ s.idtr.limit.toNat ∧
    ∃ raw td, memRead s 8 (tableAddr s.idtr.base (v * 8)) = .ok raw ∧
      (gate8 raw).kind = .task ∧ s.cpl.toNat ≤ (gate8 raw).dpl.toNat ∧ (gate8 raw).present = true ∧
      selNull (gate8 raw).sel = false ∧ selLocal (gate8 raw).sel = false ∧
      selOffset (gate8 raw).sel + 7 ≤ s.gdtr.limit.toNat ∧ readDesc s (gate8 raw).sel = .ok td ∧
      td.isAvailableTss = true ∧ td.present = true

/-- The handler runs at the current level, outside virtual-8086 mode (R165). -/
abbrev SameLevel (s : State) (d : SegDesc) : Prop :=
  flagVM s.eflags = false ∧ (d.isConforming = true ∨ d.dpl = s.cpl)

/-- The handler runs at a more privileged level, outside virtual-8086 mode (R165). -/
abbrev HigherLevel (s : State) (d : SegDesc) : Prop :=
  flagVM s.eflags = false ∧ d.isConforming = false ∧ d.dpl.toNat < s.cpl.toNat

/-- The handler is the one that virtual-8086 code can reach: non-conforming, level 0 (R166). -/
abbrev Level0FromV86 (s : State) (d : SegDesc) : Prop :=
  flagVM s.eflags = true ∧ d.isConforming = false ∧ d.dpl = 0#2

/-- The room that a 16- or 32-bit frame has where the checks before it pass (R61): in real-address mode on R61's stack; at
the same level on the current stack; else on the stack that the TSS gives. -/
abbrev RoomIs (s : State) (v : Nat) (room : Room) : Prop :=
  (s.pe = false ∧ stackRoom realModeStack .w16 (stackPtr s .w16) 6 = room) ∨
    (s.pe = true ∧ ∃ g d, LegacyGate s v g ∧ HandlerCode s g d ∧
      ((SameLevel s d ∧
          stackRoom s.ss.hidden (stackWidthOf s.ss.hidden) (stackPtr s (stackWidthOf s.ss.hidden)) (3 * g.size.bytes)
            = room) ∨
        ((HigherLevel s d ∨ Level0FromV86 s d) ∧ ∃ sp sel sd, TssStack s d.dpl.toNat sp sel ∧
          StackSegment s d.dpl sel sd ∧
          stackRoom sd.hidden (stackWidthOf sd.hidden) (sp.toNat % (stackWidthOf sd.hidden).modulus)
            ((if flagVM s.eflags then 9 else 5) * g.size.bytes) = room)))

/-- The stack pointer that a 64-bit delivery starts from (R149, R183, R223). -/
abbrev LongStack (s : State) (g : Gate) (d : SegDesc) (top : Word64) : Prop :=
  (g.ist ≠ 0 ∧ Tss64Stack s (g.ist * 8 + 28) top) ∨
    (g.ist = 0 ∧ HigherLevel s d ∧ Tss64Stack s (d.dpl.toNat * 8 + 4) top) ∨
    (g.ist = 0 ∧ SameLevel s d ∧ top = rsp s)

/-- The 40 bytes below a stack pointer are canonical, and below it with its low four bits cleared: for both values of
`ALIGN_RSP_16` (R187, D19). -/
abbrev CanonicalFrame (top : Word64) : Prop :=
  allCanonical Config.vaBits 40 (top - 40#64) = true ∧
    allCanonical Config.vaBits 40 ((top &&& 0xFFFFFFFFFFFFFFF0#64) - 40#64) = true

/-! ## The invariant of the machine -/

/-- The invariants of R49; memory in its canonical form; and CS.RPL = CPL in protected and IA-32e mode (R28). -/
abbrev Inv (s : State) : Prop :=
  lawful s = true ∧ Memory.wf s.mem = true ∧
    (s.pe = true → flagVM s.eflags = false → selRpl s.cs.sel = s.cpl)

/-! ## Comparing outcomes -/

/-- Two outcomes agree: the same fault, the same refusal, or two next states that `R` relates. -/
def Agree (R : State → State → Prop) :
    Host.Outcome State Fault Refusal → Host.Outcome State Fault Refusal → Prop
  | .next s, .next t => R s t
  | .fault f, .fault g => f = g
  | .refused a, .refused b => a = b
  | _, _ => False

/-- Equal but for memory and EFLAGS. -/
def SameButMemoryAndFlags (s t : State) : Prop := { t with mem := s.mem, eflags := s.eflags } = s

/-! ## Safe steps -/

/-- The step completes: no fault and no refusal. -/
def SafeStep (s : State) : Prop := ∃ t, step s = .next t

end Sys2Proof.Machine
end

