-- ==== Sys2Proof/Certificates/Slice0/Obligations.lean ====
section
/-! DEFINITION. The statements for the provers. Each docstring names the rules of spec/ that the statement rests on, and
the log entries where it rests on a choice of the model. -/

open Sys2Proof Sys2Proof.Machine

/-! ## Encoding and decoding -/

/-- Decode and encode agree (R80, R82, R88, R90): the bytes of a well-formed instruction, whatever follows them, decode to
it, in and outside 64-bit mode. -/
def Obligations.DecodeOfEncodeIsTheInstruction : Prop :=
  ∀ (m64 : Bool) (i : Instr) (rest : List Byte), i.wellFormed = true → decode m64 (encode i ++ rest) = .instr i

/-- The bytes that decode to an instruction are exactly these (R80, R88, R89, R101): a run of prefix bytes, the opcode
with its immediate, anything; with a LOCK in the run exactly for the LOCK form, and another prefix only beside a LOCK or
before CEH in 64-bit mode, the two forms that raise #UD. The prefix byte values are the model's (logs 9, 10). -/
def Obligations.DecodedBytesAreExactlyTheForms : Prop :=
  ∀ (m64 : Bool) (bs : List Byte) (i : Instr),
    decode m64 bs = .instr i ↔
      i.wellFormed = true ∧ ∃ run rest : List Byte,
        bs = run ++ (opcodeBytes i ++ rest) ∧
        (∀ b ∈ run, isLockByte b = true ∨ isOtherPrefixByte m64 b = true) ∧
        i.lock = run.any isLockByte ∧
        ((∃ b ∈ run, isLockByte b = false) → i.lock = true ∨ (m64 = true ∧ i = .into false))

/-- One of the three opcodes behind prefixes other than LOCK is refused by the decoder (R89), but for CEH in 64-bit mode,
which is INTO still, so that the step raises #UD before that refusal (R101, R87). The prefix byte values are the model's
(log 10). -/
def Obligations.OtherPrefixesAreRefused : Prop :=
  (∀ (m64 : Bool) (i : Instr) (run rest : List Byte),
    i.wellFormed = true → run ≠ [] → (∀ b ∈ run, isLockByte b = false ∧ isOtherPrefixByte m64 b = true) →
    decode m64 (run ++ (opcodeBytes i ++ rest))
      = if m64 = true ∧ sourceOf i = .into then .instr (.into false) else .otherPrefix) ∧
  ∀ (s : State) (run : List Byte),
    run ≠ [] → run.length < fetchLimit → lawful s = true → inMode64 s = true →
    (∀ b ∈ run, isLockByte b = false ∧ isOtherPrefixByte true b = true) →
    (∀ j b, (run ++ [0xCE#8])[j]? = some b → fetchByte Config.vaBits s j = .ok b) →
    step s = .fault .ud

/-- Words written out from the encoding table decode to the instructions they stand for (R80, R83, R85, R88). -/
def Obligations.WrittenOutWordsDecode : Prop :=
  decode false [0xCC#8] = .instr (.int3 false) ∧ decode true [0xCC#8] = .instr (.int3 false) ∧
  decode false [0xCD#8, 0x21#8] = .instr (.intImm8 false 0x21) ∧
  decode false [0xCD#8, 0x03#8] = .instr (.intImm8 false 3) ∧
  decode true [0xCD#8, 0xFF#8] = .instr (.intImm8 false 255) ∧
  decode false [0xCE#8] = .instr (.into false) ∧
  decode false [0xF0#8, 0xCD#8, 0x80#8] = .instr (.intImm8 true 128)

/-- The opcode map, at the step (R83): the first byte CCH, CDH or CEH, with no prefix before it, selects the instruction;
any other first byte that is no prefix is refused. -/
def Obligations.FirstByteSelectsTheInstruction : Prop :=
  ∀ (s : State) (b : Byte), fetchByte Config.vaBits s 0 = .ok b →
    (b = 0xCC#8 → step s = exec (.int3 false) s) ∧
    (b = 0xCE#8 → step s = exec (.into false) s) ∧
    (b = 0xCD#8 → ∀ ib : Byte, fetchByte Config.vaBits s 1 = .ok ib → step s = exec (.intImm8 false ib.toNat) s) ∧
    (b ≠ 0xCC#8 → b ≠ 0xCD#8 → b ≠ 0xCE#8 → isLockByte b = false → isOtherPrefixByte (inMode64 s) b = false →
      step s = .refused .notInScope)

/-! ## The step -/

/-- A step runs the decoded instruction (R11, R81): when the bytes at the instruction pointer can be fetched and decode to
a well-formed instruction, the step is that instruction's meaning, with nothing added. -/
def Obligations.StepRunsTheDecodedInstruction : Prop :=
  ∀ (s : State) (bs : List Byte) (i : Instr),
    bs.length ≤ fetchLimit → (∀ j b, bs[j]? = some b → fetchByte Config.vaBits s j = .ok b) →
    decode (inMode64 s) bs = .instr i → i.wellFormed = true → step s = exec i s

/-- Where the bytes do not give an instruction the step says why (R81, R83, R89, R243): the refusal of a prefix, or of an
opcode that is not of this spec, by the decoder's name; a refusal where the next byte cannot be fetched; a page fault where
its translation faults. The limit of 15 bytes is the model's (log 10), and so is the order of the last two, a refusal wherever
the byte cannot be fetched (log 29). -/
def Obligations.StepStopsWhereNothingDecodes : Prop :=
  ∀ (s : State) (bs : List Byte),
    (∀ j b, bs[j]? = some b → fetchByte Config.vaBits s j = .ok b) →
    (bs.length ≤ fetchLimit → decode (inMode64 s) bs = .otherPrefix → step s = .refused .otherPrefix) ∧
    (bs.length ≤ fetchLimit → decode (inMode64 s) bs = .notInScope → step s = .refused .notInScope) ∧
    (bs.length < fetchLimit → decode (inMode64 s) bs = .more → fetchable Config.vaBits s bs.length = false →
      step s = .refused .unfetchable) ∧
    (∀ c, bs.length < fetchLimit → decode (inMode64 s) bs = .more → fetchable Config.vaBits s bs.length = true →
      translateAddr s (linear s (fetchAddr s bs.length)) .fetch (cplPriv s) = .pageFault c → step s = .fault (.pf c))

/-! ## The checks before an instruction's own rule -/

/-- LOCK raises #UD, for each of the three instructions, before anything else (R88). -/
def Obligations.LockRaisesInvalidOpcode : Prop :=
  ∀ (i : Instr) (s : State), lawful s = true → i.lock = true → exec i s = .fault .ud

/-- INTO raises #UD in 64-bit mode and in no other mode (R87, R84). -/
def Obligations.IntoInvalidExactlyIn64BitMode : Prop :=
  ∀ s : State, lawful s = true → (exec (.into false) s = .fault .ud ↔ opMode s = .mode64)

/-- #UD is raised for exactly these two reasons (R246 rows 1 and 2). -/
def Obligations.InvalidOpcodeHasTwoCauses : Prop :=
  ∀ (i : Instr) (s : State), lawful s = true →
    (exec i s = .fault .ud ↔ i.lock = true ∨ (sourceOf i = .into ∧ opMode s = .mode64))

/-- A state that breaks an invariant of R49 is refused, by all three instructions, and no other state is refused so
(R243). That this check comes first is the model's choice (log 15). -/
def Obligations.BrokenInvariantIsRefused : Prop :=
  ∀ (i : Instr) (s : State), exec i s = .refused .brokenInvariant ↔ lawful s = false

/-- INTO with OF = 0 only moves the instruction pointer past itself, outside 64-bit mode (R104, R23). RIP[63:32] stays
(log 12). -/
def Obligations.IntoWithoutOverflowOnlyAdvances : Prop :=
  ∀ s : State, lawful s = true → opMode s ≠ .mode64 → flagOF s.eflags = false → (eip s).toNat + 1 < 2 ^ 32 →
    exec (.into false) s = .next { s with rip := writeEip s.rip (eip s + 1#32) }

/-! ## Real-address mode -/

/-- Real-address-mode delivery of all three instructions (R130, R133, R134): three words pushed on the current stack, IF,
TF and AC cleared, control at the far pointer of the vector table, all else as it was. RIP[63:32] stays (log 12); the
stack segment of the room test is R61's (log 16); CS keeps every hidden field but base and limit (log 17). -/
def Obligations.RealModeDelivery : Prop :=
  ∀ (i : Instr) (s : State) (entry : Nat),
    Delivers i s → s.pe = false → ReturnFits i s → vectorOf i * 4 + 3 ≤ s.idtr.limit.toNat →
    (stackPtr s .w16 = 0 ∨ 6 ≤ stackPtr s .w16) →
    memRead s 4 (tableAddr s.idtr.base (vectorOf i * 4)) = .ok entry →
    let place : PushPlace :=
      { base := s.ss.hidden.base.setWidth 64, width := .w16, size := .g16, priv := cplPriv s }
    ∃ t, exec i s = .next t ∧
      Arrives s t
        { sel := BitVec.ofNat 16 (entry / 2 ^ 16)
          hidden := { s.cs.hidden with base := BitVec.ofNat 32 (entry / 2 ^ 16 * 16), limit := 0xFFFF#32 } }
        (writeEip s.rip (BitVec.ofNat 32 (entry % 2 ^ 16))) s.cpl (s.eflags &&& ~~~0x00040300#32) ∧
      SameDataSegments s t ∧ t.ss = s.ss ∧ t.rspLo.extractLsb' 16 16 = s.rspLo.extractLsb' 16 16 ∧
      FramePushed s t place 3 (stackPtr s .w16) ∧
      returnImage t place .plain
        = .ok ⟨returnIp i s % 2 ^ 16, s.cs.sel.toNat, s.eflags.toNat % 2 ^ 16, none, []⟩

/-- The vector-table limit (R131): the last byte of the entry must be at or below IDTR.limit, else #GP with no error code;
with a limit of at least 3FFH every vector passes. -/
def Obligations.RealModeVectorMustBeWithinTheLimit : Prop :=
  ∀ (i : Instr) (s : State), i.wellFormed = true → Delivers i s → s.pe = false →
    (s.idtr.limit.toNat < vectorOf i * 4 + 3 → exec i s = .fault (.gp none)) ∧
    (vectorOf i * 4 + 3 ≤ s.idtr.limit.toNat → exec i s ≠ .fault (.gp none)) ∧
    (0x3FF ≤ s.idtr.limit.toNat → vectorOf i * 4 + 3 ≤ s.idtr.limit.toNat)

/-- SP from 1 to 5 is refused: the page does not say whether the three pushes may wrap (R132, R61). -/
def Obligations.RealModeWrappingFrameIsRefused : Prop :=
  ∀ (i : Instr) (s : State), Delivers i s → s.pe = false → vectorOf i * 4 + 3 ≤ s.idtr.limit.toNat →
    1 ≤ stackPtr s .w16 → stackPtr s .w16 ≤ 5 → exec i s = .refused .stackWrap

/-- The faults of real-address mode (R136): #UD, and #GP without a code. Its #SS never happens, because R61's real-mode
stack segment never answers no (log 16). -/
def Obligations.RealModeFaultsAreTheListed : Prop :=
  ∀ (i : Instr) (s : State) (f : Fault), s.pe = false → exec i s = .fault f → f = .ud ∨ f = .gp none

/-- Real-address-mode delivery reads no GDTR, LDTR or TR, no VME, and no translation (R135, R57): with those changed the
outcome is the same, but for the changed registers themselves. Of TR the kind alone stays: the check of R49 reads it. -/
def Obligations.RealModeReadsNoTables : Prop :=
  ∀ (i : Instr) (s : State) (g : TableReg) (l : LdtReg) (q : Word16) (b : Word64) (m : Word32) (v : Bool)
    (x : List XlatEntry),
    s.pe = false →
    Agree (fun t u => { u with gdtr := t.gdtr, ldtr := t.ldtr, tr := t.tr, vme := t.vme, xlat := t.xlat } = t)
      (exec i s)
      (exec i { s with gdtr := g, ldtr := l, tr := { s.tr with sel := q, base := b, limit := m }, vme := v, xlat := x })

/-! ## The dispatch -/

/-- INT imm8 in virtual-8086 mode with IOPL below 3 raises #GP(0) before any table is read (R105, R106). -/
def Obligations.Virtual8086IoplFault : Prop :=
  ∀ (ib : Nat) (s : State), lawful s = true → s.pe = true → flagVM s.eflags = true → s.vme = false →
    (flagIOPL s.eflags).toNat < 3 → exec (.intImm8 false ib) s = .fault (.gp (some 0#16))

/-- INTO in virtual-8086 mode with IOPL below 3 (R107): #GP(0) where the open parameter says so, else what it does with
IOPL = 3. Stated for both values of the parameter. -/
def Obligations.Virtual8086IntoFollowsTheParameter : Prop :=
  ∀ (s : State) (e : Word32), lawful s = true → s.pe = true → flagVM s.eflags = true → s.vme = false →
    flagOF s.eflags = true → (flagIOPL s.eflags).toNat < 3 →
    flagVM e = true → flagOF e = true → flagIOPL e = 3#2 →
    if Config.v86IntoIoplSensitive = true then exec (.into false) s = .fault (.gp (some 0#16))
    else Agree SameButMemoryAndFlags (exec (.into false) s) (exec (.into false) { s with eflags := e })

/-- INT imm8, and INTO with OF = 1, have no meaning when VM = 1 and VME = 1, whatever IOPL is (R108). -/
def Obligations.VmeRedirectionIsRefused : Prop :=
  ∀ (i : Instr) (s : State), Delivers i s → sourceOf i ≠ .int3 → s.pe = true → flagVM s.eflags = true → s.vme = true →
    exec i s = .refused .vmeRedirection

/-- INT 3 reads neither VME nor IOPL (R102, R106, R108): no redirection, and taken at any IOPL. -/
def Obligations.Int3IgnoresVmeAndIopl : Prop :=
  ∀ (l : Bool) (s : State) (v : Bool) (e : Word32), flagVM e = flagVM s.eflags →
    Agree (fun t u => SameButMemoryAndFlags t { u with vme := t.vme })
      (exec (.int3 l) s) (exec (.int3 l) { s with vme := v, eflags := e })

/-- Of EFLAGS the three instructions read VM, IOPL in virtual-8086 mode, and OF for INTO; no other bit, IF included,
decides anything (R26, R250, R257). -/
def Obligations.OnlyVmIoplAndOfAreRead : Prop :=
  ∀ (i : Instr) (s : State) (e : Word32),
    flagVM e = flagVM s.eflags → (sourceOf i = .into → flagOF e = flagOF s.eflags) →
    (flagVM s.eflags = true → flagIOPL e = flagIOPL s.eflags) →
    Agree SameButMemoryAndFlags (exec i s) (exec i { s with eflags := e })

/-! ## Gate selection -/

/-- The checks of a protected-mode IDT entry, in order (R141, R142, R143): the limit, the gate's type, the software
privilege check, the present bit, each with the code vector * 8 + 2. -/
def Obligations.ProtectedModeGateFaults : Prop :=
  ∀ (i : Instr) (s : State), ReachesGate i s → s.lma = false →
    let v := vectorOf i
    let code : Word16 := BitVec.ofNat 16 (v * 8 + 2)
    (s.idtr.limit.toNat < v * 8 + 7 → exec i s = .fault (.gp (some code))) ∧
    ∀ raw, v * 8 + 7 ≤ s.idtr.limit.toNat → memRead s 8 (tableAddr s.idtr.base (v * 8)) = .ok raw →
      ((gate8 raw).kind = .other → exec i s = .fault (.gp (some code))) ∧
      ((gate8 raw).kind ≠ .other → (gate8 raw).dpl.toNat < s.cpl.toNat → exec i s = .fault (.gp (some code))) ∧
      ((gate8 raw).kind ≠ .other → s.cpl.toNat ≤ (gate8 raw).dpl.toNat → (gate8 raw).present = false →
        exec i s = .fault (.np code))

/-- The checks of an IA-32e-mode IDT entry, in order (R147, R148, R146): the limit, canonical addresses, the gate's type,
the software privilege check, the present bit, each with the code vector * IDT_ERRCODE_SCALE_64 + 2 (log 8). -/
def Obligations.LongModeGateFaults : Prop :=
  ∀ (i : Instr) (s : State), ReachesGate i s → s.lma = true →
    let v := vectorOf i
    let code : Word16 := BitVec.ofNat 16 (v * Config.errScale64 + 2)
    let a := tableAddr s.idtr.base (v * 16)
    (s.idtr.limit.toNat < v * 16 + 15 → exec i s = .fault (.gp (some code))) ∧
    (v * 16 + 15 ≤ s.idtr.limit.toNat → allCanonical Config.vaBits 16 a = false →
      exec i s = .fault (.gp (some code))) ∧
    ∀ raw, v * 16 + 15 ≤ s.idtr.limit.toNat → allCanonical Config.vaBits 16 a = true → memRead s 16 a = .ok raw →
      ((gate16 raw).kind = .other → exec i s = .fault (.gp (some code))) ∧
      ((gate16 raw).kind ≠ .other → (gate16 raw).dpl.toNat < s.cpl.toNat → exec i s = .fault (.gp (some code))) ∧
      ((gate16 raw).kind ≠ .other → s.cpl.toNat ≤ (gate16 raw).dpl.toNat → (gate16 raw).present = false →
        exec i s = .fault (.np code))

/-- A stack pointer field of the 64-bit TSS that lies beyond the TSS limit or at a non-canonical address raises #TS with
the current TSS selector: ISTx of the gate, or RSPn of the new level (R149, R183). The rules disagree on whether the IST
read comes before the checks of the handler's segment or after them, which is open (log 27): where it is not read first,
the statement asks that those checks pass. It holds of every transfer that follows, the one from virtual-8086 mode with
LMA = 1 among them (log 13). -/
def Obligations.LongModeTssFaults : Prop :=
  ∀ (i : Instr) (s : State) (g : Gate), ReachesGate i s → LongGate s (vectorOf i) g →
    let bad := fun off : Nat => s.tr.limit.toNat < off + 7 ∨
      allCanonical Config.vaBits 8 (tableAddr s.tr.base off) = false
    (g.ist ≠ 0 → bad (g.ist * 8 + 28) →
      (Config.istReadFirst = true ∨ ∃ d, HandlerCode s g d ∧ (SameLevel s d ∨ HigherLevel s d ∨ Level0FromV86 s d)) →
      exec i s = .fault (.ts (s.tr.sel &&& 0xFFFC#16))) ∧
    ∀ d, g.ist = 0 → HandlerCode s g d → HigherLevel s d → bad (d.dpl.toNat * 8 + 4) →
      exec i s = .fault (.ts (s.tr.sel &&& 0xFFFC#16))

/-- A task gate ends in the checks of its TSS selector and descriptor, and where all pass in the refusal of the task
switch (R150 to R153, R157). -/
def Obligations.TaskGateIsCheckedThenRefused : Prop :=
  ∀ (i : Instr) (s : State) (raw : Nat), ReachesGate i s → s.lma = false → vectorOf i * 8 + 7 ≤ s.idtr.limit.toNat →
    memRead s 8 (tableAddr s.idtr.base (vectorOf i * 8)) = .ok raw → (gate8 raw).kind = .task →
    s.cpl.toNat ≤ (gate8 raw).dpl.toNat → (gate8 raw).present = true →
    let sel := (gate8 raw).sel
    let code := sel &&& 0xFFFC#16
    (selNull sel = true → exec i s = .fault (.gp (some 0#16))) ∧
    (selNull sel = false → (selLocal sel = true ∨ s.gdtr.limit.toNat < selOffset sel + 7) →
      exec i s = .fault (.gp (some code))) ∧
    ∀ td, selNull sel = false → selLocal sel = false → selOffset sel + 7 ≤ s.gdtr.limit.toNat →
      readDesc s sel = .ok td →
      (td.isAvailableTss = false → exec i s = .fault (.gp (some code))) ∧
      (td.isAvailableTss = true → td.present = false → exec i s = .fault (.np code)) ∧
      (td.isAvailableTss = true → td.present = true → exec i s = .refused .taskSwitch)

/-- The checks of the handler's code segment, in order (R161 to R164, R168): a NULL selector, a selector outside its
table, in IA-32e mode a non-canonical descriptor, no code segment or a less privileged one, in IA-32e mode no 64-bit
code, not present. -/
def Obligations.HandlerSegmentFaults : Prop :=
  ∀ (i : Instr) (s : State) (g : Gate), GateChosen i s g →
    let code := g.sel &&& 0xFFFC#16
    (selNull g.sel = true → exec i s = .fault (.gp (some 0#16))) ∧
    (selNull g.sel = false → inTable s g.sel = false → exec i s = .fault (.gp (some code))) ∧
    (selNull g.sel = false → inTable s g.sel = true → s.lma = true →
      allCanonical Config.vaBits 8 (descAddr s g.sel) = false → exec i s = .fault (.gp (some code))) ∧
    ∀ d, selNull g.sel = false → inTable s g.sel = true →
      (s.lma = true → allCanonical Config.vaBits 8 (descAddr s g.sel) = true) → readDesc s g.sel = .ok d →
      (d.isCode = false ∨ s.cpl.toNat < d.dpl.toNat → exec i s = .fault (.gp (some code))) ∧
      (d.isCode = true → d.dpl.toNat ≤ s.cpl.toNat → s.lma = true → (d.l = false ∨ d.db = true) →
        exec i s = .fault (.gp (some code))) ∧
      (d.isCode = true → d.dpl.toNat ≤ s.cpl.toNat → (s.lma = true → d.l = true ∧ d.db = false) → d.present = false →
        exec i s = .fault (.np code))

/-- From virtual-8086 mode a target other than a non-conforming code segment of level 0 raises #GP with its selector
(R166, R167). -/
def Obligations.Virtual8086TargetFault : Prop :=
  ∀ (i : Instr) (s : State) (g : Gate) (d : SegDesc), GateChosen i s g → HandlerCode s g d →
    flagVM s.eflags = true → (d.isConforming = true ∨ d.dpl ≠ 0#2) →
    exec i s = .fault (.gp (some (g.sel &&& 0xFFFC#16)))

/-! ## The stack switch and the last checks -/

/-- The checks of a new stack with LMA = 0, in order (R181, R182, R184, R185, R201, R202): the TSS limit, a NULL
selector, its table and RPL, its level and type, its present bit. -/
def Obligations.NewStackFaults : Prop :=
  ∀ (i : Instr) (s : State) (g : Gate) (d : SegDesc), GateChosen i s g → s.lma = false → HandlerCode s g d →
    (HigherLevel s d ∨ Level0FromV86 s d) →
    (s.tr.kind = .tss32 → s.tr.limit.toNat < d.dpl.toNat * 8 + 11 →
      exec i s = .fault (.ts (s.tr.sel &&& 0xFFFC#16))) ∧
    (s.tr.kind = .tss16 → s.tr.limit.toNat < d.dpl.toNat * 4 + 6 →
      exec i s = .fault (.ts (s.tr.sel &&& 0xFFFC#16))) ∧
    ∀ sp sel, TssStack s d.dpl.toNat sp sel →
      (selNull sel = true → exec i s = .fault (.ts 0#16)) ∧
      (selNull sel = false → (inTable s sel = false ∨ selRpl sel ≠ d.dpl) →
        exec i s = .fault (.ts (sel &&& 0xFFFC#16))) ∧
      ∀ sd, selNull sel = false → inTable s sel = true → selRpl sel = d.dpl → readDesc s sel = .ok sd →
        ((sd.dpl ≠ d.dpl ∨ sd.isWritableData = false) → exec i s = .fault (.ts (sel &&& 0xFFFC#16))) ∧
        (sd.dpl = d.dpl → sd.isWritableData = true → sd.present = false →
          exec i s = .fault (.ss (some (sel &&& 0xFFFC#16))))

/-- A new stack without room for the five values (nine from virtual-8086 mode) raises #SS with its selector, a frame that
would wrap is refused, and where there is room a handler offset beyond the code-segment limit raises #GP(0) (R186, R188,
R203, R204, R61). -/
def Obligations.NewStackNeedsRoom : Prop :=
  ∀ (i : Instr) (s : State) (g : Gate) (d : SegDesc) (sp : Word32) (sel : Word16) (sd : SegDesc),
    GateChosen i s g → s.lma = false → HandlerCode s g d → (HigherLevel s d ∨ Level0FromV86 s d) →
    TssStack s d.dpl.toNat sp sel → StackSegment s d.dpl sel sd →
    let w := stackWidthOf sd.hidden
    let room := stackRoom sd.hidden w (sp.toNat % w.modulus) ((if flagVM s.eflags then 9 else 5) * g.size.bytes)
    (room = .no → exec i s = .fault (.ss (some (sel &&& 0xFFFC#16)))) ∧
    (room = .ambiguous → exec i s = .refused .stackWrap) ∧
    (room = .yes → d.effLimit.toNat < g.off.toNat → exec i s = .fault (.gp (some 0#16)))

/-- A current stack without room for the three values raises #SS(0), a frame that would wrap is refused, and a handler
offset beyond the code-segment limit raises #GP(0) after that (R221, R224, R61). -/
def Obligations.CurrentStackNeedsRoom : Prop :=
  ∀ (i : Instr) (s : State) (g : Gate) (d : SegDesc),
    GateChosen i s g → s.lma = false → HandlerCode s g d → SameLevel s d →
    let w := stackWidthOf s.ss.hidden
    let room := stackRoom s.ss.hidden w (stackPtr s w) (3 * g.size.bytes)
    (room = .no → exec i s = .fault (.ss (some 0#16))) ∧
    (room = .ambiguous → exec i s = .refused .stackWrap) ∧
    (room = .yes → d.effLimit.toNat < g.off.toNat → exec i s = .fault (.gp (some 0#16)))

/-- A 64-bit frame that touches a non-canonical address, aligned or not, raises #SS(0), and a non-canonical handler
offset raises #GP(0) after that (R186, R188, R222, R224), for both values of ALIGN_RSP_16 (log 7). A frame that wraps 2^64
counts as canonical when its bytes are, which is the model's choice (log 28). -/
def Obligations.LongModeStackAndOffsetFaults : Prop :=
  ∀ (i : Instr) (s : State) (g : Gate) (d : SegDesc) (top : Word64),
    ReachesGate i s → LongGate s (vectorOf i) g → HandlerCode s g d → (SameLevel s d ∨ HigherLevel s d) →
    LongStack s g d top →
    (allCanonical Config.vaBits 40 (top - 40#64) = false →
      allCanonical Config.vaBits 40 ((top &&& 0xFFFFFFFFFFFFFFF0#64) - 40#64) = false →
      exec i s = .fault (.ss (some 0#16))) ∧
    (CanonicalFrame top → canonical Config.vaBits g.off = false → exec i s = .fault (.gp (some 0#16)))

/-! ## The transfers -/

/-- Delivery without a change of level through a 16- or 32-bit gate (R220, R221, R224 to R227): three values on the
current stack, control at the gate's offset, CS with RPL = CPL, TF, NT, RF and VM cleared, IF too by an interrupt gate,
all else as it was. RIP[63:32] stays (log 12). -/
def Obligations.IntraPrivilegeDelivery : Prop :=
  ∀ (i : Instr) (s : State) (g : Gate) (d : SegDesc),
    GateChosen i s g → s.lma = false → HandlerCode s g d → SameLevel s d → Unmapped s → ReturnFits i s →
    let w := stackWidthOf s.ss.hidden
    let place : PushPlace :=
      { base := s.ss.hidden.base.setWidth 64, width := w, size := g.size, priv := cplPriv s }
    stackRoom s.ss.hidden w (stackPtr s w) (3 * g.size.bytes) = .yes → g.off.toNat ≤ d.effLimit.toNat →
    ∃ t, exec i s = .next t ∧
      Arrives s t { sel := withRpl g.sel s.cpl, hidden := d.hidden } (writeEip s.rip (g.off.setWidth 32)) s.cpl
        (s.eflags &&& ~~~(if g.kind = .interrupt then 0x00034300#32 else 0x00034100#32)) ∧
      SameDataSegments s t ∧ t.ss = s.ss ∧
      (w = .w16 → t.rspLo.extractLsb' 16 16 = s.rspLo.extractLsb' 16 16) ∧
      FramePushed s t place 3 (stackPtr s w) ∧
      returnImage t place .plain
        = .ok ⟨returnIp i s % 256 ^ g.size.bytes, s.cs.sel.toNat, s.eflags.toNat % 256 ^ g.size.bytes, none, []⟩

/-- Delivery to a more privileged level through a 16- or 32-bit gate (R180, R181, R182, R188 to R190): five values on the
stack that the TSS gives for the new level, SS, CS, CPL and the flags as the rule says, all else as it was. RIP[63:32]
stays (log 12). -/
def Obligations.InterPrivilegeDelivery : Prop :=
  ∀ (i : Instr) (s : State) (g : Gate) (d : SegDesc) (sp : Word32) (sel : Word16) (sd : SegDesc),
    GateChosen i s g → s.lma = false → HandlerCode s g d → HigherLevel s d → Unmapped s → ReturnFits i s →
    TssStack s d.dpl.toNat sp sel → StackSegment s d.dpl sel sd →
    let w := stackWidthOf sd.hidden
    let place : PushPlace := { base := sd.base.setWidth 64, width := w, size := g.size, priv := .supervisor }
    stackRoom sd.hidden w (sp.toNat % w.modulus) (5 * g.size.bytes) = .yes → g.off.toNat ≤ d.effLimit.toNat →
    ∃ t, exec i s = .next t ∧
      Arrives s t { sel := withRpl g.sel d.dpl, hidden := d.hidden } (writeEip s.rip (g.off.setWidth 32)) d.dpl
        (s.eflags &&& ~~~(if g.kind = .interrupt then 0x00034300#32 else 0x00034100#32)) ∧
      SameDataSegments s t ∧ t.ss = { sel := sel, hidden := sd.hidden } ∧
      (w = .w16 → t.rspLo.extractLsb' 16 16 = sp.extractLsb' 16 16) ∧
      FramePushed s t place 5 (sp.toNat % w.modulus) ∧
      returnImage t place .withStack
        = .ok ⟨returnIp i s % 256 ^ g.size.bytes, s.cs.sel.toNat, s.eflags.toNat % 256 ^ g.size.bytes,
            some ((rsp s).toNat % 256 ^ g.size.bytes, s.ss.sel.toNat), []⟩

/-- Delivery from virtual-8086 mode (R200, R201, R205 to R208): nine values on the level-0 stack, the flags image with
VM = 1, DS, ES, FS and GS nullified, protected mode at level 0, all else as it was. RIP[63:32] stays (log 12). -/
def Obligations.FromVirtual8086Delivery : Prop :=
  ∀ (i : Instr) (s : State) (g : Gate) (d : SegDesc) (sp : Word32) (sel : Word16) (sd : SegDesc),
    GateChosen i s g → s.lma = false → HandlerCode s g d → Level0FromV86 s d → Unmapped s → ReturnFits i s →
    TssStack s 0 sp sel → StackSegment s 0#2 sel sd →
    let w := stackWidthOf sd.hidden
    let place : PushPlace := { base := sd.base.setWidth 64, width := w, size := g.size, priv := .supervisor }
    stackRoom sd.hidden w (sp.toNat % w.modulus) (9 * g.size.bytes) = .yes → g.off.toNat ≤ d.effLimit.toNat →
    ∃ t, exec i s = .next t ∧
      Arrives s t { sel := withRpl g.sel 0#2, hidden := d.hidden } (writeEip s.rip (g.off.setWidth 32)) 0#2
        (s.eflags &&& ~~~(if g.kind = .interrupt then 0x00034300#32 else 0x00034100#32)) ∧
      (t.ds = nullified s.ds ∧ t.es = nullified s.es ∧ t.fs = nullified s.fs ∧ t.gs = nullified s.gs) ∧
      t.ss = { sel := sel, hidden := sd.hidden } ∧
      (w = .w16 → t.rspLo.extractLsb' 16 16 = sp.extractLsb' 16 16) ∧
      FramePushed s t place 9 (sp.toNat % w.modulus) ∧
      returnImage t place .withData
        = .ok ⟨returnIp i s % 256 ^ g.size.bytes, s.cs.sel.toNat, s.eflags.toNat % 256 ^ g.size.bytes,
            some (s.rspLo.toNat % 256 ^ g.size.bytes, s.ss.sel.toNat),
            [s.es.sel.toNat, s.ds.sel.toNat, s.fs.sel.toNat, s.gs.sel.toNat]⟩

/-- Delivery without a change of level through a 64-bit gate (R220, R222 to R227, R149): five values on the IST stack or
the current one, aligned where ALIGN_RSP_16 says so (log 7), SS as it was. From compatibility mode the saved RIP is EIP
zero-extended (R23, R114; log 11). That a frame which wraps 2^64 is delivered is the model's choice (log 28). -/
def Obligations.LongModeIntraPrivilegeDelivery : Prop :=
  ∀ (i : Instr) (s : State) (g : Gate) (d : SegDesc) (top : Word64),
    ReachesGate i s → LongGate s (vectorOf i) g → HandlerCode s g d → SameLevel s d → Unmapped s → ReturnFits i s →
    LongStack s g d top → CanonicalFrame top → canonical Config.vaBits g.off = true →
    let place : PushPlace := { base := 0#64, width := .w64, size := .g64, priv := .supervisor }
    ∃ t, exec i s = .next t ∧
      Arrives s t { sel := withRpl g.sel s.cpl, hidden := d.hidden } g.off s.cpl
        (s.eflags &&& ~~~(if g.kind = .interrupt then 0x00034300#32 else 0x00034100#32)) ∧
      SameDataSegments s t ∧ t.ss = s.ss ∧
      FramePushed s t place 5 (alignTop Config.params top).toNat ∧
      returnImage t place .withStack
        = .ok ⟨returnIp i s, s.cs.sel.toNat, s.eflags.toNat, some ((rsp s).toNat, s.ss.sel.toNat), []⟩

/-- Delivery to a more privileged level through a 64-bit gate (R180, R183, R186 to R191, R149): five values on the stack
that the IST or RSPn gives, aligned where ALIGN_RSP_16 says so (log 7), SS a NULL selector. From compatibility mode the saved
RIP is EIP zero-extended (R23, R114; log 11). That a frame which wraps 2^64 is delivered is the model's choice (log 28). -/
def Obligations.LongModeInterPrivilegeDelivery : Prop :=
  ∀ (i : Instr) (s : State) (g : Gate) (d : SegDesc) (top : Word64),
    ReachesGate i s → LongGate s (vectorOf i) g → HandlerCode s g d → HigherLevel s d → Unmapped s → ReturnFits i s →
    LongStack s g d top → CanonicalFrame top → canonical Config.vaBits g.off = true →
    let place : PushPlace := { base := 0#64, width := .w64, size := .g64, priv := .supervisor }
    ∃ t, exec i s = .next t ∧
      Arrives s t { sel := withRpl g.sel d.dpl, hidden := d.hidden } g.off d.dpl
        (s.eflags &&& ~~~(if g.kind = .interrupt then 0x00034300#32 else 0x00034100#32)) ∧
      SameDataSegments s t ∧
      (selNull t.ss.sel = true ∧ (d.dpl = 0#2 → t.ss.sel = 0#16) ∧
        t.ss.hidden = { s.ss.hidden with usable := false }) ∧
      FramePushed s t place 5 (alignTop Config.params top).toNat ∧
      returnImage t place .withStack
        = .ok ⟨returnIp i s, s.cs.sel.toNat, s.eflags.toNat, some ((rsp s).toNat, s.ss.sel.toNat), []⟩

/-! ## The whole machine -/

/-- Every step keeps the invariant (R49, R28, and the canonical form of memory). -/
def Obligations.StepKeepsTheInvariant : Prop :=
  ∀ s t : State, Inv s → step s = .next t → Inv t

/-- The invariant holds right after reset (R291 b; the reset values are log 1). -/
def Obligations.ResetSatisfiesTheInvariant : Prop := Inv State.reset

/-- EFLAGS after each kind of delivery (R111, R26): IF, TF and AC cleared in real-address mode; otherwise TF, NT, RF and VM
cleared, and IF exactly when the IDT entry is an interrupt gate; nothing set; nothing changed without a delivery. -/
def Obligations.FlagsAreClearedNeverSet : Prop :=
  ∀ (i : Instr) (s t : State), exec i s = .next t →
    (¬ Delivers i s → t.eflags = s.eflags) ∧
    (Delivers i s → s.pe = false → t.eflags = s.eflags &&& ~~~0x00040300#32) ∧
    (Delivers i s → s.pe = true →
      ∃ g, (LegacyGate s (vectorOf i) g ∨ LongGate s (vectorOf i) g) ∧
        t.eflags = s.eflags &&& ~~~(if g.kind = .interrupt then 0x00034300#32 else 0x00034100#32)) ∧
    (∀ k, t.eflags.getLsbD k = true → s.eflags.getLsbD k = true) ∧
    flagOF t.eflags = flagOF s.eflags ∧ flagIOPL t.eflags = flagIOPL s.eflags

/-- A delivery keeps CPL or lowers its number, never raises it (R255, R163), and in real-address mode keeps it. -/
def Obligations.PrivilegeNeverDrops : Prop :=
  ∀ (i : Instr) (s t : State), exec i s = .next t →
    t.cpl.toNat ≤ s.cpl.toNat ∧ (s.pe = false → t.cpl = s.cpl)

/-- PE, VME, LMA, IDTR, GDTR, LDTR, TR and the translation are never written, and VM is never set (R29 to R34, R256). -/
def Obligations.SystemRegistersAreNeverWritten : Prop :=
  ∀ (i : Instr) (s t : State), exec i s = .next t →
    SameSystem s t ∧ (flagVM s.eflags = false → flagVM t.eflags = false)

/-- Memory changes only in the bytes of the frame that the delivery pushes (R51, R60, R66), whatever the translation;
without a delivery it does not change. That no accessed or busy bit is written is log 25. -/
def Obligations.MemoryChangesOnlyInTheFrame : Prop :=
  ∀ (i : Instr) (s t : State), exec i s = .next t →
    (¬ Delivers i s → t.mem = s.mem) ∧
    (Delivers i s → ∃ d as, deliveryOf Config.params (eventOf i) (advanced i s) = .ok d ∧
      frameAddrs s d.place d.slots.length (stackPtr (withHandlerStack d s) d.place.width) = .ok as ∧
      as.length = d.slots.length * d.place.size.bytes ∧
      ∀ x, x ∉ as → readByte t.mem x = readByte s.mem x)

/-- DS, ES, FS and GS are written only by delivery from virtual-8086 mode, which nullifies them; SS is written only where
CPL changes (R35, R208, R223, R251). -/
def Obligations.SegmentRegistersChangeOnlyWhereSaid : Prop :=
  ∀ (i : Instr) (s t : State), exec i s = .next t →
    (s.pe = false ∨ flagVM s.eflags = false ∨ ¬ Delivers i s → SameDataSegments s t) ∧
    (s.pe = true → flagVM s.eflags = true → Delivers i s →
      t.ds = nullified s.ds ∧ t.es = nullified s.es ∧ t.fs = nullified s.fs ∧ t.gs = nullified s.gs) ∧
    (t.cpl = s.cpl → t.ss = s.ss)

/-- In IA-32e mode, compatibility mode included, a handler runs in 64-bit mode (R168). -/
def Obligations.LongModeHandlerRunsIn64BitMode : Prop :=
  ∀ (i : Instr) (s t : State), Delivers i s → s.lma = true → exec i s = .next t → opMode t = .mode64

/-- A delivery from virtual-8086 mode leaves it, for level 0 (R205, R208, R256). -/
def Obligations.Virtual8086IsLeftForLevel0 : Prop :=
  ∀ (i : Instr) (s t : State), Delivers i s → s.pe = true → flagVM s.eflags = true → exec i s = .next t →
    flagVM t.eflags = false ∧ t.cpl = 0#2 ∧ selRpl t.cs.sel = 0#2 ∧ (s.lma = false → opMode t = .prot)

/-- Which faults carry an error code (R244): none in real-address mode; with PE = 1 every one but #UD, and #UD never; the
code of #PF is one that the translation returns; and no frame of the three instructions has a slot for an error code: it
holds three, five or nine values. -/
def Obligations.ErrorCodePresence : Prop :=
  ∀ (i : Instr) (s : State),
    (∀ f, exec i s = .fault f →
      (s.pe = false → faultCode f = none) ∧
      (s.pe = true → f ≠ .ud → ∃ c, faultCode f = some c) ∧
      (f = .ud → faultCode f = none) ∧
      ∀ c, f = .pf c → ∃ a k pr, translateAddr s a k pr = .pageFault c) ∧
    ∀ d, deliveryOf Config.params (eventOf i) (advanced i s) = .ok d →
      d.slots.length = 3 ∨ d.slots.length = 5 ∨ d.slots.length = 9

/-- Error codes of the three instructions (R245, R10): EXT, bit 0, is 0; bit 1 is set only in the code that names the
IDT entry. -/
def Obligations.ErrorCodesHaveExtZero : Prop :=
  ∀ (i : Instr) (s : State) (c : Word16),
    (exec i s = .fault (.gp (some c)) ∨ exec i s = .fault (.ss (some c)) ∨ exec i s = .fault (.np c) ∨
      exec i s = .fault (.ts c)) →
    c.getLsbD 0 = false ∧
    (c.getLsbD 1 = true →
      c = BitVec.ofNat 16 (vectorOf i * (if s.lma then Config.errScale64 else 8) + 2))

/-- The meanings refuse for four reasons only (R243), and each where its rule says: a state outside R49; INT imm8 and INTO
with VM = 1 and VME = 1 (R108); a task gate that passes its checks (R157); an ambiguous room, in real-address mode or after
the checks of gate, handler and new stack (R61). That no 64-bit frame is among the last is the model's choice (log 28). -/
def Obligations.RefusalsAreTheListed : Prop :=
  ∀ (i : Instr) (s : State) (r : Refusal), exec i s = .refused r →
    (r = .brokenInvariant ∧ lawful s = false) ∨
    (r = .vmeRedirection ∧ s.pe = true ∧ flagVM s.eflags = true ∧ s.vme = true ∧ sourceOf i ≠ .int3) ∨
    (r = .taskSwitch ∧ TaskGatePasses s (vectorOf i)) ∨ (r = .stackWrap ∧ RoomIs s (vectorOf i) .ambiguous)

/-- IDTR.base is 0 after reset (R290). -/
def Obligations.IdtrBaseIsZeroAfterReset : Prop := State.reset.idtr.base = 0#64

/-! ## Memory, faults of the translation, other events -/

/-- A byte reads as last written, and a write changes no other byte (R65). -/
def Obligations.ByteReadsAsLastWritten : Prop :=
  ∀ (m : Memory) (a : Nat) (b : Byte),
    readByte (writeByte m a b) a = b ∧ ∀ x, x ≠ a → readByte (writeByte m a b) x = readByte m x

/-- A read of 1, 2, 4, 8 or 16 bytes is little-endian over consecutive linear addresses (R52, R54). -/
def Obligations.ReadsAreLittleEndian : Prop :=
  ∀ (s : State) (a : Word64), s.pe = false ∨ Unmapped s →
    let b := fun k : Nat => (readByte s.mem (linear s (a + BitVec.ofNat 64 k)).toNat).toNat
    ∀ n ∈ [1, 2, 4, 8, 16], memRead s n a = .ok ((List.range n).map fun k => b k * 256 ^ k).sum

/-- A page fault on any read of a delivery ends the instruction in #PF with the translation's code (R52, R53, R298): the
IDT entry; the descriptor of a task gate's TSS; the handler's descriptor; the stack pointer and selector in a 16- or 32-bit
TSS, and the new stack's descriptor; ISTx and RSPn in a 64-bit TSS; any byte of the frame. -/
def Obligations.PageFaultEndsTheDelivery : Prop :=
  ∀ (i : Instr) (s : State) (c : Word16),
    (ReachesGate i s → s.lma = false → vectorOf i * 8 + 7 ≤ s.idtr.limit.toNat →
      memRead s 8 (tableAddr s.idtr.base (vectorOf i * 8)) = .error (.fault (.pf c)) →
      exec i s = .fault (.pf c)) ∧
    (ReachesGate i s → s.lma = true → vectorOf i * 16 + 15 ≤ s.idtr.limit.toNat →
      allCanonical Config.vaBits 16 (tableAddr s.idtr.base (vectorOf i * 16)) = true →
      memRead s 16 (tableAddr s.idtr.base (vectorOf i * 16)) = .error (.fault (.pf c)) →
      exec i s = .fault (.pf c)) ∧
    (∀ raw, ReachesGate i s → s.lma = false → vectorOf i * 8 + 7 ≤ s.idtr.limit.toNat →
      memRead s 8 (tableAddr s.idtr.base (vectorOf i * 8)) = .ok raw → (gate8 raw).kind = .task →
      s.cpl.toNat ≤ (gate8 raw).dpl.toNat → (gate8 raw).present = true → selNull (gate8 raw).sel = false →
      selLocal (gate8 raw).sel = false → selOffset (gate8 raw).sel + 7 ≤ s.gdtr.limit.toNat →
      readDesc s (gate8 raw).sel = .error (.fault (.pf c)) → exec i s = .fault (.pf c)) ∧
    (∀ g, GateChosen i s g → selNull g.sel = false → inTable s g.sel = true →
      (s.lma = true → allCanonical Config.vaBits 8 (descAddr s g.sel) = true) →
      readDesc s g.sel = .error (.fault (.pf c)) → exec i s = .fault (.pf c)) ∧
    (∀ g d, GateChosen i s g → s.lma = false → HandlerCode s g d → (HigherLevel s d ∨ Level0FromV86 s d) →
      (TssStackPageFaults s d.dpl.toNat c → exec i s = .fault (.pf c)) ∧
      ∀ sp sel, TssStack s d.dpl.toNat sp sel → selNull sel = false → inTable s sel = true → selRpl sel = d.dpl →
        readDesc s sel = .error (.fault (.pf c)) → exec i s = .fault (.pf c)) ∧
    (∀ g d, ReachesGate i s → LongGate s (vectorOf i) g → HandlerCode s g d →
      (g.ist ≠ 0 → (SameLevel s d ∨ HigherLevel s d ∨ Level0FromV86 s d) →
        Tss64PageFaults s (g.ist * 8 + 28) c → exec i s = .fault (.pf c)) ∧
      (g.ist = 0 → HigherLevel s d → Tss64PageFaults s (d.dpl.toNat * 8 + 4) c → exec i s = .fault (.pf c))) ∧
    ∀ d, Delivers i s → deliveryOf Config.params (eventOf i) (advanced i s) = .ok d →
      frameAddrs s d.place d.slots.length (stackPtr (withHandlerStack d s) d.place.width) = .error (.fault (.pf c)) →
      exec i s = .fault (.pf c)

/-- Going on past an exception that carries a code (R241, R249): the gate's DPL is not checked, and the code is pushed
last, above a frame that holds the unadvanced instruction pointer; through a 16- or 32-bit gate without a change of
level. No instruction of the model calls this (log 24). -/
def Obligations.RaisedExceptionPushesItsCodeLast : Prop :=
  ∀ (p : Params) (ext : Bool) (f : Fault) (c : Word16) (s : State) (raw : Nat) (d : SegDesc),
    faultCode f = some c → s.pe = true → s.lma = false → SameLevel s d → Unmapped s →
    faultVector f * 8 + 7 ≤ s.idtr.limit.toNat →
    memRead s 8 (tableAddr s.idtr.base (faultVector f * 8)) = .ok raw →
    let g := gate8 raw
    (g.kind = .interrupt ∨ g.kind = .trap) → g.present = true → HandlerCode s g d →
    let w := stackWidthOf s.ss.hidden
    let place : PushPlace :=
      { base := s.ss.hidden.base.setWidth 64, width := w, size := g.size, priv := cplPriv s }
    stackRoom s.ss.hidden w (stackPtr s w) (4 * g.size.bytes) = .yes → g.off.toNat ≤ d.effLimit.toNat →
    ∃ t, takeException p ext f s = .ok t ∧
      t.cs = { sel := withRpl g.sel s.cpl, hidden := d.hidden } ∧ eip t = g.off.setWidth 32 ∧
      FramePushed s t place 4 (stackPtr s w) ∧
      readSlot t place 2 0 = .ok c.toNat ∧
      readSlot t place g.size.bytes 1 = .ok ((eip s).toNat % 256 ^ g.size.bytes) ∧
      readSlot t place 2 2 = .ok s.cs.sel.toNat ∧
      readSlot t place g.size.bytes 3 = .ok (s.eflags.toNat % 256 ^ g.size.bytes)

/-! ## Layouts and predicates -/

/-- The fields of a protected-mode IDT entry by bytes (R38, R44): the layout is the spec's default (log 9). -/
def Obligations.ProtectedModeGateLayout : Prop :=
  ∀ b0 b1 b2 b3 b4 b5 b6 b7 : Byte,
    let g := gate8 (leNat [b0, b1, b2, b3, b4, b5, b6, b7])
    let ty := b5.extractLsb' 0 5
    g.sel = b3 ++ b2 ∧ g.present = b5.getLsbD 7 ∧ g.dpl = b5.extractLsb' 5 2 ∧
    g.kind = (if ty = 5#5 then .task else if ty = 6#5 ∨ ty = 14#5 then .interrupt
      else if ty = 7#5 ∨ ty = 15#5 then .trap else .other) ∧
    g.size = (if ty = 14#5 ∨ ty = 15#5 then .g32 else .g16) ∧
    g.off = (if ty = 14#5 ∨ ty = 15#5 then (b7 ++ b6 ++ b1 ++ b0).setWidth 64 else (b1 ++ b0).setWidth 64)

/-- The fields of an IA-32e-mode IDT entry by bytes (R39, R44): the layout is the spec's default (log 9). -/
def Obligations.LongModeGateLayout : Prop :=
  ∀ b0 b1 b2 b3 b4 b5 b6 b7 b8 b9 b10 b11 b12 b13 b14 b15 : Byte,
    let g := gate16 (leNat [b0, b1, b2, b3, b4, b5, b6, b7, b8, b9, b10, b11, b12, b13, b14, b15])
    let ty := b5.extractLsb' 0 5
    g.sel = b3 ++ b2 ∧ g.present = b5.getLsbD 7 ∧ g.dpl = b5.extractLsb' 5 2 ∧ g.ist = (b4.extractLsb' 0 3).toNat ∧
    g.kind = (if ty = 14#5 then .interrupt else if ty = 15#5 then .trap else .other) ∧ g.size = .g64 ∧
    g.off = b11 ++ b10 ++ b9 ++ b8 ++ b7 ++ b6 ++ b1 ++ b0

/-- The fields of a segment descriptor by bytes (R40, R44): the layout is the spec's default (log 9). -/
def Obligations.SegmentDescriptorLayout : Prop :=
  ∀ b0 b1 b2 b3 b4 b5 b6 b7 : Byte,
    let d := segDesc (leNat [b0, b1, b2, b3, b4, b5, b6, b7])
    let limit := (b6.extractLsb' 0 4 ++ b1 ++ b0).toNat
    d.present = b5.getLsbD 7 ∧ d.dpl = b5.extractLsb' 5 2 ∧ d.isCode = (b5.getLsbD 4 && b5.getLsbD 3) ∧
    d.isConforming = (b5.getLsbD 4 && b5.getLsbD 3 && b5.getLsbD 2) ∧
    d.isWritableData = (b5.getLsbD 4 && !b5.getLsbD 3 && b5.getLsbD 1) ∧
    d.isExpandDown = (b5.getLsbD 4 && !b5.getLsbD 3 && b5.getLsbD 2) ∧
    d.base = b7 ++ b4 ++ b3 ++ b2 ∧
    d.effLimit.toNat = (if b6.getLsbD 7 then limit * 4096 + 4095 else limit) ∧
    d.l = b6.getLsbD 5 ∧ d.db = b6.getLsbD 6

/-- An address is canonical when bits 63 down to VA_BITS - 1 are all equal (R58). VA_BITS = 48 is log 5. -/
def Obligations.CanonicalMeansEqualTopBits : Prop :=
  ∀ a : Word64, canonical Config.vaBits a = true ↔
    ∀ k, Config.vaBits - 1 ≤ k → k < 64 → a.getLsbD k = a.getLsbD 63

/-- `StackRoom` by the formulas of R61 and R63: a frame larger than what lies below the stack pointer is ambiguous;
otherwise the answer is whether its bytes are within an expand-up or expand-down segment. -/
def Obligations.StackRoomFollowsTheFormula : Prop :=
  ∀ (h : Hidden) (w : StackWidth) (sp n : Nat),
    let top := if sp = 0 then w.modulus else sp
    (stackRoom h w sp n = .ambiguous ↔ top < n) ∧
    (n ≤ top → h.expandDown = false → (stackRoom h w sp n = .yes ↔ top - 1 ≤ h.limit.toNat)) ∧
    (n ≤ top → h.expandDown = true →
      (stackRoom h w sp n = .yes ↔
        h.limit.toNat < top - n ∧ top - 1 ≤ (if h.db then 0xFFFFFFFF else 0xFFFF)))

/-! ## The state that a fault leaves -/

/-- The state attached to a fault (R241): the state before the instruction, every register as it was and the instruction
pointer at the first byte; memory too, unless a push page-faults, after which each byte of the frame region that translates
is a free value and no other byte has changed (U4, log 14). -/
def Obligations.FaultLeavesTheStateBefore : Prop :=
  (∀ (s : State) (f : Fault), step s = .fault f → { stepFaultState s with mem := s.mem, draws := s.draws } = s) ∧
  ∀ (i : Instr) (s : State) (f : Fault), exec i s = .fault f →
    ((∀ c, f ≠ .pf c) → faultState i s = s) ∧
    (∀ e, deliveryOf Config.params (eventOf i) (advanced i s) = .error e → faultState i s = s) ∧
    (Memory.wf s.mem = true → Memory.wf (faultState i s).mem = true) ∧
    ∀ d, Delivers i s → deliveryOf Config.params (eventOf i) (advanced i s) = .ok d →
      ∀ x, if x ∈ deliveryRegion d s then ∃ k, readByte (faultState i s).mem x = Config.frameByte k
        else readByte (faultState i s).mem x = readByte s.mem x
end

