-- ==== Sys2Proof/Laws/State.lean ====
section
/-! SUPPORT. What each update of the state does to each field. -/

namespace Sys2Proof.Machine

/-! ## A write of the stack pointer -/

@[simp] theorem setStackPtr_rip (p : Params) (s : State) (sp : Nat) (w : StackWidth) :
    (setStackPtr p s sp w).rip = s.rip := by cases w <;> rfl

@[simp] theorem setStackPtr_eflags (p : Params) (s : State) (sp : Nat) (w : StackWidth) :
    (setStackPtr p s sp w).eflags = s.eflags := by cases w <;> rfl

@[simp] theorem setStackPtr_cpl (p : Params) (s : State) (sp : Nat) (w : StackWidth) :
    (setStackPtr p s sp w).cpl = s.cpl := by cases w <;> rfl

@[simp] theorem setStackPtr_pe (p : Params) (s : State) (sp : Nat) (w : StackWidth) :
    (setStackPtr p s sp w).pe = s.pe := by cases w <;> rfl

@[simp] theorem setStackPtr_vme (p : Params) (s : State) (sp : Nat) (w : StackWidth) :
    (setStackPtr p s sp w).vme = s.vme := by cases w <;> rfl

@[simp] theorem setStackPtr_lma (p : Params) (s : State) (sp : Nat) (w : StackWidth) :
    (setStackPtr p s sp w).lma = s.lma := by cases w <;> rfl

@[simp] theorem setStackPtr_idtr (p : Params) (s : State) (sp : Nat) (w : StackWidth) :
    (setStackPtr p s sp w).idtr = s.idtr := by cases w <;> rfl

@[simp] theorem setStackPtr_gdtr (p : Params) (s : State) (sp : Nat) (w : StackWidth) :
    (setStackPtr p s sp w).gdtr = s.gdtr := by cases w <;> rfl

@[simp] theorem setStackPtr_ldtr (p : Params) (s : State) (sp : Nat) (w : StackWidth) :
    (setStackPtr p s sp w).ldtr = s.ldtr := by cases w <;> rfl

@[simp] theorem setStackPtr_tr (p : Params) (s : State) (sp : Nat) (w : StackWidth) :
    (setStackPtr p s sp w).tr = s.tr := by cases w <;> rfl

@[simp] theorem setStackPtr_cs (p : Params) (s : State) (sp : Nat) (w : StackWidth) :
    (setStackPtr p s sp w).cs = s.cs := by cases w <;> rfl

@[simp] theorem setStackPtr_ss (p : Params) (s : State) (sp : Nat) (w : StackWidth) :
    (setStackPtr p s sp w).ss = s.ss := by cases w <;> rfl

@[simp] theorem setStackPtr_ds (p : Params) (s : State) (sp : Nat) (w : StackWidth) :
    (setStackPtr p s sp w).ds = s.ds := by cases w <;> rfl

@[simp] theorem setStackPtr_es (p : Params) (s : State) (sp : Nat) (w : StackWidth) :
    (setStackPtr p s sp w).es = s.es := by cases w <;> rfl

@[simp] theorem setStackPtr_fs (p : Params) (s : State) (sp : Nat) (w : StackWidth) :
    (setStackPtr p s sp w).fs = s.fs := by cases w <;> rfl

@[simp] theorem setStackPtr_gs (p : Params) (s : State) (sp : Nat) (w : StackWidth) :
    (setStackPtr p s sp w).gs = s.gs := by cases w <;> rfl

@[simp] theorem setStackPtr_mem (p : Params) (s : State) (sp : Nat) (w : StackWidth) :
    (setStackPtr p s sp w).mem = s.mem := by cases w <;> rfl

@[simp] theorem setStackPtr_xlat (p : Params) (s : State) (sp : Nat) (w : StackWidth) :
    (setStackPtr p s sp w).xlat = s.xlat := by cases w <;> rfl

@[simp] theorem setStackPtr_draws (p : Params) (s : State) (sp : Nat) (w : StackWidth) :
    (setStackPtr p s sp w).draws = s.draws + 1 := by cases w <;> rfl

/-! ## The handler's stack in place -/

@[simp] theorem withHandlerStack_rspLo (d : Delivery) (s : State) :
    (withHandlerStack d s).rspLo = d.rspLo := rfl

@[simp] theorem withHandlerStack_rspHi (d : Delivery) (s : State) :
    (withHandlerStack d s).rspHi = d.rspHi := rfl

@[simp] theorem withHandlerStack_rip (d : Delivery) (s : State) :
    (withHandlerStack d s).rip = s.rip := rfl

@[simp] theorem withHandlerStack_eflags (d : Delivery) (s : State) :
    (withHandlerStack d s).eflags = s.eflags := rfl

@[simp] theorem withHandlerStack_cpl (d : Delivery) (s : State) :
    (withHandlerStack d s).cpl = s.cpl := rfl

@[simp] theorem withHandlerStack_pe (d : Delivery) (s : State) :
    (withHandlerStack d s).pe = s.pe := rfl

@[simp] theorem withHandlerStack_vme (d : Delivery) (s : State) :
    (withHandlerStack d s).vme = s.vme := rfl

@[simp] theorem withHandlerStack_lma (d : Delivery) (s : State) :
    (withHandlerStack d s).lma = s.lma := rfl

@[simp] theorem withHandlerStack_idtr (d : Delivery) (s : State) :
    (withHandlerStack d s).idtr = s.idtr := rfl

@[simp] theorem withHandlerStack_gdtr (d : Delivery) (s : State) :
    (withHandlerStack d s).gdtr = s.gdtr := rfl

@[simp] theorem withHandlerStack_ldtr (d : Delivery) (s : State) :
    (withHandlerStack d s).ldtr = s.ldtr := rfl

@[simp] theorem withHandlerStack_tr (d : Delivery) (s : State) :
    (withHandlerStack d s).tr = s.tr := rfl

@[simp] theorem withHandlerStack_cs (d : Delivery) (s : State) :
    (withHandlerStack d s).cs = s.cs := rfl

@[simp] theorem withHandlerStack_ss (d : Delivery) (s : State) :
    (withHandlerStack d s).ss = d.ss := rfl

@[simp] theorem withHandlerStack_ds (d : Delivery) (s : State) :
    (withHandlerStack d s).ds = s.ds := rfl

@[simp] theorem withHandlerStack_es (d : Delivery) (s : State) :
    (withHandlerStack d s).es = s.es := rfl

@[simp] theorem withHandlerStack_fs (d : Delivery) (s : State) :
    (withHandlerStack d s).fs = s.fs := rfl

@[simp] theorem withHandlerStack_gs (d : Delivery) (s : State) :
    (withHandlerStack d s).gs = s.gs := rfl

@[simp] theorem withHandlerStack_mem (d : Delivery) (s : State) :
    (withHandlerStack d s).mem = s.mem := rfl

@[simp] theorem withHandlerStack_xlat (d : Delivery) (s : State) :
    (withHandlerStack d s).xlat = s.xlat := rfl

@[simp] theorem withHandlerStack_draws (d : Delivery) (s : State) :
    (withHandlerStack d s).draws = d.draws := rfl

/-! ## The handler's registers -/

@[simp] theorem withHandlerRegisters_rspLo (d : Delivery) (s : State) :
    (withHandlerRegisters d s).rspLo = s.rspLo := rfl

@[simp] theorem withHandlerRegisters_rspHi (d : Delivery) (s : State) :
    (withHandlerRegisters d s).rspHi = s.rspHi := rfl

@[simp] theorem withHandlerRegisters_rip (d : Delivery) (s : State) :
    (withHandlerRegisters d s).rip = d.rip := rfl

@[simp] theorem withHandlerRegisters_eflags (d : Delivery) (s : State) :
    (withHandlerRegisters d s).eflags = d.eflags := rfl

@[simp] theorem withHandlerRegisters_cpl (d : Delivery) (s : State) :
    (withHandlerRegisters d s).cpl = d.cpl := rfl

@[simp] theorem withHandlerRegisters_pe (d : Delivery) (s : State) :
    (withHandlerRegisters d s).pe = s.pe := rfl

@[simp] theorem withHandlerRegisters_vme (d : Delivery) (s : State) :
    (withHandlerRegisters d s).vme = s.vme := rfl

@[simp] theorem withHandlerRegisters_lma (d : Delivery) (s : State) :
    (withHandlerRegisters d s).lma = s.lma := rfl

@[simp] theorem withHandlerRegisters_idtr (d : Delivery) (s : State) :
    (withHandlerRegisters d s).idtr = s.idtr := rfl

@[simp] theorem withHandlerRegisters_gdtr (d : Delivery) (s : State) :
    (withHandlerRegisters d s).gdtr = s.gdtr := rfl

@[simp] theorem withHandlerRegisters_ldtr (d : Delivery) (s : State) :
    (withHandlerRegisters d s).ldtr = s.ldtr := rfl

@[simp] theorem withHandlerRegisters_tr (d : Delivery) (s : State) :
    (withHandlerRegisters d s).tr = s.tr := rfl

@[simp] theorem withHandlerRegisters_cs (d : Delivery) (s : State) :
    (withHandlerRegisters d s).cs = d.cs := rfl

@[simp] theorem withHandlerRegisters_ss (d : Delivery) (s : State) :
    (withHandlerRegisters d s).ss = s.ss := rfl

@[simp] theorem withHandlerRegisters_ds (d : Delivery) (s : State) :
    (withHandlerRegisters d s).ds = if d.nullData then nullified s.ds else s.ds := rfl

@[simp] theorem withHandlerRegisters_es (d : Delivery) (s : State) :
    (withHandlerRegisters d s).es = if d.nullData then nullified s.es else s.es := rfl

@[simp] theorem withHandlerRegisters_fs (d : Delivery) (s : State) :
    (withHandlerRegisters d s).fs = if d.nullData then nullified s.fs else s.fs := rfl

@[simp] theorem withHandlerRegisters_gs (d : Delivery) (s : State) :
    (withHandlerRegisters d s).gs = if d.nullData then nullified s.gs else s.gs := rfl

@[simp] theorem withHandlerRegisters_mem (d : Delivery) (s : State) :
    (withHandlerRegisters d s).mem = s.mem := rfl

@[simp] theorem withHandlerRegisters_xlat (d : Delivery) (s : State) :
    (withHandlerRegisters d s).xlat = s.xlat := rfl

@[simp] theorem withHandlerRegisters_draws (d : Delivery) (s : State) :
    (withHandlerRegisters d s).draws = s.draws := rfl

/-! ## The advance of the instruction pointer -/

@[simp] theorem advanceIp_rspLo (p : Params) (len : Nat) (s : State) :
    (advanceIp p len s).rspLo = s.rspLo := by
  unfold advanceIp; split <;> split <;> rfl

@[simp] theorem advanceIp_rspHi (p : Params) (len : Nat) (s : State) :
    (advanceIp p len s).rspHi = s.rspHi := by
  unfold advanceIp; split <;> split <;> rfl

@[simp] theorem advanceIp_eflags (p : Params) (len : Nat) (s : State) :
    (advanceIp p len s).eflags = s.eflags := by
  unfold advanceIp; split <;> split <;> rfl

@[simp] theorem advanceIp_cpl (p : Params) (len : Nat) (s : State) :
    (advanceIp p len s).cpl = s.cpl := by
  unfold advanceIp; split <;> split <;> rfl

@[simp] theorem advanceIp_pe (p : Params) (len : Nat) (s : State) :
    (advanceIp p len s).pe = s.pe := by
  unfold advanceIp; split <;> split <;> rfl

@[simp] theorem advanceIp_vme (p : Params) (len : Nat) (s : State) :
    (advanceIp p len s).vme = s.vme := by
  unfold advanceIp; split <;> split <;> rfl

@[simp] theorem advanceIp_lma (p : Params) (len : Nat) (s : State) :
    (advanceIp p len s).lma = s.lma := by
  unfold advanceIp; split <;> split <;> rfl

@[simp] theorem advanceIp_idtr (p : Params) (len : Nat) (s : State) :
    (advanceIp p len s).idtr = s.idtr := by
  unfold advanceIp; split <;> split <;> rfl

@[simp] theorem advanceIp_gdtr (p : Params) (len : Nat) (s : State) :
    (advanceIp p len s).gdtr = s.gdtr := by
  unfold advanceIp; split <;> split <;> rfl

@[simp] theorem advanceIp_ldtr (p : Params) (len : Nat) (s : State) :
    (advanceIp p len s).ldtr = s.ldtr := by
  unfold advanceIp; split <;> split <;> rfl

@[simp] theorem advanceIp_tr (p : Params) (len : Nat) (s : State) :
    (advanceIp p len s).tr = s.tr := by
  unfold advanceIp; split <;> split <;> rfl

@[simp] theorem advanceIp_cs (p : Params) (len : Nat) (s : State) :
    (advanceIp p len s).cs = s.cs := by
  unfold advanceIp; split <;> split <;> rfl

@[simp] theorem advanceIp_ss (p : Params) (len : Nat) (s : State) :
    (advanceIp p len s).ss = s.ss := by
  unfold advanceIp; split <;> split <;> rfl

@[simp] theorem advanceIp_ds (p : Params) (len : Nat) (s : State) :
    (advanceIp p len s).ds = s.ds := by
  unfold advanceIp; split <;> split <;> rfl

@[simp] theorem advanceIp_es (p : Params) (len : Nat) (s : State) :
    (advanceIp p len s).es = s.es := by
  unfold advanceIp; split <;> split <;> rfl

@[simp] theorem advanceIp_fs (p : Params) (len : Nat) (s : State) :
    (advanceIp p len s).fs = s.fs := by
  unfold advanceIp; split <;> split <;> rfl

@[simp] theorem advanceIp_gs (p : Params) (len : Nat) (s : State) :
    (advanceIp p len s).gs = s.gs := by
  unfold advanceIp; split <;> split <;> rfl

@[simp] theorem advanceIp_mem (p : Params) (len : Nat) (s : State) :
    (advanceIp p len s).mem = s.mem := by
  unfold advanceIp; split <;> split <;> rfl

@[simp] theorem advanceIp_xlat (p : Params) (len : Nat) (s : State) :
    (advanceIp p len s).xlat = s.xlat := by
  unfold advanceIp; split <;> split <;> rfl

end Sys2Proof.Machine
end

