-- ==== Sys2Proof/Laws/Checks.lean ====
section
/-! SUPPORT. The checks of the procedures: what it means that one passes, and sequencing. -/

namespace Sys2Proof.Machine

@[simp] theorem stopIf_true (e : Stop) : stopIf true e = .error e := rfl
@[simp] theorem stopIf_false (e : Stop) : stopIf false e = .ok () := rfl

/-- A check passes exactly when its condition is false. -/
theorem stopIf_eq_ok {c : Bool} {e : Stop} {u : Unit} : stopIf c e = .ok u ↔ c = false := by
  cases c <;> simp [stopIf]

/-- A sequence answers exactly when each part does. -/
theorem bind_eq_ok {α β : Type} {x : Res α} {f : α → Res β} {b : β} :
    (x >>= f) = .ok b ↔ ∃ a, x = .ok a ∧ f a = .ok b := by
  cases x with
  | error e => simp [bind, Except.bind]
  | ok a => simp [bind, Except.bind]

/-- A check in front of a procedure. -/
theorem stopIf_bind_eq_ok {c : Bool} {e : Stop} {β : Type} {f : Unit → Res β} {b : β} :
    (stopIf c e >>= f) = .ok b ↔ c = false ∧ f () = .ok b := by
  cases c <;> simp [stopIf, bind, Except.bind]

/-- A check in front of a procedure, as a conditional. -/
theorem stopIf_bind {c : Bool} {e : Stop} {β : Type} (f : Unit → Res β) :
    (stopIf c e >>= f) = if c then .error e else f () := by
  cases c <;> rfl

@[simp] theorem ok_bind {α β : Type} (a : α) (f : α → Res β) : ((Except.ok a : Res α) >>= f) = f a := rfl
@[simp] theorem error_bind {α β : Type} (e : Stop) (f : α → Res β) : ((Except.error e : Res α) >>= f) = .error e := rfl

/-- The room check passes exactly when `StackRoom` answers yes (R61). -/
theorem requireRoom_eq_ok {h : Hidden} {w : StackWidth} {sp n : Nat} {f : Fault} {u : Unit} :
    requireRoom h w sp n f = .ok u ↔ stackRoom h w sp n = .yes := by
  unfold requireRoom
  cases stackRoom h w sp n <;> simp [raise, refuse]

/-- The canonical check of a 64-bit frame passes exactly when every byte is canonical (R186, R222). -/
theorem requireCanonicalFrame_eq_ok {p : Params} {top : Word64} {n : Nat} {u : Unit} :
    requireCanonicalFrame p top n = .ok u ↔ allCanonical p.vaBits n (top - BitVec.ofNat 64 n) = true := by
  unfold requireCanonicalFrame
  rw [stopIf_eq_ok]
  simp

/-- `StackRoom` answers yes: the frame lies below the top and within the limit (R61). -/
theorem stackRoom_eq_yes {h : Hidden} {w : StackWidth} {sp n : Nat} :
    stackRoom h w sp n = .yes ↔
      n ≤ (if sp = 0 then w.modulus else sp) ∧
        inLimit h ((if sp = 0 then w.modulus else sp) - n) ((if sp = 0 then w.modulus else sp) - 1) = true := by
  unfold stackRoom
  generalize (if sp = 0 then w.modulus else sp) = top
  by_cases h1 : top < n
  · simp only [h1, if_true]
    simp only [reduceCtorEq, false_iff, not_and]
    omega
  · cases h2 : inLimit h (top - n) (top - 1) <;> simp [h1, h2] <;> omega

/-- A step's outcome is a next state exactly when the meaning answers one. -/
theorem toOutcome_eq_next {r : Res State} {t : State} : toOutcome r = .next t ↔ r = .ok t := by
  rcases r with e | s
  · cases e <;> simp [toOutcome]
  · simp [toOutcome]

end Sys2Proof.Machine
end

