-- ==== Sys2Proof/Laws/Memory.lean ====
section
/-! SUPPORT. Memory: read after write, and the canonical form that every operation keeps. -/

namespace Sys2Proof.Machine

theorem readByte_insertCell_same (a : Nat) (b : Byte) (m : Memory) (h : ∀ c ∈ m, c.1 ≠ a) :
    readByte (insertCell a b m) a = b := by
  induction m with
  | nil => simp [insertCell, readByte]
  | cons c m ih =>
    obtain ⟨x, v⟩ := c
    have hx : x ≠ a := h (x, v) (by simp)
    have hm : ∀ c ∈ m, c.1 ≠ a := fun c hc => h c (by simp [hc])
    simp only [insertCell]
    split
    · simp [readByte]
    · simp [readByte, hx, ih hm]

theorem readByte_insertCell_other (a x : Nat) (b : Byte) (m : Memory) (hx : x ≠ a) :
    readByte (insertCell a b m) x = readByte m x := by
  induction m with
  | nil => simp [insertCell, readByte, Ne.symm hx]
  | cons c m ih =>
    obtain ⟨y, v⟩ := c
    simp only [insertCell]
    split
    · simp [readByte, Ne.symm hx]
    · simp [readByte, ih]

theorem readByte_filter_same (a : Nat) (m : Memory) : readByte (m.filter (fun c => c.1 != a)) a = unlistedByte := by
  induction m with
  | nil => rfl
  | cons c m ih =>
    obtain ⟨y, v⟩ := c
    by_cases hy : y = a <;> simp [hy, readByte, ih]

theorem readByte_filter_other (a x : Nat) (m : Memory) (hx : x ≠ a) :
    readByte (m.filter (fun c => c.1 != a)) x = readByte m x := by
  induction m with
  | nil => rfl
  | cons c m ih =>
    obtain ⟨y, v⟩ := c
    by_cases hy : y = a
    · have hyx : y ≠ x := fun h => hx (h ▸ hy)
      simp only [readByte, if_neg hyx]
      simpa [hy] using ih
    · simp [hy, readByte, ih]

/-- Reading a byte after writing it gives the value written. -/
theorem readByte_writeByte_same (m : Memory) (a : Nat) (b : Byte) : readByte (writeByte m a b) a = b := by
  unfold writeByte
  simp only
  split
  · next h => rw [readByte_filter_same, h]
  · exact readByte_insertCell_same a b _ (by simp)

/-- Writing a byte leaves every other byte alone. -/
theorem readByte_writeByte_other (m : Memory) (a x : Nat) (b : Byte) (hx : x ≠ a) :
    readByte (writeByte m a b) x = readByte m x := by
  unfold writeByte
  simp only
  split
  · exact readByte_filter_other a x m hx
  · rw [readByte_insertCell_other a x b _ hx, readByte_filter_other a x m hx]

/-- Storing cells leaves every byte outside them alone. -/
theorem readByte_storeCells_other (cs : List Host.Cell) (m : Memory) (x : Nat) (h : x ∉ cs.map Prod.fst) :
    readByte (storeCells m cs) x = readByte m x := by
  induction cs generalizing m with
  | nil => rfl
  | cons c cs ih =>
    obtain ⟨a, b⟩ := c
    simp only [List.map_cons, List.mem_cons, not_or] at h
    rw [storeCells, ih _ h.2, readByte_writeByte_other _ _ _ _ h.1]

/-- Storing cells at different addresses: each reads back. -/
theorem readByte_storeCells_mem (cs : List Host.Cell) (m : Memory) (a : Nat) (b : Byte)
    (hd : (cs.map Prod.fst).Nodup) (h : (a, b) ∈ cs) : readByte (storeCells m cs) a = b := by
  induction cs generalizing m with
  | nil => simp at h
  | cons c cs ih =>
    obtain ⟨x, v⟩ := c
    simp only [List.map_cons, List.nodup_cons] at hd
    rcases List.mem_cons.mp h with h | h
    · obtain ⟨rfl, rfl⟩ := Prod.mk.inj h
      rw [storeCells, readByte_storeCells_other _ _ _ hd.1, readByte_writeByte_same]
    · rw [storeCells, ih _ hd.2 h]

theorem storeCells_append (m : Memory) (cs ds : List Host.Cell) :
    storeCells m (cs ++ ds) = storeCells (storeCells m cs) ds := by
  induction cs generalizing m with
  | nil => rfl
  | cons c cs ih => obtain ⟨a, b⟩ := c; exact ih _

/-! ## The canonical form -/

theorem Memory.wfFrom_mono {lo hi : Nat} (h : lo ≤ hi) (m : Memory) (hm : Memory.wfFrom hi m = true) :
    Memory.wfFrom lo m = true := by
  cases m with
  | nil => rfl
  | cons c m =>
    obtain ⟨a, b⟩ := c
    simp only [Memory.wfFrom, Bool.and_eq_true, decide_eq_true_eq] at hm ⊢
    exact ⟨⟨by omega, hm.1.2⟩, hm.2⟩

theorem Memory.wfFrom_filter (a lo : Nat) (m : Memory) (h : Memory.wfFrom lo m = true) :
    Memory.wfFrom lo (m.filter (fun c => c.1 != a)) = true := by
  induction m generalizing lo with
  | nil => rfl
  | cons c m ih =>
    obtain ⟨x, b⟩ := c
    simp only [Memory.wfFrom, Bool.and_eq_true, decide_eq_true_eq] at h
    by_cases hx : x = a
    · simpa [hx] using ih lo (Memory.wfFrom_mono (by omega) m h.2)
    · simpa [hx, Memory.wfFrom, h.1.1, h.1.2] using ih (x + 1) h.2

theorem Memory.wfFrom_insertCell (a lo : Nat) (b : Byte) (m : Memory) (hb : b ≠ unlistedByte) (hlo : lo ≤ a)
    (h : Memory.wfFrom lo m = true) (hm : ∀ c ∈ m, c.1 ≠ a) : Memory.wfFrom lo (insertCell a b m) = true := by
  induction m generalizing lo with
  | nil => simp [insertCell, Memory.wfFrom, hb, hlo]
  | cons c m ih =>
    obtain ⟨x, v⟩ := c
    simp only [Memory.wfFrom, Bool.and_eq_true, decide_eq_true_eq] at h
    have hx : x ≠ a := hm (x, v) (by simp)
    simp only [insertCell]
    split
    · next hax =>
      simp only [Memory.wfFrom, Bool.and_eq_true, decide_eq_true_eq]
      exact ⟨⟨hlo, by simpa using hb⟩, ⟨by omega, h.1.2⟩, h.2⟩
    · next hax =>
      simp only [Memory.wfFrom, Bool.and_eq_true, decide_eq_true_eq]
      exact ⟨h.1, ih (x + 1) (by omega) h.2 (fun c hc => hm c (by simp [hc]))⟩

/-- A byte write keeps the canonical form. -/
theorem writeByte_wf (m : Memory) (a : Nat) (b : Byte) (h : Memory.wf m = true) :
    Memory.wf (writeByte m a b) = true := by
  have hf := Memory.wfFrom_filter a 0 m h
  unfold writeByte
  simp only
  split
  · exact hf
  · next hb => exact Memory.wfFrom_insertCell a 0 b _ hb (Nat.zero_le a) hf (by simp)

/-- Storing cells keeps the canonical form. -/
theorem storeCells_wf (cs : List Host.Cell) (m : Memory) (h : Memory.wf m = true) :
    Memory.wf (storeCells m cs) = true := by
  induction cs generalizing m with
  | nil => exact h
  | cons c cs ih => obtain ⟨a, b⟩ := c; exact ih _ (writeByte_wf m a b h)

end Sys2Proof.Machine
end

