-- ==== Sys2Proof/Laws/Push.lean ====
section
/-! SUPPORT. Translation, reading and pushing: what each can do, said once. -/

namespace Sys2Proof.Machine

/-! ## Addresses -/

/-- The physical addresses depend on PE, LMA and the translation alone. -/
theorem physAddrs_congr {s t : State} (hp : t.pe = s.pe) (hl : t.lma = s.lma) (hx : t.xlat = s.xlat)
    (k : Access) (pr : Priv) (n : Nat) (a : Word64) : physAddrs t k pr n a = physAddrs s k pr n a := by
  induction n generalizing a with
  | zero => rfl
  | succ n ih => simp only [physAddrs, translateAddr, linear, hp, hl, hx, ih]

/-- The linear addresses of the `n` bytes from `a`. -/
def linearRange (s : State) (a : Word64) (n : Nat) : List Nat :=
  (List.range n).map (fun i => (linear s (a + BitVec.ofNat 64 i)).toNat)

theorem linearRange_succ (s : State) (a : Word64) (n : Nat) :
    linearRange s a (n + 1) = (linear s a).toNat :: linearRange s (a + 1#64) n := by
  unfold linearRange
  rw [List.range_succ_eq_map, List.map_cons, List.map_map]
  congr 1
  · simp
  · apply List.map_congr_left
    intro i _
    simp only [Function.comp_apply, Nat.succ_eq_add_one]
    congr 2
    rw [BitVec.add_assoc]
    congr 1
    apply BitVec.eq_of_toNat_eq
    simp [Nat.add_comm]

/-- With the identity translation the physical addresses are the linear ones (R57). -/
theorem physAddrs_identity {s : State} (h : s.pe = false ∨ s.xlat = []) (k : Access) (pr : Priv) (n : Nat)
    (a : Word64) : physAddrs s k pr n a = .ok (linearRange s a n) := by
  have ht : ∀ x, translateAddr s x k pr = .phys x := by
    intro x
    unfold translateAddr
    rcases h with h | h
    · simp [h]
    · simp [h, lookupXlat]
  induction n generalizing a with
  | zero => rfl
  | succ n ih => simp [physAddrs, ht, ih, linearRange_succ]

theorem physAddrs_length {s : State} {k : Access} {pr : Priv} {n : Nat} {a : Word64} {as : List Nat}
    (h : physAddrs s k pr n a = .ok as) : as.length = n := by
  induction n generalizing a as with
  | zero => simp [physAddrs] at h; simp [← h]
  | succ n ih =>
    simp only [physAddrs] at h
    split at h
    · simp [raise] at h
    · split at h
      · next ps hps => simp at h; rw [← h]; simp [ih hps]
      · simp at h

/-- `MemRead` with the identity translation always answers (R52). -/
theorem memRead_identity {s : State} (h : s.pe = false ∨ s.xlat = []) (n : Nat) (a : Word64) :
    memRead s n a = .ok (leNat ((linearRange s a n).map (readByte s.mem))) := by
  simp [memRead, physAddrs_identity h]

/-! ## Bytes and numbers -/

@[simp] theorem leBytes_length (n v : Nat) : (leBytes n v).length = n := by
  induction n generalizing v with
  | zero => rfl
  | succ n ih => simp [leBytes, ih]

/-- The bytes of a value read back as the value, cut to their number (R52 to R54). -/
theorem leNat_leBytes (n v : Nat) : leNat (leBytes n v) = v % 256 ^ n := by
  induction n generalizing v with
  | zero => simp [leBytes, leNat, Nat.mod_one]
  | succ n ih =>
    have h : v % 256 ^ (n + 1) = v % 256 + 256 * (v / 256 % 256 ^ n) := by rw [Nat.pow_succ', Nat.mod_mul]
    simp only [leBytes, leNat, ih, BitVec.toNat_ofNat, h]

theorem leNat_lt (bs : List Byte) : leNat bs < 256 ^ bs.length := by
  induction bs with
  | nil => simp [leNat]
  | cons b bs ih => simp only [leNat, List.length_cons, Nat.pow_succ]; have := b.isLt; omega

@[simp] theorem slotBytes_length (p : Params) (draw : Nat) (g : GateSize) (v : Slot) :
    (slotBytes p draw g.bytes v).length = g.bytes := by
  cases v <;> cases g <;> simp [slotBytes, GateSize.bytes]

/-! ## Pushes -/

/-- What a push does when it answers (R60). -/
theorem push_eq_ok {p : Params} {c : PushPlace} {v : Slot} {s t : State} :
    push p c v s = .ok t ↔
      ∃ as, slotAddrs s c (pushedPtr c (stackPtr s c.width)) = .ok as ∧
        t = setStackPtr p { s with mem := storeCells s.mem (as.zip (slotBytes p s.draws c.size.bytes v)) }
          (pushedPtr c (stackPtr s c.width)) c.width := by
  unfold push
  simp only
  split
  · next e he => simp [he]
  · next as ha =>
    rw [ha]
    constructor
    · intro h; exact ⟨as, rfl, (Except.ok.inj h).symm⟩
    · rintro ⟨bs, hb, rfl⟩
      rw [Except.ok.inj hb]

/-- The stack pointer reads back as written. -/
theorem stackPtr_setStackPtr (p : Params) (s : State) (sp : Nat) (w : StackWidth) (h : sp < w.modulus) :
    stackPtr (setStackPtr p s sp w) w = sp := by
  cases w with
  | w16 =>
    have h' : sp < 65536 := h
    simp only [stackPtr, setStackPtr]
    have := BitVec.toNat_setWidth 16 (s.rspLo.extractLsb' 16 16 ++ BitVec.ofNat 16 sp)
    rw [← this, BitVec.setWidth_append]
    simp [Nat.mod_eq_of_lt h']
  | w32 =>
    have h' : sp < 2 ^ 32 := h
    simp only [stackPtr, setStackPtr, BitVec.toNat_ofNat, Nat.mod_eq_of_lt h']
  | w64 =>
    have h' : sp < 2 ^ 64 := h
    simp only [stackPtr, setStackPtr, rsp]
    rw [BitVec.toNat_append, BitVec.toNat_ofNat, BitVec.toNat_ofNat, ← Nat.shiftLeft_add_eq_or_of_lt (by omega),
      Nat.shiftLeft_eq]
    omega

theorem pushedPtr_lt (c : PushPlace) (sp : Nat) : pushedPtr c sp < c.width.modulus := by
  unfold pushedPtr
  apply Nat.mod_lt
  cases c.width <;> simp [StackWidth.modulus]

/-- The stack pointer after `n` pushes. -/
def pushedPtrs (c : PushPlace) : Nat → Nat → Nat
  | 0, sp => sp
  | n + 1, sp => pushedPtrs c n (pushedPtr c sp)

theorem slotAddrs_congr {s t : State} (hp : t.pe = s.pe) (hl : t.lma = s.lma) (hx : t.xlat = s.xlat) (c : PushPlace)
    (sp : Nat) : slotAddrs t c sp = slotAddrs s c sp := physAddrs_congr hp hl hx _ _ _ _

theorem frameAddrs_congr {s t : State} (hp : t.pe = s.pe) (hl : t.lma = s.lma) (hx : t.xlat = s.xlat) (c : PushPlace)
    (n sp : Nat) : frameAddrs t c n sp = frameAddrs s c n sp := by
  induction n generalizing sp with
  | zero => rfl
  | succ n ih => simp only [frameAddrs, slotAddrs_congr hp hl hx, ih]

/-- What pushing does to the state beside memory, the stack pointer and the draw counter: nothing. -/
structure PushFrame (s t : State) : Prop where
  rip : t.rip = s.rip
  eflags : t.eflags = s.eflags
  cpl : t.cpl = s.cpl
  pe : t.pe = s.pe
  vme : t.vme = s.vme
  lma : t.lma = s.lma
  idtr : t.idtr = s.idtr
  gdtr : t.gdtr = s.gdtr
  ldtr : t.ldtr = s.ldtr
  tr : t.tr = s.tr
  cs : t.cs = s.cs
  ss : t.ss = s.ss
  ds : t.ds = s.ds
  es : t.es = s.es
  fs : t.fs = s.fs
  gs : t.gs = s.gs
  xlat : t.xlat = s.xlat

/-- Everything that the pushes of a frame can do (R60): store cells at the frame's addresses, lower the stack pointer,
draw one free value a push; nothing else changes. -/
theorem pushAll_ok {p : Params} {c : PushPlace} {vs : List Slot} {s t : State} (h : pushAll p c vs s = .ok t) :
    ∃ cells : List Host.Cell,
      frameAddrs s c vs.length (stackPtr s c.width) = .ok (cells.map Prod.fst) ∧
      t.mem = storeCells s.mem cells ∧
      stackPtr t c.width = pushedPtrs c vs.length (stackPtr s c.width) ∧
      t.draws = s.draws + vs.length ∧ PushFrame s t := by
  induction vs generalizing s with
  | nil =>
    obtain rfl := Except.ok.inj h
    exact ⟨[], rfl, rfl, rfl, rfl, ⟨rfl, rfl, rfl, rfl, rfl, rfl, rfl, rfl, rfl, rfl, rfl, rfl, rfl, rfl, rfl, rfl, rfl⟩⟩
  | cons v vs ih =>
    simp only [pushAll] at h
    split at h
    · next s1 h1 =>
      obtain ⟨as, ha, rfl⟩ := push_eq_ok.mp h1
      obtain ⟨cells, hc, hm, hp, hd, hf⟩ := ih h
      rw [stackPtr_setStackPtr _ _ _ _ (pushedPtr_lt _ _)] at hc hp
      rw [frameAddrs_congr (s := s) (by simp) (by simp) (by simp)] at hc
      have hlen : as.length = (slotBytes p s.draws c.size.bytes v).length := by
        rw [slotBytes_length]; exact physAddrs_length ha
      refine ⟨as.zip (slotBytes p s.draws c.size.bytes v) ++ cells, ?_, ?_, ?_, ?_, ?_⟩
      · simp only [List.length_cons, frameAddrs, ha, hc, List.map_append, List.map_fst_zip (Nat.le_of_eq hlen)]
      · rw [hm, storeCells_append]; simp
      · rw [hp]; rfl
      · rw [hd]; simp; omega
      · exact ⟨by simpa using hf.rip, by simpa using hf.eflags, by simpa using hf.cpl, by simpa using hf.pe,
          by simpa using hf.vme, by simpa using hf.lma, by simpa using hf.idtr, by simpa using hf.gdtr,
          by simpa using hf.ldtr, by simpa using hf.tr, by simpa using hf.cs, by simpa using hf.ss,
          by simpa using hf.ds, by simpa using hf.es, by simpa using hf.fs, by simpa using hf.gs,
          by simpa using hf.xlat⟩
    · simp at h

/-- The pushes of a frame answer exactly when every address of the frame translates (R53, R298). -/
theorem pushAll_isOk {p : Params} {c : PushPlace} {vs : List Slot} {s : State} {as : List Nat}
    (h : frameAddrs s c vs.length (stackPtr s c.width) = .ok as) : ∃ t, pushAll p c vs s = .ok t := by
  induction vs generalizing s as with
  | nil => exact ⟨s, rfl⟩
  | cons v vs ih =>
    simp only [List.length_cons, frameAddrs] at h
    split at h
    · simp at h
    · next a ha =>
      split at h
      · simp at h
      · next rest hr =>
        have hpush := (push_eq_ok (p := p) (v := v)).mpr ⟨a, ha, rfl⟩
        simp only [pushAll, hpush]
        apply ih
        rw [stackPtr_setStackPtr _ _ _ _ (pushedPtr_lt _ _), frameAddrs_congr (s := s) (by simp) (by simp) (by simp)]
        exact hr

/-- With the identity translation every frame can be pushed. -/
theorem frameAddrs_identity {s : State} (h : s.pe = false ∨ s.xlat = []) (c : PushPlace) (n sp : Nat) :
    ∃ as, frameAddrs s c n sp = .ok as := by
  induction n generalizing sp with
  | zero => exact ⟨[], rfl⟩
  | succ n ih =>
    obtain ⟨as, ha⟩ := ih (pushedPtr c sp)
    refine ⟨linearRange s (c.base + BitVec.ofNat 64 (pushedPtr c sp)) c.size.bytes ++ as, ?_⟩
    simp only [frameAddrs, slotAddrs, physAddrs_identity h, ha]

end Sys2Proof.Machine
end

