-- ==== Sys2Proof/Laws/Delivery.lean ====
section
/-! SUPPORT. What each delivery procedure can do, said once: if it answers, then these checks passed and this is the
delivery. And what entering the handler does to each part of the state. -/

namespace Sys2Proof.Machine

/-! ## Entering the handler -/

/-- Everything that entering the handler does (R251). -/
structure Entered (d : Delivery) (s t : State) : Prop where
  rip : t.rip = d.rip
  eflags : t.eflags = d.eflags
  cpl : t.cpl = d.cpl
  cs : t.cs = d.cs
  ss : t.ss = d.ss
  ds : t.ds = if d.nullData then nullified s.ds else s.ds
  es : t.es = if d.nullData then nullified s.es else s.es
  fs : t.fs = if d.nullData then nullified s.fs else s.fs
  gs : t.gs = if d.nullData then nullified s.gs else s.gs
  pe : t.pe = s.pe
  vme : t.vme = s.vme
  lma : t.lma = s.lma
  idtr : t.idtr = s.idtr
  gdtr : t.gdtr = s.gdtr
  ldtr : t.ldtr = s.ldtr
  tr : t.tr = s.tr
  xlat : t.xlat = s.xlat
  draws : t.draws = d.draws + d.slots.length

theorem stackPtr_withHandlerRegisters (d : Delivery) (s : State) (w : StackWidth) :
    stackPtr (withHandlerRegisters d s) w = stackPtr s w := by cases w <;> rfl

/-- Entering the handler, if it answers: the cells stored are those of the frame, the stack pointer is below it, and the
registers are the delivery's. -/
theorem enterHandler_ok {p : Params} {d : Delivery} {s t : State} (h : enterHandler p d s = .ok t) :
    ∃ cells : List Host.Cell,
      frameAddrs s d.place d.slots.length (stackPtr (withHandlerStack d s) d.place.width)
        = .ok (cells.map Prod.fst) ∧
      t.mem = storeCells s.mem cells ∧
      stackPtr t d.place.width
        = pushedPtrs d.place d.slots.length (stackPtr (withHandlerStack d s) d.place.width) ∧
      Entered d s t := by
  unfold enterHandler at h
  split at h
  · next s1 h1 =>
    obtain rfl := Except.ok.inj h
    obtain ⟨cells, hc, hm, hp, hd, hf⟩ := pushAll_ok h1
    rw [frameAddrs_congr (s := s) (by simp) (by simp) (by simp)] at hc
    refine ⟨cells, hc, by simpa using hm, ?_, ?_⟩
    · rw [stackPtr_withHandlerRegisters, hp]
    · exact ⟨rfl, rfl, rfl, rfl, by simpa using hf.ss, by simp [hf.ds], by simp [hf.es], by simp [hf.fs],
        by simp [hf.gs], by simpa using hf.pe, by simpa using hf.vme, by simpa using hf.lma, by simpa using hf.idtr,
        by simpa using hf.gdtr, by simpa using hf.ldtr, by simpa using hf.tr, by simpa using hf.xlat,
        by simpa using hd⟩
  · simp at h

/-- The handler is entered whenever every address of the frame translates. -/
theorem enterHandler_isOk {p : Params} {d : Delivery} {s : State} {as : List Nat}
    (h : frameAddrs s d.place d.slots.length (stackPtr (withHandlerStack d s) d.place.width) = .ok as) :
    ∃ t, enterHandler p d s = .ok t := by
  rw [← frameAddrs_congr (s := s) (t := withHandlerStack d s) (by simp) (by simp) (by simp)] at h
  obtain ⟨t, ht⟩ := pushAll_isOk (p := p) h
  exact ⟨withHandlerRegisters d t, by simp only [enterHandler, ht]⟩

/-! ## The procedures -/

/-- REAL-ADDRESS-MODE answers exactly this (R130). -/
theorem realMode_eq_ok {ev : Event} {s : State} {d : Delivery} :
    realMode ev s = .ok d ↔
      ev.vector * 4 + 3 ≤ s.idtr.limit.toNat ∧ stackRoom realModeStack .w16 (stackPtr s .w16) 6 = .yes ∧
      ∃ entry, memRead s 4 (tableAddr s.idtr.base (ev.vector * 4)) = .ok entry ∧
        d = { ss := s.ss, rspLo := s.rspLo, rspHi := s.rspHi, place := realModePlace s, slots := realModeSlots s,
              cs := realModeCs s (BitVec.ofNat 16 (bits entry 31 16)),
              rip := writeEip s.rip (BitVec.ofNat 32 (bits entry 15 0)),
              cpl := s.cpl, eflags := eflagsAfterReal s.eflags, nullData := false, draws := s.draws } := by
  unfold realMode
  simp only [bind_eq_ok, stopIf_eq_ok, exists_const, requireRoom_eq_ok, decide_eq_false_iff_not, Nat.not_lt, pure, Except.pure,
    Except.ok.injEq, eq_comm (b := d)]

/-- PROTECTED-MODE's checks answer exactly this (R140 to R143). -/
theorem protectedGate_eq_ok {ev : Event} {s : State} {g : Gate} :
    protectedGate ev s = .ok g ↔
      ev.vector * 8 + 7 ≤ s.idtr.limit.toNat ∧
      ∃ raw, memRead s 8 (tableAddr s.idtr.base (ev.vector * 8)) = .ok raw ∧ g = gate8 raw ∧ g.kind ≠ .other ∧
        (ev.source.software && g.dpl.ult s.cpl) = false ∧ g.present = true := by
  unfold protectedGate
  simp only [bind_eq_ok, stopIf_eq_ok, exists_const, decide_eq_false_iff_not, Nat.not_lt, pure, Except.pure, Except.ok.injEq,
    beq_eq_false_iff_ne, Bool.not_eq_false']
  constructor
  · rintro ⟨h1, raw, hr, h2, h3, h4, rfl⟩
    exact ⟨h1, raw, hr, rfl, h2, h3, h4⟩
  · rintro ⟨h1, raw, hr, rfl, h2, h3, h4⟩
    exact ⟨h1, raw, hr, h2, h3, h4, rfl⟩

/-- IA-32e-MODE's checks answer exactly this (R146 to R148). -/
theorem longGate_eq_ok {p : Params} {ev : Event} {s : State} {g : Gate} :
    longGate p ev s = .ok g ↔
      ev.vector * 16 + 15 ≤ s.idtr.limit.toNat ∧
      allCanonical p.vaBits 16 (tableAddr s.idtr.base (ev.vector * 16)) = true ∧
      ∃ raw, memRead s 16 (tableAddr s.idtr.base (ev.vector * 16)) = .ok raw ∧ g = gate16 raw ∧ g.kind ≠ .other ∧
        (ev.source.software && g.dpl.ult s.cpl) = false ∧ g.present = true := by
  unfold longGate
  simp only [bind_eq_ok, stopIf_eq_ok, exists_const, decide_eq_false_iff_not, Nat.not_lt, pure, Except.pure, Except.ok.injEq,
    beq_eq_false_iff_ne, Bool.not_eq_false']
  constructor
  · rintro ⟨h1, h1', raw, hr, h2, h3, h4, rfl⟩
    exact ⟨h1, h1', raw, hr, rfl, h2, h3, h4⟩
  · rintro ⟨h1, h1', raw, hr, rfl, h2, h3, h4⟩
    exact ⟨h1, h1', raw, hr, h2, h3, h4, rfl⟩

/-- An IST read that answers lets both places of it through (log 27). -/
@[simp] theorem istCheckedFirst_ok (p : Params) (ist : Option Word64) : istCheckedFirst p (.ok ist) = .ok () := rfl

/-- An IST read that stops ends the delivery here only where it is placed first (log 27). -/
@[simp] theorem istCheckedFirst_error (p : Params) (e : Stop) :
    istCheckedFirst p (.error e) = if p.istReadFirst then .error e else .ok () := rfl

/-- TASK-GATE never answers a delivery: it faults or refuses (R157). -/
theorem taskGate_ne_ok {ev : Event} {s : State} {g : Gate} {d : Delivery} : taskGate ev s g ≠ .ok d := by
  unfold taskGate
  simp [bind_eq_ok, stopIf_eq_ok, refuse]

/-- The checks of the handler's code segment answer exactly this (R160 to R164, R168). -/
theorem handlerSegment_eq_ok {p : Params} {ev : Event} {s : State} {g : Gate} {d : SegDesc} :
    handlerSegment p ev s g = .ok d ↔
      selNull g.sel = false ∧ inTable s g.sel = true ∧
      (s.lma && !allCanonical p.vaBits 8 (descAddr s g.sel)) = false ∧ readDesc s g.sel = .ok d ∧
      (!d.isCode || s.cpl.ult d.dpl) = false ∧ (s.lma && (!d.l || d.db)) = false ∧ d.present = true := by
  unfold handlerSegment
  simp only [bind_eq_ok, stopIf_eq_ok, exists_const, pure, Except.pure, Except.ok.injEq, Bool.not_eq_false']
  constructor
  · rintro ⟨h1, h2, h3, d', hd, h4, h5, h6, rfl⟩
    exact ⟨h1, h2, h3, hd, h4, h5, h6⟩
  · rintro ⟨h1, h2, h3, hd, h4, h5, h6⟩
    exact ⟨h1, h2, h3, d, hd, h4, h5, h6, rfl⟩

/-- The checks of a new stack segment answer exactly this (R184, R185, R202). -/
theorem newStackSegment_eq_ok {s : State} {ext : Bool} {n : BitVec 2} {sel : Word16} {d : SegDesc} :
    newStackSegment s ext n sel = .ok d ↔
      selNull sel = false ∧ inTable s sel = true ∧ selRpl sel = n ∧ readDesc s sel = .ok d ∧ d.dpl = n ∧
      d.isWritableData = true ∧ d.present = true := by
  unfold newStackSegment
  simp only [bind_eq_ok, stopIf_eq_ok, exists_const, pure, Except.pure, Except.ok.injEq, Bool.not_eq_false',
    Bool.or_eq_false_iff, bne_eq_false_iff_eq]
  constructor
  · rintro ⟨h1, ⟨h2, h3⟩, d', hd, ⟨h4, h5⟩, h6, rfl⟩
    exact ⟨h1, h2, h3, hd, h4, h5, h6⟩
  · rintro ⟨h1, h2, h3, hd, h4, h5, h6⟩
    exact ⟨h1, ⟨h2, h3⟩, d, hd, ⟨h4, h5⟩, h6, rfl⟩

/-- INTER-PRIVILEGE-LEVEL-INTERRUPT with LMA = 0 answers exactly this (R180 to R190). -/
theorem interLegacy_eq_ok {p : Params} {ev : Event} {s : State} {g : Gate} {d : SegDesc} {r : Delivery} :
    interLegacy p ev s g d = .ok r ↔
      ∃ newSp newSs sd, interStack p s none d.dpl = .ok (newSp, newSs) ∧
        newStackSegment s ev.ext d.dpl newSs = .ok sd ∧
        stackRoom sd.hidden (stackWidthOf sd.hidden) (newSp.toNat % (stackWidthOf sd.hidden).modulus)
          ((interSlots ev s).length * g.size.bytes) = .yes ∧
        inLimit d.hidden g.off.toNat g.off.toNat = true ∧
        r = { ss := { sel := newSs, hidden := sd.hidden }, rspLo := newSp.setWidth 32, rspHi := p.rspHigh s.draws,
              place := { base := sd.base.setWidth 64, width := stackWidthOf sd.hidden, size := g.size,
                         priv := .supervisor },
              slots := interSlots ev s, cs := { sel := withRpl g.sel d.dpl, hidden := d.hidden },
              rip := writeEip s.rip (g.off.setWidth 32), cpl := d.dpl, eflags := eflagsAfterGate g.kind s.eflags,
              nullData := false, draws := s.draws + 1 } := by
  unfold interLegacy
  simp only [bind_eq_ok, stopIf_eq_ok, exists_const, requireRoom_eq_ok, pure, Except.pure, Except.ok.injEq, Bool.not_eq_false',
    Prod.exists, exists_and_left, eq_comm (b := r)]

/-- INTER-PRIVILEGE-LEVEL-INTERRUPT with LMA = 1 answers exactly this (R180, R183, R186 to R191). -/
theorem interLong_eq_ok {p : Params} {ev : Event} {s : State} {g : Gate} {ist : Option Word64} {d : SegDesc}
    {r : Delivery} :
    interLong p ev s g ist d = .ok r ↔
      ∃ newSp newSs, interStack p s ist d.dpl = .ok (newSp, newSs) ∧
        allCanonical p.vaBits ((interSlots ev s).length * g.size.bytes)
          (alignTop p newSp - BitVec.ofNat 64 ((interSlots ev s).length * g.size.bytes)) = true ∧
        canonical p.vaBits g.off = true ∧
        r = { ss := nullStackSegment p s d.dpl, rspLo := (alignTop p newSp).setWidth 32,
              rspHi := (alignTop p newSp).extractLsb' 32 32,
              place := { base := 0#64, width := .w64, size := g.size, priv := .supervisor },
              slots := interSlots ev s, cs := { sel := withRpl g.sel d.dpl, hidden := d.hidden }, rip := g.off,
              cpl := d.dpl, eflags := eflagsAfterGate g.kind s.eflags, nullData := false, draws := s.draws + 1 } := by
  unfold interLong
  simp only [bind_eq_ok, stopIf_eq_ok, exists_const, requireCanonicalFrame_eq_ok, pure, Except.pure, Except.ok.injEq,
    Bool.not_eq_false', Prod.exists, eq_comm (b := r)]

/-- INTERRUPT-FROM-VIRTUAL-8086-MODE answers exactly this (R200 to R208). -/
theorem fromV86_eq_ok {p : Params} {ev : Event} {s : State} {g : Gate} {d : SegDesc} {r : Delivery} :
    fromV86 p ev s g d = .ok r ↔
      ∃ newSp newSs sd, v86Stack s d.dpl = .ok (newSp, newSs) ∧ newStackSegment s ev.ext d.dpl newSs = .ok sd ∧
        v86Room p ev g sd newSs (p.rspHigh s.draws) newSp ((v86Slots ev s).length * g.size.bytes) = .ok () ∧
        inLimit d.hidden g.off.toNat g.off.toNat = true ∧
        r = { ss := { sel := newSs, hidden := sd.hidden }, rspLo := newSp, rspHi := p.rspHigh s.draws,
              place := { base := v86Base g sd, width := v86Width g sd, size := g.size, priv := .supervisor },
              slots := v86Slots ev s, cs := { sel := withRpl g.sel 0#2, hidden := d.hidden },
              rip := writeEip s.rip (v86Ip g), cpl := 0#2, eflags := eflagsAfterGate g.kind s.eflags,
              nullData := true, draws := s.draws + 1 } := by
  unfold fromV86
  simp only [bind_eq_ok, stopIf_eq_ok, exists_const, pure, Except.pure, Except.ok.injEq, Bool.not_eq_false', Prod.exists,
    exists_const, exists_and_left, eq_comm (b := r)]
  constructor
  · rintro ⟨a, b, h1, sd, h2, u, h3, h4, h5⟩
    exact ⟨a, b, h1, sd, h2, h3, h4, h5⟩
  · rintro ⟨a, b, h1, sd, h2, h3, h4, h5⟩
    exact ⟨a, b, h1, sd, h2, (), h3, h4, h5⟩

/-- INTRA-PRIVILEGE-LEVEL-INTERRUPT with LMA = 0 answers exactly this (R220, R221, R224 to R227). -/
theorem intraLegacy_eq_ok {ev : Event} {s : State} {g : Gate} {d : SegDesc} {r : Delivery} :
    intraLegacy ev s g d = .ok r ↔
      stackRoom s.ss.hidden (stackWidthOf s.ss.hidden) (stackPtr s (stackWidthOf s.ss.hidden))
          ((intraLegacySlots ev s).length * g.size.bytes) = .yes ∧
        inLimit d.hidden g.off.toNat g.off.toNat = true ∧
        r = { ss := s.ss, rspLo := s.rspLo, rspHi := s.rspHi,
              place := { base := s.ss.hidden.base.setWidth 64, width := stackWidthOf s.ss.hidden, size := g.size,
                         priv := cplPriv s },
              slots := intraLegacySlots ev s, cs := { sel := withRpl g.sel s.cpl, hidden := d.hidden },
              rip := writeEip s.rip (g.off.setWidth 32), cpl := s.cpl, eflags := eflagsAfterGate g.kind s.eflags,
              nullData := false, draws := s.draws } := by
  unfold intraLegacy
  simp only [bind_eq_ok, stopIf_eq_ok, exists_const, requireRoom_eq_ok, pure, Except.pure, Except.ok.injEq, Bool.not_eq_false',
    exists_const, eq_comm (b := r)]

/-- INTRA-PRIVILEGE-LEVEL-INTERRUPT with LMA = 1 answers exactly this (R220, R222 to R227). -/
theorem intraLong_eq_ok {p : Params} {ev : Event} {s : State} {g : Gate} {ist : Option Word64} {d : SegDesc}
    {r : Delivery} :
    intraLong p ev s g ist d = .ok r ↔
      allCanonical p.vaBits ((intraLongSlots ev s).length * g.size.bytes)
          (alignTop p (ist.getD (rsp s)) - BitVec.ofNat 64 ((intraLongSlots ev s).length * g.size.bytes)) = true ∧
        canonical p.vaBits g.off = true ∧
        r = { ss := s.ss, rspLo := (alignTop p (ist.getD (rsp s))).setWidth 32,
              rspHi := (alignTop p (ist.getD (rsp s))).extractLsb' 32 32,
              place := { base := 0#64, width := .w64, size := g.size,
                         priv := if ist.isSome then .supervisor else cplPriv s },
              slots := intraLongSlots ev s, cs := { sel := withRpl g.sel s.cpl, hidden := d.hidden }, rip := g.off,
              cpl := s.cpl, eflags := eflagsAfterGate g.kind s.eflags, nullData := false, draws := s.draws } := by
  unfold intraLong
  simp only [bind_eq_ok, stopIf_eq_ok, exists_const, requireCanonicalFrame_eq_ok, pure, Except.pure, Except.ok.injEq,
    Bool.not_eq_false', exists_const, eq_comm (b := r)]

/-! ## The dispatch -/

/-- DELIVER answers exactly when the checks answer a delivery and its handler can be entered (R105). -/
theorem deliver_eq_ok {p : Params} {ev : Event} {s t : State} :
    deliver p ev s = .ok t ↔ ∃ d, deliveryOf p ev s = .ok d ∧ enterHandler p d s = .ok t := by
  unfold deliver
  cases deliveryOf p ev s <;> simp

/-- Which procedure made a delivery, with what it was given (R105, R144, R160, R165 to R167). -/
inductive MadeBy (p : Params) (ev : Event) (s : State) (d : Delivery) : Prop where
  | real (hpe : s.pe = false) (h : realMode ev s = .ok d)
  | interLegacy (hpe : s.pe = true) (hl : s.lma = false) (hv : flagVM s.eflags = false) (g : Gate) (c : SegDesc)
      (hg : protectedGate ev s = .ok g) (hk : g.kind ≠ .task) (hc : handlerSegment p ev s g = .ok c)
      (hd : c.dpl.ult s.cpl = true)
      (hn : c.isConforming = false) (h : interLegacy p ev s g c = .ok d)
  | intraLegacy (hpe : s.pe = true) (hl : s.lma = false) (hv : flagVM s.eflags = false) (g : Gate) (c : SegDesc)
      (hg : protectedGate ev s = .ok g) (hk : g.kind ≠ .task) (hc : handlerSegment p ev s g = .ok c)
      (hd : (!c.isConforming && c.dpl.ult s.cpl) = false) (h : intraLegacy ev s g c = .ok d)
  | interLong (hpe : s.pe = true) (hl : s.lma = true) (hv : flagVM s.eflags = false) (g : Gate) (ist : Option Word64)
      (c : SegDesc) (hg : longGate p ev s = .ok g) (hi : istPointer p s g = .ok ist)
      (hc : handlerSegment p ev s g = .ok c)
      (hd : c.dpl.ult s.cpl = true) (hn : c.isConforming = false) (h : interLong p ev s g ist c = .ok d)
  | intraLong (hpe : s.pe = true) (hl : s.lma = true) (hv : flagVM s.eflags = false) (g : Gate) (ist : Option Word64)
      (c : SegDesc) (hg : longGate p ev s = .ok g) (hi : istPointer p s g = .ok ist)
      (hc : handlerSegment p ev s g = .ok c)
      (hd : (!c.isConforming && c.dpl.ult s.cpl) = false) (h : intraLong p ev s g ist c = .ok d)
  | fromV86 (hpe : s.pe = true) (hv : flagVM s.eflags = true) (g : Gate) (c : SegDesc)
      (hg : s.lma = false ∧ protectedGate ev s = .ok g ∧ g.kind ≠ .task ∨ s.lma = true ∧ longGate p ev s = .ok g ∧ ∃ ist, istPointer p s g = .ok ist)
      (hc : handlerSegment p ev s g = .ok c) (hd : c.dpl = 0#2) (hn : c.isConforming = false)
      (hcpl : c.dpl.ult s.cpl = true) (h : fromV86 p ev s g c = .ok d)

/-- The transfer, said once (R165 to R167). -/
theorem transfer_eq_ok {p : Params} {ev : Event} {s : State} {g : Gate} {ist : Res (Option Word64)} {c : SegDesc}
    {d : Delivery} (h : transfer p ev s g ist c = .ok d) :
    (c.isConforming = false ∧ c.dpl.ult s.cpl = true ∧
        (flagVM s.eflags = false ∧
            (s.lma = true ∧ (∃ top, ist = .ok top ∧ interLong p ev s g top c = .ok d) ∨
              s.lma = false ∧ interLegacy p ev s g c = .ok d) ∨
          flagVM s.eflags = true ∧ c.dpl = 0#2 ∧ (∃ top, ist = .ok top) ∧ fromV86 p ev s g c = .ok d)) ∨
      ((!c.isConforming && c.dpl.ult s.cpl) = false ∧ flagVM s.eflags = false ∧
        (s.lma = true ∧ (∃ top, ist = .ok top ∧ intraLong p ev s g top c = .ok d) ∨
          s.lma = false ∧ intraLegacy ev s g c = .ok d)) := by
  unfold transfer at h
  split at h
  · next h1 =>
    simp only [Bool.and_eq_true, Bool.not_eq_true'] at h1
    refine .inl ⟨h1.1, h1.2, ?_⟩
    split at h
    · next h2 =>
      refine .inl ⟨by simpa using h2, ?_⟩
      split at h
      · next h3 => exact .inl ⟨h3, bind_eq_ok.mp h⟩
      · next h3 => exact .inr ⟨by simpa using h3, h⟩
    · next h2 =>
      split at h
      · simp [raise] at h
      · next h3 =>
        obtain ⟨top, hi, h⟩ := bind_eq_ok.mp h
        exact .inr ⟨by simpa using h2, by simpa using h3, ⟨top, hi⟩, h⟩
  · next h1 =>
    refine .inr ⟨by simpa using h1, ?_⟩
    split at h
    · simp [raise] at h
    · next h2 =>
      refine ⟨by simpa using h2, ?_⟩
      split at h
      · next h3 => exact .inl ⟨h3, bind_eq_ok.mp h⟩
      · next h3 => exact .inr ⟨by simpa using h3, h⟩

/-- Every delivery was made by one of the six transfer procedures. -/
theorem deliveryOf_madeBy {p : Params} {ev : Event} {s : State} {d : Delivery} (h : deliveryOf p ev s = .ok d) :
    MadeBy p ev s d := by
  unfold deliveryOf at h
  split at h
  · next hpe => exact .real (by simpa using hpe) h
  · next hpe =>
    have hpe : s.pe = true := by simpa using hpe
    split at h
    · simp [refuse] at h
    split at h
    · simp [raise] at h
    split at h
    · next hl =>
      have hl : s.lma = false := by simpa using hl
      unfold protectedMode at h
      split at h
      · next g hg =>
        split at h
        · exact absurd h taskGate_ne_ok
        · next hk =>
          unfold trapOrInterruptGate at h
          split at h
          · next c hc =>
            rcases transfer_eq_ok h with ⟨hn, hd, ⟨hv, ⟨hl', _⟩ | ⟨_, h⟩⟩ | ⟨hv, h0, _, h⟩⟩ | ⟨hd, hv, ⟨hl', _⟩ | ⟨_, h⟩⟩
            · simp [hl] at hl'
            · exact .interLegacy hpe hl hv g c hg hk hc hd hn h
            · exact .fromV86 hpe hv g c (.inl ⟨hl, hg, hk⟩) hc h0 hn hd h
            · simp [hl] at hl'
            · exact .intraLegacy hpe hl hv g c hg hk hc hd h
          · simp at h
      · simp at h
    · next hl =>
      have hl : s.lma = true := by simpa using hl
      simp only [longMode, bind_eq_ok] at h
      obtain ⟨g, hg, _, _, h⟩ := h
      unfold trapOrInterruptGate at h
      split at h
      · next c hc =>
        rcases transfer_eq_ok h with ⟨hn, hd, ⟨hv, ⟨_, ist, hi, h⟩ | ⟨hl', _⟩⟩ | ⟨hv, h0, hi, h⟩⟩ | ⟨hd, hv, ⟨_, ist, hi, h⟩ | ⟨hl', _⟩⟩
        · exact .interLong hpe hl hv g ist c hg hi hc hd hn h
        · simp [hl] at hl'
        · exact .fromV86 hpe hv g c (.inr ⟨hl, hg, hi⟩) hc h0 hn hd h
        · exact .intraLong hpe hl hv g ist c hg hi hc hd h
        · simp [hl] at hl'
      · simp at h

end Sys2Proof.Machine
end

