-- ==== Sys2Proof/Laws/Exec.lean ====
section
/-! SUPPORT. What `exec` does before a delivery, said once; and that the advanced instruction pointer changes nothing that
a table read looks at. -/

namespace Sys2Proof.Machine

/-! ## The advance changes only the instruction pointer and the draw counter -/

@[simp] theorem advanceIp_opMode (p : Params) (len : Nat) (s : State) : opMode (advanceIp p len s) = opMode s := by
  simp [opMode]

@[simp] theorem advanceIp_inMode64 (p : Params) (len : Nat) (s : State) : inMode64 (advanceIp p len s) = inMode64 s := by
  simp [inMode64]

@[simp] theorem advanceIp_lawful (p : Params) (len : Nat) (s : State) : lawful (advanceIp p len s) = lawful s := by
  simp [lawful]

@[simp] theorem advanceIp_cplPriv (p : Params) (len : Nat) (s : State) : cplPriv (advanceIp p len s) = cplPriv s := by
  simp [cplPriv]

@[simp] theorem advanceIp_rsp (p : Params) (len : Nat) (s : State) : rsp (advanceIp p len s) = rsp s := by
  simp [rsp]

@[simp] theorem advanceIp_stackPtr (p : Params) (len : Nat) (s : State) (w : StackWidth) :
    stackPtr (advanceIp p len s) w = stackPtr s w := by
  cases w <;> simp [stackPtr]

@[simp] theorem advanceIp_memRead (p : Params) (len : Nat) (s : State) (n : Nat) (a : Word64) :
    memRead (advanceIp p len s) n a = memRead s n a := by
  unfold memRead
  rw [physAddrs_congr (s := s) (by simp) (by simp) (by simp)]
  simp

@[simp] theorem advanceIp_inTable (p : Params) (len : Nat) (s : State) (sel : Word16) :
    inTable (advanceIp p len s) sel = inTable s sel := by
  simp [inTable]

@[simp] theorem advanceIp_descAddr (p : Params) (len : Nat) (s : State) (sel : Word16) :
    descAddr (advanceIp p len s) sel = descAddr s sel := by
  simp [descAddr, tableBase]

@[simp] theorem advanceIp_readDesc (p : Params) (len : Nat) (s : State) (sel : Word16) :
    readDesc (advanceIp p len s) sel = readDesc s sel := by
  simp [readDesc]

@[simp] theorem advanceIp_tssFault (p : Params) (len : Nat) (s : State) : tssFault (advanceIp p len s) = tssFault s := by
  simp [tssFault]

@[simp] theorem advanceIp_readTss64 (p q : Params) (len : Nat) (s : State) (off : Nat) :
    readTss64 q (advanceIp p len s) off = readTss64 q s off := by
  simp [readTss64]

@[simp] theorem advanceIp_readTss32Stack (p : Params) (len : Nat) (s : State) (n : BitVec 2) :
    readTss32Stack (advanceIp p len s) n = readTss32Stack s n := by
  simp [readTss32Stack]

@[simp] theorem advanceIp_readTss16Stack (p : Params) (len : Nat) (s : State) (n : BitVec 2) :
    readTss16Stack (advanceIp p len s) n = readTss16Stack s n := by
  simp [readTss16Stack]

@[simp] theorem advanceIp_newStackSegment (p : Params) (len : Nat) (s : State) (ext : Bool) (n : BitVec 2)
    (sel : Word16) : newStackSegment (advanceIp p len s) ext n sel = newStackSegment s ext n sel := by
  simp [newStackSegment]

@[simp] theorem advanceIp_protectedGate (p : Params) (len : Nat) (ev : Event) (s : State) :
    protectedGate ev (advanceIp p len s) = protectedGate ev s := by
  simp [protectedGate]

@[simp] theorem advanceIp_istPointer (p q : Params) (len : Nat) (s : State) (g : Gate) :
    istPointer q (advanceIp p len s) g = istPointer q s g := by
  simp [istPointer]

@[simp] theorem advanceIp_longGate (p q : Params) (len : Nat) (ev : Event) (s : State) :
    longGate q ev (advanceIp p len s) = longGate q ev s := by
  simp [longGate]

@[simp] theorem advanceIp_taskGate (p : Params) (len : Nat) (ev : Event) (s : State) (g : Gate) :
    taskGate ev (advanceIp p len s) g = taskGate ev s g := by
  simp [taskGate]

@[simp] theorem advanceIp_handlerSegment (p q : Params) (len : Nat) (ev : Event) (s : State) (g : Gate) :
    handlerSegment q ev (advanceIp p len s) g = handlerSegment q ev s g := by
  simp [handlerSegment]

@[simp] theorem advanceIp_interStack (p q : Params) (len : Nat) (s : State) (ist : Option Word64) (n : BitVec 2) :
    interStack q (advanceIp p len s) ist n = interStack q s ist n := by
  simp [interStack]

@[simp] theorem advanceIp_v86Stack (p : Params) (len : Nat) (s : State) (n : BitVec 2) :
    v86Stack (advanceIp p len s) n = v86Stack s n := by
  simp [v86Stack]

@[simp] theorem advanceIp_frameAddrs (p : Params) (len : Nat) (s : State) (c : PushPlace) (n sp : Nat) :
    frameAddrs (advanceIp p len s) c n sp = frameAddrs s c n sp :=
  frameAddrs_congr (by simp) (by simp) (by simp) c n sp

@[simp] theorem eipOf_writeEip (rip : Word64) (v : Word32) : (writeEip rip v).setWidth 32 = v := by
  have h : (rip.extractLsb' 32 32 ++ v).setWidth 32 = v := by
    rw [BitVec.setWidth_append]
    simp
  exact h

/-- The saved instruction pointer is the return address where that fits its register (R23). -/
theorem savedIp_advanced {i : Instr} {s : State} (h : ReturnFits i s) :
    (savedIp (advanced i s)).toNat = returnIp i s := by
  unfold ReturnFits at h
  unfold returnIp savedIp advanced
  rw [advanceIp_inMode64]
  split at h
  · next hm =>
    simp only [hm, if_true]
    have h' : s.rip.toNat + lengthOf i < 2 ^ 64 := h
    simp only [advanceIp, hm, h', if_true, BitVec.toNat_add, BitVec.toNat_ofNat]
    omega
  · next hm =>
    simp only [hm]
    have h' : (eip s).toNat + lengthOf i < 2 ^ 32 := h
    have ha : eip (advanceIp Config.params (lengthOf i) s) = eip s + BitVec.ofNat 32 (lengthOf i) := by
      simp only [advanceIp, hm, h', if_true, if_false, Bool.false_eq_true]
      simp only [eip, eipOf_writeEip]
    rw [ha]
    simp only [if_false, Bool.false_eq_true, BitVec.toNat_setWidth, BitVec.toNat_add, BitVec.toNat_ofNat]
    omega

/-- The advance leaves RIP[63:32] outside 64-bit mode. -/
theorem writeEip_writeEip (rip : Word64) (v w : Word32) : writeEip (writeEip rip v) w = writeEip rip w := by
  unfold writeEip
  rw [BitVec.extractLsb'_append_eq_left]

theorem writeEip_advanced {i : Instr} {s : State} (h : inMode64 s = false) (w : Word32) :
    writeEip (advanced i s).rip w = writeEip s.rip w := by
  unfold advanced advanceIp
  simp only [h, Bool.false_eq_true, if_false]
  split <;> simp only [writeEip_writeEip]

/-! ## The checks before the delivery -/

theorem exec_unlawful {i : Instr} {s : State} (h : lawful s = false) : exec i s = .refused .brokenInvariant := by
  cases i <;>
    simp [exec, execInt3, execIntImm8, execInto, int3With, intImm8With, intoWith, afterPreChecks, h, refuse, toOutcome]

theorem exec_lock {i : Instr} {s : State} (h : lawful s = true) (hl : i.lock = true) : exec i s = .fault .ud := by
  cases i <;> simp only [Instr.lock] at hl <;>
    simp [exec, execInt3, execIntImm8, execInto, int3With, intImm8With, intoWith, afterPreChecks, h, hl, raise, toOutcome]

theorem exec_into_mode64 {l : Bool} {s : State} (h : lawful s = true) (hm : opMode s = .mode64) :
    exec (.into l) s = .fault .ud := by
  simp [exec, execInto, intoWith, afterPreChecks, h, hm, raise, toOutcome, Instr.validIn]

theorem validIn_into {l : Bool} {m : OpMode} (h : m ≠ .mode64) : (Instr.into l).validIn m = true := by
  cases m <;> simp_all [Instr.validIn]

theorem exec_into_noOverflow {s : State} (h : lawful s = true) (hm : opMode s ≠ .mode64)
    (ho : flagOF s.eflags = false) : exec (.into false) s = .next (advanced (.into false) s) := by
  simp [exec, execInto, intoWith, afterPreChecks, h, validIn_into hm, intoOwn, ho, toOutcome, advanced, lengthOf]

/-- Where an instruction delivers, its outcome is the delivery's, on the advanced state (R101 to R104). -/
theorem exec_delivers {i : Instr} {s : State} (h : Delivers i s) :
    exec i s = toOutcome (deliver Config.params (eventOf i) (advanced i s)) := by
  obtain ⟨hs, hl, ho⟩ := h
  cases i with
  | int3 l =>
    simp only [Instr.lock] at hl
    simp [exec, execInt3, int3With, afterPreChecks, hs, hl, advanced, lengthOf, eventOf, sourceOf, vectorOf]
  | intImm8 l ib =>
    simp only [Instr.lock] at hl
    simp [exec, execIntImm8, intImm8With, afterPreChecks, hs, hl, advanced, lengthOf, eventOf, sourceOf, vectorOf]
  | into l =>
    simp only [Instr.lock] at hl
    subst hl
    obtain ⟨ho, hm⟩ := ho rfl
    simp [exec, execInto, intoWith, afterPreChecks, hs, validIn_into hm, intoOwn, ho, advanced, lengthOf, eventOf,
      sourceOf, vectorOf]

/-- Everything `exec` can do (R101 to R104): refuse a broken invariant, raise #UD, only advance, or deliver. -/
theorem exec_cases (i : Instr) (s : State) :
    (lawful s = false ∧ exec i s = .refused .brokenInvariant) ∨
    (lawful s = true ∧ (i.lock = true ∨ sourceOf i = .into ∧ opMode s = .mode64) ∧ exec i s = .fault .ud) ∨
    (lawful s = true ∧ i = .into false ∧ opMode s ≠ .mode64 ∧ flagOF s.eflags = false ∧
      exec i s = .next (advanced i s)) ∨
    (Delivers i s ∧ exec i s = toOutcome (deliver Config.params (eventOf i) (advanced i s))) := by
  by_cases hs : lawful s = true
  · by_cases hl : i.lock = true
    · exact .inr (.inl ⟨hs, .inl hl, exec_lock hs hl⟩)
    · have hl : i.lock = false := by simpa using hl
      by_cases hi : i = .into false
      · by_cases hm : opMode s = .mode64
        · subst hi
          exact .inr (.inl ⟨hs, .inr ⟨rfl, hm⟩, exec_into_mode64 hs hm⟩)
        · by_cases ho : flagOF s.eflags = true
          · have hd : Delivers i s := ⟨hs, hl, fun _ => ⟨ho, hm⟩⟩
            exact .inr (.inr (.inr ⟨hd, exec_delivers hd⟩))
          · have ho : flagOF s.eflags = false := by simpa using ho
            subst hi
            exact .inr (.inr (.inl ⟨hs, rfl, hm, ho, exec_into_noOverflow hs hm ho⟩))
      · have hd : Delivers i s := ⟨hs, hl, fun h => absurd h hi⟩
        exact .inr (.inr (.inr ⟨hd, exec_delivers hd⟩))
  · have hs : lawful s = false := by simpa using hs
    exact .inl ⟨hs, exec_unlawful hs⟩

/-- Every next state of `exec`: INTO without overflow, or a delivery. -/
theorem exec_next {i : Instr} {s t : State} (h : exec i s = .next t) :
    (¬ Delivers i s ∧ inMode64 s = false ∧ t = advanced i s) ∨
    (Delivers i s ∧ ∃ d, deliveryOf Config.params (eventOf i) (advanced i s) = .ok d ∧
      enterHandler Config.params d (advanced i s) = .ok t) := by
  rcases exec_cases i s with ⟨_, he⟩ | ⟨_, _, he⟩ | ⟨_, rfl, hm, ho, he⟩ | ⟨hd, he⟩
  · rw [he] at h; cases h
  · rw [he] at h; cases h
  · rw [he] at h
    cases h
    refine .inl ⟨fun hd => ?_, by simpa [inMode64] using hm, rfl⟩
    rw [(hd.2.2 rfl).1] at ho
    cases ho
  · rw [he, toOutcome_eq_next, deliver_eq_ok] at h
    exact .inr ⟨hd, h⟩

end Sys2Proof.Machine
end

