-- ==== Sys2Proof/Laws/AfterFault.lean ====
section
/-! SUPPORT. The state that a fault leaves (R241), said once. -/

namespace Sys2Proof.Machine

/-! ## An open frame changes memory and the draw counter alone -/

@[simp] theorem withOpenFrame_rspLo (p : Params) (d : Delivery) (s : State) : (withOpenFrame p d s).rspLo = s.rspLo := rfl
@[simp] theorem withOpenFrame_rspHi (p : Params) (d : Delivery) (s : State) : (withOpenFrame p d s).rspHi = s.rspHi := rfl
@[simp] theorem withOpenFrame_rip (p : Params) (d : Delivery) (s : State) : (withOpenFrame p d s).rip = s.rip := rfl
@[simp] theorem withOpenFrame_eflags (p : Params) (d : Delivery) (s : State) : (withOpenFrame p d s).eflags = s.eflags := rfl
@[simp] theorem withOpenFrame_cpl (p : Params) (d : Delivery) (s : State) : (withOpenFrame p d s).cpl = s.cpl := rfl
@[simp] theorem withOpenFrame_pe (p : Params) (d : Delivery) (s : State) : (withOpenFrame p d s).pe = s.pe := rfl
@[simp] theorem withOpenFrame_vme (p : Params) (d : Delivery) (s : State) : (withOpenFrame p d s).vme = s.vme := rfl
@[simp] theorem withOpenFrame_lma (p : Params) (d : Delivery) (s : State) : (withOpenFrame p d s).lma = s.lma := rfl
@[simp] theorem withOpenFrame_idtr (p : Params) (d : Delivery) (s : State) : (withOpenFrame p d s).idtr = s.idtr := rfl
@[simp] theorem withOpenFrame_gdtr (p : Params) (d : Delivery) (s : State) : (withOpenFrame p d s).gdtr = s.gdtr := rfl
@[simp] theorem withOpenFrame_ldtr (p : Params) (d : Delivery) (s : State) : (withOpenFrame p d s).ldtr = s.ldtr := rfl
@[simp] theorem withOpenFrame_tr (p : Params) (d : Delivery) (s : State) : (withOpenFrame p d s).tr = s.tr := rfl
@[simp] theorem withOpenFrame_cs (p : Params) (d : Delivery) (s : State) : (withOpenFrame p d s).cs = s.cs := rfl
@[simp] theorem withOpenFrame_ss (p : Params) (d : Delivery) (s : State) : (withOpenFrame p d s).ss = s.ss := rfl
@[simp] theorem withOpenFrame_ds (p : Params) (d : Delivery) (s : State) : (withOpenFrame p d s).ds = s.ds := rfl
@[simp] theorem withOpenFrame_es (p : Params) (d : Delivery) (s : State) : (withOpenFrame p d s).es = s.es := rfl
@[simp] theorem withOpenFrame_fs (p : Params) (d : Delivery) (s : State) : (withOpenFrame p d s).fs = s.fs := rfl
@[simp] theorem withOpenFrame_gs (p : Params) (d : Delivery) (s : State) : (withOpenFrame p d s).gs = s.gs := rfl
@[simp] theorem withOpenFrame_xlat (p : Params) (d : Delivery) (s : State) : (withOpenFrame p d s).xlat = s.xlat := rfl

/-! ## The bytes of an open frame -/

/-- The free cells stand at the addresses given. -/
theorem freeCells_addrs (p : Params) (draw : Nat) (as : List Nat) : (freeCells p draw as).map Prod.fst = as := by
  induction as generalizing draw with
  | nil => rfl
  | cons a as ih => simp [freeCells, ih]

/-- A byte at which free cells were stored reads as a free value. -/
theorem readByte_freeCells (p : Params) (draw : Nat) (as : List Nat) (m : Memory) {x : Nat} (h : x ∈ as) :
    ∃ k, readByte (storeCells m (freeCells p draw as)) x = p.frameByte k := by
  induction as generalizing draw m with
  | nil => simp at h
  | cons a as ih =>
    simp only [freeCells, storeCells]
    by_cases hx : x ∈ as
    · exact ih _ _ hx
    · obtain rfl : x = a := by simpa [hx] using h
      refine ⟨draw, ?_⟩
      rw [readByte_storeCells_other _ _ _ (by rwa [freeCells_addrs]), readByte_writeByte_same]

/-- A byte of an open frame: free in the frame region, as it was elsewhere. -/
theorem readByte_withOpenFrame (p : Params) (d : Delivery) (s : State) (x : Nat) :
    if x ∈ deliveryRegion d s then ∃ k, readByte (withOpenFrame p d s).mem x = p.frameByte k
    else readByte (withOpenFrame p d s).mem x = readByte s.mem x := by
  split
  · next h => exact readByte_freeCells _ _ _ _ h
  · next h => exact readByte_storeCells_other _ _ _ (by rwa [freeCells_addrs])

/-- An open frame keeps memory in its canonical form. -/
theorem withOpenFrame_wf (p : Params) (d : Delivery) (s : State) (h : Memory.wf s.mem = true) :
    Memory.wf (withOpenFrame p d s).mem = true := storeCells_wf _ _ h

/-- Where every byte of a slot translates, the translated addresses are the slot's. -/
theorem translatedAddrs_eq {s : State} {c : PushPlace} {n : Nat} {a : Word64} {as : List Nat}
    (h : physAddrs s .write c.priv n a = .ok as) : translatedAddrs s c n a = as := by
  induction n generalizing a as with
  | zero => exact Except.ok.inj h
  | succ n ih =>
    simp only [physAddrs] at h
    split at h
    · simp [raise] at h
    · next x hx =>
      split at h
      · next ps hps => rw [translatedAddrs, hx, ← Except.ok.inj h]; simp only [ih hps]
      · simp at h

/-- Where the whole frame translates, its region is the addresses that the pushes store to. -/
theorem frameRegion_eq {s : State} {c : PushPlace} {n sp : Nat} {as : List Nat} (h : frameAddrs s c n sp = .ok as) :
    frameRegion s c n sp = as := by
  induction n generalizing sp as with
  | zero => exact Except.ok.inj h
  | succ n ih =>
    simp only [frameAddrs] at h
    split at h
    · simp at h
    · next bs hb =>
      split at h
      · simp at h
      · next rest hr =>
        rw [frameRegion, translatedAddrs_eq hb, ih hr]
        exact Except.ok.inj h

/-! ## Everything that the attached state can be -/

/-- The state attached to a fault: the one before the instruction, or that with its frame region open, the latter only where
the checks of the delivery have passed and a push stops. -/
theorem faultState_cases (i : Instr) (s : State) :
    faultState i s = s ∨
      ∃ d e, deliveryOf Config.params (eventOf i) (advanced i s) = .ok d ∧
        enterHandler Config.params d (advanced i s) = .error e ∧ faultState i s = withOpenFrame Config.params d s := by
  unfold faultState deliveryFaultState
  split
  · exact .inl rfl
  · split
    · exact .inl rfl
    · next d hd =>
      split
      · exact .inl rfl
      · next e he => exact .inr ⟨d, e, hd, he, rfl⟩

end Sys2Proof.Machine
end

