-- ==== Sys2Proof/Laws/Fetch.lean ====
section
/-! SUPPORT. Fetching, and placing an instruction where the fetch reads it. -/

namespace Sys2Proof.Machine

/-- Placing bytes keeps memory in its canonical form. -/
theorem placeBytes_wf (s : State) (i : Nat) (bs : List Byte) (h : Memory.wf s.mem = true) :
    Memory.wf (placeBytes s i bs).mem = true := by
  induction bs generalizing s i with
  | nil => exact h
  | cons b bs ih =>
    simp only [placeBytes]
    split
    · exact ih _ _ (writeByte_wf _ _ _ h)
    · exact ih _ _ h

/-- Placing an opcode-table word keeps memory in its canonical form. -/
theorem withFetchWord_wf (s : State) (nbits w : Nat) (h : Memory.wf s.mem = true) :
    Memory.wf (s.withFetchWord nbits w).mem = true := placeBytes_wf _ _ _ h

/-- Memory right after reset is in its canonical form. -/
theorem reset_mem_wf : Memory.wf State.reset.mem = true := rfl

/-- More bytes do not change what the decoder has already answered. -/
theorem decodeFrom_append (m64 lock other : Bool) (bs cs : List Byte) (h : decodeFrom m64 lock other bs ≠ .more) :
    decodeFrom m64 lock other (bs ++ cs) = decodeFrom m64 lock other bs := by
  induction bs generalizing lock other with
  | nil => simp [decodeFrom] at h
  | cons b bs ih =>
    simp only [List.cons_append, decodeFrom] at h ⊢
    split
    · next hb => simp only [hb, if_true] at h; exact ih _ _ h
    · next hb =>
      simp only [hb] at h
      split
      · next hc => simp only [hc, if_true] at h; exact ih _ _ (by simpa using h)
      · next hc =>
        simp only [hc] at h
        split
        · rfl
        · next h1 =>
          split
          · rfl
          · next h2 =>
            split
            · next h3 =>
              cases bs with
              | nil => simp [h1, h2, h3] at h
              | cons c bs => rfl
            · rfl

theorem decode_append (m64 : Bool) (bs cs : List Byte) (h : decode m64 bs ≠ .more) :
    decode m64 (bs ++ cs) = decode m64 bs := decodeFrom_append _ _ _ _ _ h

/-- The outcome of a fetch whose bytes decode to something, said once: an instruction or a refusal by name. -/
def decodedOutcome : DecodeResult → Res Instr
  | .instr i => .ok i
  | .more => refuse .otherPrefix
  | .otherPrefix => refuse .otherPrefix
  | .notInScope => refuse .notInScope

/-- The fetch reads byte after byte and answers what the decoder answers for them (R81). -/
theorem fetchInstr_eq (vaBits : Nat) (s : State) (fuel : Nat) (pre bs : List Byte) (hl : bs.length ≤ fuel)
    (hp : bs ≠ [] → decode (inMode64 s) pre = .more)
    (hb : ∀ j b, bs[j]? = some b → fetchByte vaBits s (pre.length + j) = .ok b)
    (hd : decode (inMode64 s) (pre ++ bs) ≠ .more) (hne : bs ≠ []) :
    fetchInstr vaBits s fuel pre = decodedOutcome (decode (inMode64 s) (pre ++ bs)) := by
  induction bs generalizing fuel pre with
  | nil => exact absurd rfl hne
  | cons b bs ih =>
    cases fuel with
    | zero => simp at hl
    | succ fuel =>
      have h0 := hb 0 b rfl
      simp only [Nat.add_zero] at h0
      have happ : pre ++ b :: bs = (pre ++ [b]) ++ bs := by simp
      simp only [fetchInstr, h0]
      by_cases hm : decode (inMode64 s) (pre ++ [b]) = .more
      · simp only [hm]
        have hne' : bs ≠ [] := by
          rintro rfl
          exact hd hm
        rw [happ]
        refine ih fuel (pre ++ [b]) (by simpa using hl) (fun _ => hm) ?_ (by rwa [← happ]) hne'
        intro j c hj
        have := hb (j + 1) c (by simpa using hj)
        rw [List.length_append, List.length_singleton, Nat.add_assoc, Nat.add_comm 1 j]
        exact this
      · rw [happ, decode_append _ _ _ hm]
        cases he : decode (inMode64 s) (pre ++ [b]) <;> first | exact absurd he hm | rfl

end Sys2Proof.Machine
end

