-- ==== Sys2Proof/Laws/Frame.lean ====
section
/-! SUPPORT. The frame of a delivery under the identity translation: where its bytes stand, what they are, and that a
return finds them. -/

namespace Sys2Proof.Machine

/-- Linear addresses less than 2^32 apart are different. -/
theorem linear_add_inj {s : State} {a : Word64} {m n : Nat} (hm : m < 2 ^ 32) (hn : n < 2 ^ 32)
    (h : (linear s (a + BitVec.ofNat 64 m)).toNat = (linear s (a + BitVec.ofNat 64 n)).toNat) : m = n := by
  unfold linear at h
  have hmask : (0xFFFFFFFF#64).toNat = 2 ^ 32 - 1 := rfl
  split at h
  · simp only [BitVec.toNat_add, BitVec.toNat_ofNat] at h
    omega
  · simp only [BitVec.toNat_and, BitVec.toNat_add, BitVec.toNat_ofNat, hmask, Nat.and_two_pow_sub_one_eq_mod] at h
    omega

theorem mem_linearRange {s : State} {a : Word64} {n x : Nat} :
    x ∈ linearRange s a n ↔ ∃ m < n, x = (linear s (a + BitVec.ofNat 64 m)).toNat := by
  simp [linearRange, eq_comm]

theorem linearRange_nodup {s : State} {a : Word64} {n : Nat} (hn : n ≤ 2 ^ 32) : (linearRange s a n).Nodup := by
  unfold linearRange
  refine List.Nodup.map_on ?_ List.nodup_range
  intro x hx y hy h
  rw [List.mem_range] at hx hy
  exact linear_add_inj (by omega) (by omega) h

/-- Bytes stored over a range of linear addresses read back in order. -/
theorem readByte_storeCells_range {s : State} {m : Memory} {a : Word64} {bs : List Byte} (hn : bs.length ≤ 2 ^ 32) {j : Nat}
    (hj : j < bs.length) :
    readByte (storeCells m ((linearRange s a bs.length).zip bs)) (linear s (a + BitVec.ofNat 64 j)).toNat
      = bs.getD j 0#8 := by
  have hl : (linearRange s a bs.length).length = bs.length := by simp [linearRange]
  apply readByte_storeCells_mem
  · rw [List.map_fst_zip (by omega)]
    exact linearRange_nodup hn
  · have hj' : j < ((linearRange s a bs.length).zip bs).length := by simp [hl, hj]
    have := List.getElem_mem hj'
    rw [List.getElem_zip] at this
    simpa [linearRange, hj] using this

/-- The bytes of a frame from its lowest address upward: the last push lies lowest. -/
def frameImage (p : Params) (k : Nat) : Nat → List Slot → List Byte
  | _, [] => []
  | draw, v :: vs => frameImage p k (draw + 1) vs ++ slotBytes p draw k v

@[simp] theorem frameImage_length (p : Params) (g : GateSize) (draw : Nat) (vs : List Slot) :
    (frameImage p g.bytes draw vs).length = vs.length * g.bytes := by
  induction vs generalizing draw with
  | nil => simp [frameImage]
  | cons v vs ih =>
    simp only [frameImage, List.length_append, ih, slotBytes_length, List.length_cons]
    rw [Nat.add_mul, Nat.one_mul]

/-- Slot `i` of the image, counted from the lowest, is the value pushed `i`-th from the end. -/
theorem frameImage_slot (p : Params) (g : GateSize) (draw : Nat) (vs : List Slot) (i : Nat) (hi : i < vs.length) :
    ((frameImage p g.bytes draw vs).drop (i * g.bytes)).take g.bytes
      = slotBytes p (draw + (vs.length - 1 - i)) g.bytes (vs.getD (vs.length - 1 - i) (.exact 0#64)) := by
  induction vs generalizing draw with
  | nil => simp at hi
  | cons v vs ih =>
    have hl := frameImage_length p g (draw + 1) vs
    simp only [frameImage, List.length_cons] at hi ⊢
    by_cases h : i < vs.length
    · have hle : (i + 1) * g.bytes ≤ vs.length * g.bytes := Nat.mul_le_mul_right _ h
      rw [Nat.add_mul, Nat.one_mul] at hle
      rw [List.drop_append_of_le_length (by omega), List.take_append_of_le_length (by rw [List.length_drop]; omega), ih _ h]
      have he : vs.length + 1 - 1 - i = (vs.length - 1 - i) + 1 := by omega
      rw [he]
      simp only [List.getD_cons_succ]
      congr 1
      omega
    · have he : i = vs.length := by omega
      subst he
      rw [← hl, List.drop_left]
      simp [List.take_of_length_le]

/-- The addresses of a frame are those of its range. -/
theorem mem_frameAddrs {s : State} (hid : s.pe = false ∨ s.xlat = []) {c : PushPlace} {n sp : Nat} {a : Word64}
    {as : List Nat} (h : frameAddrs s c n sp = .ok as)
    (hA : ∀ j < n, c.base + BitVec.ofNat 64 (pushedPtrs c (j + 1) sp)
      = a + BitVec.ofNat 64 ((n - 1 - j) * c.size.bytes)) {x : Nat} (hx : x ∈ as) :
    ∃ m < n * c.size.bytes, x = (linear s (a + BitVec.ofNat 64 m)).toNat := by
  induction n generalizing sp as with
  | zero => obtain rfl := Except.ok.inj h; simp at hx
  | succ n ih =>
    simp only [frameAddrs, slotAddrs, physAddrs_identity hid] at h
    split at h
    · simp at h
    · next rest hr =>
      obtain rfl := Except.ok.inj h
      have hb : (n + 1) * c.size.bytes = n * c.size.bytes + c.size.bytes := by rw [Nat.add_mul, Nat.one_mul]
      rcases List.mem_append.mp hx with hx | hx
      · obtain ⟨m, hm, rfl⟩ := mem_linearRange.mp hx
        have h0 := hA 0 (by omega)
        simp only [pushedPtrs, Nat.add_sub_cancel, Nat.sub_zero] at h0
        refine ⟨n * c.size.bytes + m, by omega, ?_⟩
        rw [h0, BitVec.add_assoc, BitVec.ofNat_add]
      · obtain ⟨m, hm, rfl⟩ := ih hr (fun j hj => by
          have := hA (j + 1) (by omega)
          simp only [pushedPtrs] at this ⊢
          rw [this]
          congr 3
          omega) hx
        exact ⟨m, by omega, rfl⟩

/-- Every byte of the pushed frame is the byte of its image. -/
theorem pushAll_image {p : Params} {c : PushPlace} {vs : List Slot} {s t : State} (h : pushAll p c vs s = .ok t)
    (hid : s.pe = false ∨ s.xlat = []) {a : Word64}
    (hA : ∀ j < vs.length, c.base + BitVec.ofNat 64 (pushedPtrs c (j + 1) (stackPtr s c.width))
      = a + BitVec.ofNat 64 ((vs.length - 1 - j) * c.size.bytes)) (hn : vs.length * c.size.bytes ≤ 2 ^ 32) {m : Nat}
    (hm : m < vs.length * c.size.bytes) :
    readByte t.mem (linear s (a + BitVec.ofNat 64 m)).toNat = (frameImage p c.size.bytes s.draws vs).getD m 0#8 := by
  induction vs generalizing s with
  | nil => simp at hm
  | cons v vs ih =>
    simp only [pushAll] at h
    split at h
    · next s1 h1 =>
      obtain ⟨as, has, rfl⟩ := push_eq_ok.mp h1
      simp only [slotAddrs, physAddrs_identity hid] at has
      obtain rfl := Except.ok.inj has
      have hlen : (v :: vs).length * c.size.bytes = vs.length * c.size.bytes + c.size.bytes := by
        rw [List.length_cons, Nat.add_mul, Nat.one_mul]
      have hA' : ∀ j < vs.length, c.base + BitVec.ofNat 64
            (pushedPtrs c (j + 1) (pushedPtr c (stackPtr s c.width)))
          = a + BitVec.ofNat 64 ((vs.length - 1 - j) * c.size.bytes) := by
        intro j hj
        have := hA (j + 1) (by simp only [List.length_cons]; omega)
        simp only [pushedPtrs, List.length_cons] at this ⊢
        rw [this]
        congr 3
        omega
      have h0 : c.base + BitVec.ofNat 64 (pushedPtr c (stackPtr s c.width))
          = a + BitVec.ofNat 64 (vs.length * c.size.bytes) := by
        have := hA 0 (by simp)
        simpa [pushedPtrs] using this
      have hil := frameImage_length p c.size (s.draws + 1) vs
      simp only [frameImage]
      by_cases hlt : m < vs.length * c.size.bytes
      · have := ih h (by simpa using hid)
          (by rw [stackPtr_setStackPtr _ _ _ _ (pushedPtr_lt _ _)]; exact hA') (by omega) hlt
        simp only [setStackPtr_draws] at this
        rw [List.getD_append _ _ _ _ (by omega), ← this]
        simp [linear]
      · obtain ⟨cells, hc, hmem, _, _, _⟩ := pushAll_ok h
        rw [stackPtr_setStackPtr _ _ _ _ (pushedPtr_lt _ _),
          frameAddrs_congr (s := s) (by simp) (by simp) (by simp)] at hc
        have hout : (linear s (a + BitVec.ofNat 64 m)).toNat ∉ cells.map Prod.fst := by
          intro hx
          obtain ⟨m', hm', he⟩ := mem_frameAddrs hid hc hA' hx
          have := linear_add_inj (by omega) (by omega) he
          omega
        rw [hmem, readByte_storeCells_other _ _ _ hout, List.getD_append_right _ _ _ _ (by omega)]
        obtain ⟨j, rfl⟩ : ∃ j, m = vs.length * c.size.bytes + j := ⟨m - vs.length * c.size.bytes, by omega⟩
        have hsl := slotBytes_length p s.draws c.size v
        have := readByte_storeCells_range (s := s) (m := s.mem) (a := a + BitVec.ofNat 64 (vs.length * c.size.bytes))
          (bs := slotBytes p s.draws c.size.bytes v) (j := j) (by omega) (by omega)
        rw [hsl] at this
        simp only [setStackPtr_mem, h0]
        rw [BitVec.ofNat_add, ← BitVec.add_assoc, this, hil, Nat.add_sub_cancel_left]
    · simp at h

/-- The frame fits below the stack pointer without wrapping the pointer, or the pointer is a 64-bit one. -/
def FrameFits (c : PushPlace) (n sp : Nat) : Prop :=
  sp < c.width.modulus ∧ n * c.size.bytes ≤ 2 ^ 15 ∧
    ((c.width = .w64 ∧ c.base = 0#64) ∨ n * c.size.bytes ≤ if sp = 0 then c.width.modulus else sp)

theorem modulus_ge (w : StackWidth) : 2 ^ 16 ≤ w.modulus := by cases w <;> simp [StackWidth.modulus]

theorem pushedPtrs_eq_belowPtr {c : PushPlace} {n sp : Nat} (hs : sp < c.width.modulus) (hn : n * c.size.bytes ≤ 2 ^ 15) :
    pushedPtrs c n sp = belowPtr c n sp := by
  have hM := modulus_ge c.width
  induction n generalizing sp with
  | zero => simp [pushedPtrs, belowPtr, Nat.mod_eq_of_lt hs]
  | succ n ih =>
    have hb : (n + 1) * c.size.bytes = n * c.size.bytes + c.size.bytes := by rw [Nat.add_mul, Nat.one_mul]
    rw [pushedPtrs, ih (pushedPtr_lt c sp) (by omega)]
    unfold belowPtr pushedPtr
    generalize c.width.modulus = M at *
    rw [hb] at hn ⊢
    generalize n * c.size.bytes = x at *
    generalize c.size.bytes = k at *
    by_cases h1 : k ≤ sp
    · have e1 : (sp + M - k) % M = sp - k := by
        rw [show sp + M - k = (sp - k) + M by omega, Nat.add_mod_right, Nat.mod_eq_of_lt (by omega)]
      rw [e1]
      congr 1
      omega
    · have e1 : (sp + M - k) % M = sp + M - k := Nat.mod_eq_of_lt (by omega)
      rw [e1, show sp + M - k + M - x = (sp + M - (x + k)) + M by omega, Nat.add_mod_right]

/-- The slots of a frame that fits stand one above the other from its lowest address. -/
theorem frameFits_base {c : PushPlace} {n sp j : Nat} (h : FrameFits c n sp) (hj : j ≤ n) (hj0 : 0 < j) :
    c.base + BitVec.ofNat 64 (belowPtr c j sp)
      = c.base + BitVec.ofNat 64 (belowPtr c n sp) + BitVec.ofNat 64 ((n - j) * c.size.bytes) := by
  obtain ⟨hs, hn, hf⟩ := h
  have hM := modulus_ge c.width
  have hle : j * c.size.bytes ≤ n * c.size.bytes := Nat.mul_le_mul_right _ hj
  have hkpos : 0 < c.size.bytes := by cases c.size <;> decide
  have hjpos : 0 < j * c.size.bytes := Nat.mul_pos hj0 hkpos
  rw [Nat.sub_mul, BitVec.add_assoc]
  congr 1
  unfold belowPtr
  generalize j * c.size.bytes = x at *
  generalize n * c.size.bytes = y at *
  rcases hf with ⟨hw, _⟩ | hf
  · have hm : c.width.modulus = 2 ^ 64 := by rw [hw]; rfl
    apply BitVec.eq_of_toNat_eq
    rw [BitVec.toNat_add, BitVec.toNat_ofNat, BitVec.toNat_ofNat, BitVec.toNat_ofNat, ← hm]
    clear hm hw
    generalize c.width.modulus = M at *
    rw [Nat.mod_mod, Nat.mod_mod, Nat.add_mod_mod, Nat.mod_add_mod]
    congr 1
    omega
  · generalize c.width.modulus = M at *
    split at hf
    · next h0 =>
      subst h0
      rw [Nat.mod_eq_of_lt (by omega), Nat.mod_eq_of_lt (by omega), ← BitVec.ofNat_add]
      congr 1
      omega
    · rw [show sp + M - x = sp - x + M by omega, show sp + M - y = sp - y + M by omega, Nat.add_mod_right,
        Nat.add_mod_right, Nat.mod_eq_of_lt (by omega), Nat.mod_eq_of_lt (by omega), ← BitVec.ofNat_add]
      congr 1
      omega

/-- The address that `readSlot` looks at. -/
theorem frameFits_readSlot {c : PushPlace} {n sp i : Nat} (h : FrameFits c n sp) (hi : i < n) :
    c.base + BitVec.ofNat 64 ((belowPtr c n sp + i * c.size.bytes) % c.width.modulus)
      = c.base + BitVec.ofNat 64 (belowPtr c n sp) + BitVec.ofNat 64 (i * c.size.bytes) := by
  have hb := frameFits_base h (j := n - i) (by omega) (by omega)
  rw [show n - (n - i) = i by omega] at hb
  rw [← hb]
  congr 2
  obtain ⟨hs, hn, hf⟩ := h
  have hM := modulus_ge c.width
  have hle : (n - i) * c.size.bytes + i * c.size.bytes = n * c.size.bytes := by
    rw [← Nat.add_mul]; congr 1; omega
  unfold belowPtr
  rw [Nat.mod_add_mod]
  congr 1
  omega

/-- What entering a handler leaves, under the identity translation: the frame below the stack pointer, and in each slot
the low bytes of the value pushed there. -/
theorem enterHandler_frame {p : Params} {d : Delivery} {s t : State} (h : enterHandler p d s = .ok t)
    (hid : s.pe = false ∨ s.xlat = [])
    (hf : FrameFits d.place d.slots.length (stackPtr (withHandlerStack d s) d.place.width)) :
    FramePushed s t d.place d.slots.length (stackPtr (withHandlerStack d s) d.place.width) ∧
    ∀ i n : Nat, i < d.slots.length → n ≤ d.place.size.bytes →
      readSlot t d.place n i
        = .ok (leNat ((slotBytes p (d.draws + (d.slots.length - 1 - i)) d.place.size.bytes
            (d.slots.getD (d.slots.length - 1 - i) (.exact 0#64))).take n)) := by
  obtain ⟨cells, hc, hm, hp, he⟩ := enterHandler_ok h
  rw [pushedPtrs_eq_belowPtr hf.1 hf.2.1] at hp
  set sp := stackPtr (withHandlerStack d s) d.place.width with hsp
  set c := d.place with hcdef
  have hle : ∀ j, j ≤ d.slots.length → j * c.size.bytes ≤ 2 ^ 15 := fun j hj =>
    Nat.le_trans (Nat.mul_le_mul_right _ hj) hf.2.1
  have hA : ∀ j < d.slots.length, c.base + BitVec.ofNat 64 (pushedPtrs c (j + 1) sp)
      = c.base + BitVec.ofNat 64 (belowPtr c d.slots.length sp)
        + BitVec.ofNat 64 ((d.slots.length - 1 - j) * c.size.bytes) := by
    intro j hj
    rw [pushedPtrs_eq_belowPtr hf.1 (hle _ (by omega)), frameFits_base hf (by omega) (by omega),
      show d.slots.length - (j + 1) = d.slots.length - 1 - j by omega]
  refine ⟨⟨hp, ?_⟩, ?_⟩
  · intro x hx
    rw [hm]
    apply readByte_storeCells_other
    intro hmem
    obtain ⟨m, hm', rfl⟩ := mem_frameAddrs hid hc hA hmem
    exact hx m hm' rfl
  · intro i n hi hn
    have hid' : t.pe = false ∨ t.xlat = [] := by rw [he.pe, he.xlat]; exact hid
    have himg : ∀ m < d.slots.length * c.size.bytes,
        readByte t.mem (linear t (c.base + BitVec.ofNat 64 (belowPtr c d.slots.length sp) + BitVec.ofNat 64 m)).toNat
          = (frameImage p c.size.bytes d.draws d.slots).getD m 0#8 := by
      intro m hm'
      unfold enterHandler at h
      split at h
      · next s1 h1 =>
        have := pushAll_image h1 (by simpa using hid) hA (Nat.le_trans hf.2.1 (by omega)) hm'
        have hl : s1.lma = s.lma := by
          have := he.lma
          rwa [← Except.ok.inj h] at this
        obtain rfl := Except.ok.inj h
        rw [← hcdef] at this
        simp only [linear, hl, withHandlerRegisters, withHandlerStack] at this ⊢
        exact this
      · simp at h
    have hik : (i + 1) * c.size.bytes ≤ d.slots.length * c.size.bytes := Nat.mul_le_mul_right _ hi
    rw [Nat.add_mul, Nat.one_mul] at hik
    simp only [readSlot]
    rw [hp, frameFits_readSlot hf hi, physAddrs_identity hid']
    simp only
    congr 2
    rw [← frameImage_slot p c.size d.draws d.slots i hi, List.take_take, Nat.min_eq_left hn]
    apply List.ext_getElem
    · simp [linearRange]
      omega
    · intro j h1 h2
      have hj : j < n := by simpa [linearRange] using h1
      have := himg (i * c.size.bytes + j) (by omega)
      simp only [linearRange, List.map_map, List.getElem_map, List.getElem_range, Function.comp_apply,
        List.getElem_take, List.getElem_drop]
      rw [BitVec.ofNat_add, ← BitVec.add_assoc] at this
      rw [this, List.getD_eq_getElem]

/-- A flags image or an offset reads back cut to the slot (R114). -/
theorem leNat_exactSlot (p : Params) (draw : Nat) (k : Nat) (v : Word64) :
    leNat ((slotBytes p draw k (.exact v)).take k) = v.toNat % 256 ^ k := by
  simp [slotBytes, List.take_of_length_le, leNat_leBytes]

/-- A selector or an error code reads back from the low two bytes of its slot (R62). -/
theorem leNat_paddedSlot (p : Params) (draw : Nat) (g : GateSize) (v : Word16) :
    leNat ((slotBytes p draw g.bytes (.padded v)).take 2) = v.toNat := by
  have h2 : 2 ≤ g.bytes := by cases g <;> decide
  have h := leNat_leBytes 2 v.toNat
  rw [Nat.mod_eq_of_lt (by omega)] at h
  simp only [slotBytes, List.take_take, Nat.min_eq_left h2]
  rw [List.take_append_of_le_length (by simp), List.take_of_length_le (by simp), h]

end Sys2Proof.Machine
end

