-- ==== Sys2Proof/Laws/PerInstr.lean ====
section
/-! SUPPORT. Per instruction: its encoding decodes to it, whatever follows. -/

namespace Sys2Proof.Laws.Encoding

open Sys2Proof

/-- A well-formed instruction's bytes are at most three, and are read back as it, in every mode (R80, R88, R90). -/
def Statement (i : Instr) : Prop :=
  i.wellFormed = true →
    (encode i).length ≤ maxInstrBytes ∧ ∀ (m64 : Bool) (rest : List Byte), decode m64 (encode i ++ rest) = .instr i

theorem int3 (lock : Bool) : Statement (.int3 lock) := by
  intro _
  cases lock <;> refine ⟨by decide, fun m64 rest => ?_⟩ <;> cases m64 <;> rfl

theorem into (lock : Bool) : Statement (.into lock) := by
  intro _
  cases lock <;> refine ⟨by decide, fun m64 rest => ?_⟩ <;> cases m64 <;> rfl

theorem intImm8 (lock : Bool) (ib : Nat) : Statement (.intImm8 lock ib) := by
  intro h
  have h' : ib % 256 = ib := Nat.mod_eq_of_lt (by simpa [Instr.wellFormed] using h)
  cases lock <;> refine ⟨by simp [encode, opcodeBytes, Instr.lock, maxInstrBytes], fun m64 rest => ?_⟩ <;> cases m64 <;>
    simp [decode, decodeFrom, encode, opcodeBytes, Instr.lock, isLockByte, isOtherPrefixByte, asForm, h']

end Sys2Proof.Laws.Encoding
end

