-- ==== Sys2Proof/Laws/Selection.lean ====
section
/-! SUPPORT. The premises of Safety.lean are what the procedures need: from each, the answer of the procedure it names. -/

namespace Sys2Proof.Machine

/-- A delivery whose checks end it ends the instruction so. -/
theorem exec_of_deliveryOf_error {i s e} (h : Delivers i s) (he : deliveryOf Config.params (eventOf i) (advanced i s)
    = .error e) : exec i s = toOutcome (.error e) := by
  rw [exec_delivers h]; simp [deliver, he]

/-- The three instructions are software sources (R100). -/
theorem eventOf_software (i : Instr) : (eventOf i).source.software = true := by cases i <;> rfl

theorem level_ult_iff {a b : BitVec 2} : a.ult b = true ↔ a.toNat < b.toNat := by simp [BitVec.ult]

theorem level_ult_eq_false_iff {a b : BitVec 2} : a.ult b = false ↔ b.toNat ≤ a.toNat := by simp [BitVec.ult]

/-- The IDT form of an error code with EXT = 0 (R245 a). -/
theorem idtCode_software (k v : Nat) : idtCode k v false = BitVec.ofNat 16 (v * k + 2) := by simp [idtCode]

/-- The selector form of an error code with EXT = 0 (R245 b). -/
theorem selCode_software (x : Word16) : selCode x false = x &&& 0xFFFC#16 := by simp [selCode]

/-- PE = 0 is REAL-ADDRESS-MODE (R105). -/
theorem deliveryOf_eq_realMode {i s} (h : s.pe = false) : deliveryOf Config.params (eventOf i) (advanced i s) =
    realMode (eventOf i) (advanced i s) := by
  unfold deliveryOf; simp [advanced, h]

/-- Past the dispatch, LMA chooses the procedure (R105). -/
theorem deliveryOf_of_reachesGate {i s} (h : ReachesGate i s) : deliveryOf Config.params (eventOf i) (advanced i s) =
   if s.lma then longMode Config.params (eventOf i) (advanced i s) else protectedMode Config.params (eventOf i)
     (advanced i s) := by
  obtain ⟨hd, hp, hv⟩ := h
  have h1 : (flagVM s.eflags && s.vme && redirectable (eventOf i).source) = false := by
    cases hvm : flagVM s.eflags
    · rfl
    · rcases hv hvm with h | ⟨h, _⟩
      · simp [eventOf, softwareEvent, h, redirectable]
      · simp [h]
  have h2 : (flagVM s.eflags && (flagIOPL s.eflags).ult 3#2 && ioplSensitive Config.params (eventOf i).source) = false
    := by
    cases hvm : flagVM s.eflags
    · rfl
    · rcases hv hvm with h | ⟨_, h⟩
      · simp [eventOf, softwareEvent, h, ioplSensitive]
      · simp [h, BitVec.ult]
  unfold deliveryOf
  simp only [advanced, advanceIp_pe, hp, advanceIp_eflags, advanceIp_vme, h1, h2, advanceIp_lma]
  cases s.lma <;> simp

theorem kind_ne_other_task {g : Gate} (h : g.kind = .interrupt ∨ g.kind = .trap) : g.kind ≠ .other ∧ g.kind ≠ .task :=
    by
  rcases h with h | h <;> simp [h]

/-- The premise `LegacyGate` lets PROTECTED-MODE through. -/
theorem protectedGate_of_legacyGate {i s g} (h : LegacyGate s (vectorOf i) g) : protectedGate (eventOf i) s = .ok g :=
    by
  obtain ⟨hl, hlim, ⟨raw, hr, hg⟩, hk, hdp, hpr⟩ := h
  exact protectedGate_eq_ok.mpr ⟨hlim, raw, hr, hg, (kind_ne_other_task hk).1, by simp [eventOf_software,
    level_ult_eq_false_iff.mpr hdp], hpr⟩

/-- The premise `Tss64Stack` is what ReadTSS64 answers. -/
theorem readTss64_of_tss64Stack {s off top} (h : Tss64Stack s off top) : readTss64 Config.params s off = .ok top := by
  obtain ⟨h1, h2, h3⟩ := h
  have h1' : decide (s.tr.limit.toNat < off + 7) = false := by simp; omega
  have hva : Config.params.vaBits = Config.vaBits := rfl
  unfold readTss64
  simp [h1', hva, h2, h3, pure, Except.pure]

/-- ReadTSS64 outside the limit or at a non-canonical address (R149). -/
theorem readTss64_error {s off} (h : s.tr.limit.toNat < off + 7 ∨ allCanonical Config.vaBits 8 (tableAddr s.tr.base
    off) = false) : readTss64 Config.params s off = .error (.fault (.ts (s.tr.sel &&& 0xFFFC#16))) := by
  have : (decide (s.tr.limit.toNat < off + 7) || !allCanonical Config.params.vaBits 8 (tableAddr s.tr.base off)) =
    true := by
    have hva : Config.params.vaBits = Config.vaBits := rfl
    rcases h with h | h <;> simp [h, hva]
  simp only [readTss64, stopIf_bind, this, if_true, tssFault, selCode_software]

/-- The premise `LongGate` lets IA-32e-MODE through. -/
theorem longGate_of_longGate {i s g} (h : LongGate s (vectorOf i) g) :
    longGate Config.params (eventOf i) s = .ok g := by
  obtain ⟨hl, hlim, hcan, ⟨raw, hr, hg⟩, hk, hdp, hpr⟩ := h
  exact longGate_eq_ok.mpr ⟨hlim, hcan, raw, hr, hg, (kind_ne_other_task hk).1, by simp [eventOf_software,
    level_ult_eq_false_iff.mpr hdp], hpr⟩

theorem istPointer_of_istReadable {s g} (h : IstReadable s g) : ∃ ist, istPointer Config.params s g = .ok ist := by
  unfold istPointer
  rcases h with h | ⟨sp, h⟩
  · exact ⟨none, by simp [h]⟩
  · rw [show tss64IstOffset g.ist = g.ist * 8 + 28 from rfl, readTss64_of_tss64Stack h]; split
    · exact ⟨_, rfl⟩
    · exact ⟨_, rfl⟩

/-- From a legacy gate the delivery is TRAP-OR-INTERRUPT-GATE. -/
theorem deliveryOf_of_legacyGate {i s g} (h : ReachesGate i s) (hg : LegacyGate s (vectorOf i) g) : deliveryOf
    Config.params (eventOf i) (advanced i s) =
   trapOrInterruptGate Config.params (eventOf i) (advanced i s) g (.ok none) := by
  rw [deliveryOf_of_reachesGate h]; simp [hg.1, protectedMode, advanced, protectedGate_of_legacyGate hg,
    (kind_ne_other_task hg.2.2.2.1).2]

/-- From a 64-bit gate whose IST read answers, the delivery is TRAP-OR-INTERRUPT-GATE, wherever the read is placed. -/
theorem deliveryOf_of_longGate {i s g ist} (h : ReachesGate i s) (hg : LongGate s (vectorOf i) g)
    (hi : istPointer Config.params s g = .ok ist) :
    deliveryOf Config.params (eventOf i) (advanced i s)
      = trapOrInterruptGate Config.params (eventOf i) (advanced i s) g (.ok ist) := by
  rw [deliveryOf_of_reachesGate h]; simp [hg.1, longMode, advanced, longGate_of_longGate hg, hi]

/-- An IST read that stops ends the instruction where it is placed first, and wherever it is placed once the handler's
segment has passed its checks (log 27). -/
theorem exec_of_istPointer_error {i s g e} (h : ReachesGate i s) (hg : LongGate s (vectorOf i) g)
    (hi : istPointer Config.params s g = .error e)
    (hp : Config.istReadFirst = true ∨
      ∃ d, handlerSegment Config.params (eventOf i) s g = .ok d ∧ (SameLevel s d ∨ HigherLevel s d ∨ Level0FromV86 s d)) :
    exec i s = toOutcome (.error e) := by
  have hx : deliveryOf Config.params (eventOf i) (advanced i s) = .error e := by
    rw [deliveryOf_of_reachesGate h]
    simp only [hg.1, if_true, longMode, advanced, advanceIp_longGate, longGate_of_longGate hg, ok_bind,
      advanceIp_istPointer, hi, istCheckedFirst_error]
    by_cases hf : Config.params.istReadFirst = true
    · simp [hf]
    · obtain ⟨d, hd, hl⟩ := hp.resolve_left hf
      rw [if_neg hf]
      simp only [ok_bind, trapOrInterruptGate, advanceIp_handlerSegment, hd, transfer, advanceIp_cpl, advanceIp_eflags,
        advanceIp_lma, hg.1, if_true, error_bind]
      rcases hl with hl | hl | hl
      · simp [hl.1]
      · simp [hl.1]
      · have hcpl : s.cpl = 3#2 := by
          have := h.1.1; unfold lawful at this; simp [hl.1] at this; exact this.1.2
        simp [hl.1, hl.2.1, hl.2.2, hcpl, BitVec.ult]
  rw [exec_delivers h.1]
  simp [deliver, hx]

/-- From a chosen gate the delivery is TRAP-OR-INTERRUPT-GATE. -/
theorem deliveryOf_of_gateChosen {i s g} (h : GateChosen i s g) : ∃ ist, deliveryOf Config.params (eventOf i)
    (advanced i s) =
   trapOrInterruptGate Config.params (eventOf i) (advanced i s) g (.ok ist) := by
  rcases h with ⟨h, hg | ⟨hg, hi⟩⟩
  · exact ⟨none, deliveryOf_of_legacyGate h hg⟩
  · obtain ⟨ist, hi⟩ := istPointer_of_istReadable hi
    exact ⟨ist, deliveryOf_of_longGate h hg hi⟩

/-- A failed check of the handler segment ends the instruction. -/
theorem exec_of_handlerSegment_error {i s g e} (h : GateChosen i s g) (he : handlerSegment Config.params (eventOf i) s
    g = .error e) : exec i s = toOutcome (.error e) := by
  obtain ⟨ist, hd⟩ := deliveryOf_of_gateChosen h
  apply exec_of_deliveryOf_error h.1.1
  rw [hd]; simp [trapOrInterruptGate, advanced, he]

/-- The premise `HandlerCode` lets the handler segment through. -/
theorem handlerSegment_of_handlerCode {i s g d} (h : HandlerCode s g d) : handlerSegment Config.params (eventOf i) s g
    = .ok d := by
  obtain ⟨h1, h2, h3, h4, h5, h6, h7, h8⟩ := h
  refine handlerSegment_eq_ok.mpr ⟨h1, h2, ?_, h4, by simp [h5, level_ult_eq_false_iff.mpr h6], ?_, h8⟩
  · cases hl : s.lma
    · rfl
    · have := h3 hl; simp only [Bool.true_and, Bool.not_eq_false']; exact this
  · cases hl : s.lma
    · rfl
    · simp [h7 hl]

/-- With a gate and a handler the delivery is the transfer (R165). -/
theorem deliveryOf_eq_transfer {i s g d} (h : GateChosen i s g) (hc : HandlerCode s g d) : ∃ ist, deliveryOf
    Config.params (eventOf i) (advanced i s) =
   transfer Config.params (eventOf i) (advanced i s) g (.ok ist) d := by
  obtain ⟨ist, hd⟩ := deliveryOf_of_gateChosen h
  refine ⟨ist, ?_⟩
  rw [hd]; simp [trapOrInterruptGate, advanced, handlerSegment_of_handlerCode hc]

/-- The same through a 64-bit gate, with its IST pointer. -/
theorem deliveryOf_eq_transfer_long {i s g d ist} (h : ReachesGate i s) (hg : LongGate s (vectorOf i) g) (hi :
    istPointer Config.params s g = .ok ist) (hc : HandlerCode s g d) :
   deliveryOf Config.params (eventOf i) (advanced i s) = transfer Config.params (eventOf i) (advanced i s) g (.ok ist)
     d := by
  rw [deliveryOf_of_longGate h hg hi]; simp [trapOrInterruptGate, advanced, handlerSegment_of_handlerCode hc]

/-- LMA = 0 to a higher level is the inter-privilege transfer. -/
theorem deliveryOf_eq_interLegacy {i s g d} (h : GateChosen i s g) (hl : s.lma = false) (hc : HandlerCode s g d) (hh :
    HigherLevel s d) :
   deliveryOf Config.params (eventOf i) (advanced i s) = interLegacy Config.params (eventOf i) (advanced i s) g d := by
  obtain ⟨ist, hd⟩ := deliveryOf_eq_transfer h hc
  rw [hd]
  unfold transfer
  simp [advanced, hh.1, hh.2.1, level_ult_iff.mpr hh.2.2, hl]

/-- From virtual-8086 mode to level 0 is its own transfer. -/
theorem deliveryOf_eq_fromV86 {i s g d} (h : GateChosen i s g) (hc : HandlerCode s g d) (hh : Level0FromV86 s d) :
   deliveryOf Config.params (eventOf i) (advanced i s) = fromV86 Config.params (eventOf i) (advanced i s) g d := by
  obtain ⟨ist, hd⟩ := deliveryOf_eq_transfer h hc
  rw [hd]
  unfold transfer
  have : s.cpl = 3#2 := by
    have := h.1.1.1; unfold lawful at this; simp [hh.1] at this; exact this.1.2
  simp [advanced, hh.1, hh.2.1, hh.2.2, this, BitVec.ult]

/-- LMA = 0 at the same level is the intra-privilege transfer. -/
theorem deliveryOf_eq_intraLegacy {i s g d} (h : GateChosen i s g) (hl : s.lma = false) (hc : HandlerCode s g d) (hh :
    SameLevel s d) :
   deliveryOf Config.params (eventOf i) (advanced i s) = intraLegacy (eventOf i) (advanced i s) g d := by
  obtain ⟨ist, hd⟩ := deliveryOf_eq_transfer h hc
  rw [hd]
  unfold transfer
  have : (!d.isConforming && d.dpl.ult s.cpl) = false := by
    rcases hh.2 with h | h
    · simp [h]
    · simp [h, BitVec.ult]
  simp only [advanced, advanceIp_cpl, advanceIp_eflags, hh.1, advanceIp_lma, hl, this]; rfl

theorem transfer_eq_interLong {i s g d ist} (hl : s.lma = true) (hh : HigherLevel s d) : transfer Config.params
    (eventOf i) (advanced i s) g (.ok ist) d = interLong Config.params (eventOf i) (advanced i s) g ist d := by
  unfold transfer
  simp [advanced, hh.1, hh.2.1, level_ult_iff.mpr hh.2.2, hl]

theorem transfer_eq_intraLong {i s g d ist} (hl : s.lma = true) (hh : SameLevel s d) : transfer Config.params (eventOf
    i) (advanced i s) g (.ok ist) d = intraLong Config.params (eventOf i) (advanced i s) g ist d := by
  unfold transfer
  have : (!d.isConforming && d.dpl.ult s.cpl) = false := by
    rcases hh.2 with h | h
    · simp [h]
    · simp [h, BitVec.ult]
  simp only [advanced, advanceIp_cpl, advanceIp_eflags, hh.1, advanceIp_lma, hl, this]; rfl

/-- With LMA = 1 the TSS is a 64-bit one (R49). -/
theorem tr_kind_of_lma {i s} (h : ReachesGate i s) (hl : s.lma = true) : s.tr.kind = .tss64 := by
  have := h.1.1; unfold lawful at this; simp [hl] at this; exact this.1.1

theorem readTss32Stack_of {s : State} {n : BitVec 2} {sp : Word32} {sel : Word16} (hk : n.toNat * 8 + 11 ≤
    s.tr.limit.toNat) (h1 : memRead s 4 (tableAddr s.tr.base (n.toNat * 8 + 4)) = .ok sp.toNat)
   (h2 : memRead s 2 (tableAddr s.tr.base (n.toNat * 8 + 8)) = .ok sel.toNat) : readTss32Stack s n = .ok (sp, sel) := by
  have : decide (s.tr.limit.toNat < tss32Offset n + 7) = false := by
    unfold tss32Offset; exact decide_eq_false (by omega)
  simp only [readTss32Stack, stopIf_bind, this, if_false, Bool.false_eq_true]; simp [tss32Offset, h1, h2, pure,
    Except.pure]

theorem readTss16Stack_of {s : State} {n : BitVec 2} {sp : Word32} {sel : Word16} (hk : n.toNat * 4 + 6 ≤
    s.tr.limit.toNat) (h1 : memRead s 2 (tableAddr s.tr.base (n.toNat * 4 + 2)) = .ok sp.toNat)
   (h2 : memRead s 2 (tableAddr s.tr.base (n.toNat * 4 + 4)) = .ok sel.toNat) : readTss16Stack s n = .ok (sp, sel) := by
  have : decide (s.tr.limit.toNat < tss16Offset n + 4) = false := by
    unfold tss16Offset; exact decide_eq_false (by omega)
  simp only [readTss16Stack, stopIf_bind, this, if_false, Bool.false_eq_true]; simp [tss16Offset, h1, h2, pure,
    Except.pure]

/-- The premise `TssStack` is the stack of an inter-privilege transfer. -/
theorem interStack_of_tssStack {s n sp sel} (h : TssStack s n.toNat sp sel) : interStack Config.params s none n = .ok
    (sp.setWidth 64, sel) := by
  unfold interStack
  rcases h with ⟨hk, h1, h2, h3⟩ | ⟨hk, h1, h2, h3⟩
  · simp [hk, readTss32Stack_of h1 h2 h3, pure, Except.pure]
  · simp [hk, readTss16Stack_of h1 h2 h3, pure, Except.pure]

/-- The premise `TssStack` is the stack of a transfer from virtual-8086 mode. -/
theorem v86Stack_of_tssStack {s n sp sel} (h : TssStack s n.toNat sp sel) : v86Stack s n = .ok (sp, sel) := by
  unfold v86Stack
  rcases h with ⟨hk, h1, h2, h3⟩ | ⟨hk, h1, h2, h3⟩
  · simp [hk, readTss32Stack_of h1 h2 h3]
  · simp [hk, readTss16Stack_of h1 h2 h3]

/-! The converses: what a procedure answers meets the premise. -/

theorem legacyGate_of_protectedGate {ev : Event} {s g} (hl : s.lma = false) (hsw : ev.source.software = true)
    (h : protectedGate ev s = .ok g) (hk : g.kind ≠ .task) : LegacyGate s ev.vector g := by
  obtain ⟨h1, raw, hr, hg, h2, h3, h4⟩ := protectedGate_eq_ok.mp h
  refine ⟨hl, h1, ⟨raw, hr, hg⟩, ?_, level_ult_eq_false_iff.mp (by simpa [hsw] using h3), h4⟩
  cases hc : g.kind <;> simp_all

theorem longGate_of_longGate_ok {ev : Event} {s g} (hl : s.lma = true) (hsw : ev.source.software = true)
    (h : longGate Config.params ev s = .ok g) : LongGate s ev.vector g := by
  obtain ⟨h1, h1', raw, hr, hg, h2, h3, h4⟩ := longGate_eq_ok.mp h
  refine ⟨hl, h1, h1', ⟨raw, hr, hg⟩, ?_, level_ult_eq_false_iff.mp (by simpa [hsw] using h3), h4⟩
  have ht : (gate16 raw).kind ≠ .task := by
    unfold gate16
    simp only
    split
    · simp
    · split <;> simp
  subst hg
  cases hc : (gate16 raw).kind <;> simp_all

theorem handlerCode_of_handlerSegment {ev : Event} {s g d} (h : handlerSegment Config.params ev s g = .ok d) :
    HandlerCode s g d := by
  obtain ⟨h1, h2, h3, h4, h5, h6, h7⟩ := handlerSegment_eq_ok.mp h
  simp only [Bool.or_eq_false_iff, Bool.not_eq_false'] at h5
  refine ⟨h1, h2, ?_, h4, h5.1, level_ult_eq_false_iff.mp h5.2, ?_, h7⟩
  · intro hl; simpa [hl, show Config.params.vaBits = Config.vaBits from rfl] using h3
  · intro hl; simpa [hl] using h6

theorem stackSegment_of_newStackSegment {s n sel d} (h : newStackSegment s false n sel = .ok d) :
    StackSegment s n sel d := newStackSegment_eq_ok.mp h

/-- `MemRead` of `n` bytes answers a number of `n` bytes (R52). -/
theorem memRead_lt {s : State} {n : Nat} {a : Word64} {v : Nat} (h : memRead s n a = .ok v) : v < 256 ^ n := by
  unfold memRead at h
  split at h
  · next ps hps =>
    cases h
    have := leNat_lt (ps.map (readByte s.mem))
    rwa [List.length_map, physAddrs_length hps] at this
  · cases h

theorem tssStack_of_readTss32Stack {s : State} {n : BitVec 2} {sp : Word32} {sel : Word16} (hk : s.tr.kind = .tss32)
    (h : readTss32Stack s n = .ok (sp, sel)) : TssStack s n.toNat sp sel := by
  simp only [readTss32Stack, bind_eq_ok, stopIf_eq_ok, exists_const, decide_eq_false_iff_not, Nat.not_lt, pure,
    Except.pure, Except.ok.injEq, Prod.mk.injEq] at h
  obtain ⟨h1, v, hv, w, hw, rfl, rfl⟩ := h
  have h2 := memRead_lt hv
  have h3 := memRead_lt hw
  refine .inl ⟨hk, by unfold tss32Offset at h1; omega, ?_, ?_⟩
  · rw [BitVec.toNat_ofNat, Nat.mod_eq_of_lt (by omega)]; exact hv
  · rw [BitVec.toNat_ofNat, Nat.mod_eq_of_lt (by omega)]; exact hw

theorem tssStack_of_readTss16Stack {s : State} {n : BitVec 2} {sp : Word32} {sel : Word16} (hk : s.tr.kind = .tss16)
    (h : readTss16Stack s n = .ok (sp, sel)) : TssStack s n.toNat sp sel := by
  simp only [readTss16Stack, bind_eq_ok, stopIf_eq_ok, exists_const, decide_eq_false_iff_not, Nat.not_lt, pure,
    Except.pure, Except.ok.injEq, Prod.mk.injEq] at h
  obtain ⟨h1, v, hv, w, hw, rfl, rfl⟩ := h
  have h2 := memRead_lt hv
  have h3 := memRead_lt hw
  refine .inr ⟨hk, by unfold tss16Offset at h1; omega, ?_, ?_⟩
  · rw [BitVec.toNat_ofNat, Nat.mod_eq_of_lt (by omega)]; exact hv
  · rw [BitVec.toNat_ofNat, Nat.mod_eq_of_lt (by omega)]; exact hw

theorem tssStack_of_interStack {s : State} {n : BitVec 2} {sp : Word64} {sel : Word16} (hk : s.tr.kind ≠ .tss64)
    (h : interStack Config.params s none n = .ok (sp, sel)) :
    ∃ esp : Word32, sp = esp.setWidth 64 ∧ TssStack s n.toNat esp sel := by
  unfold interStack at h
  cases hc : s.tr.kind <;> simp only [hc, bind_eq_ok, pure, Except.pure, Except.ok.injEq, Prod.exists, Prod.mk.injEq] at h
  · obtain ⟨a, b, h, rfl, rfl⟩ := h
    exact ⟨a, rfl, tssStack_of_readTss16Stack hc h⟩
  · obtain ⟨a, b, h, rfl, rfl⟩ := h
    exact ⟨a, rfl, tssStack_of_readTss32Stack hc h⟩
  · exact absurd hc hk

theorem tssStack_of_v86Stack {s : State} {n : BitVec 2} {sp : Word32} {sel : Word16} (hk : s.tr.kind ≠ .tss64)
    (h : v86Stack s n = .ok (sp, sel)) : TssStack s n.toNat sp sel := by
  unfold v86Stack at h
  cases hc : s.tr.kind <;> simp only [hc] at h
  · exact tssStack_of_readTss16Stack hc h
  · exact tssStack_of_readTss32Stack hc h
  · exact absurd hc hk

/-- With LMA = 0 the TSS is not a 64-bit one (R49). -/
theorem tr_kind_of_not_lma {s : State} (h : lawful s = true) (hl : s.lma = false) : s.tr.kind ≠ .tss64 := by
  intro hk; simp [lawful, hl, hk] at h

/-- A failed check of the new stack segment ends the instruction. -/
theorem exec_of_newStackSegment_error {i s g d sp sel e} (h : GateChosen i s g) (hl : s.lma = false) (hc : HandlerCode
    s g d) (hh : HigherLevel s d ∨ Level0FromV86 s d)
   (ht : TssStack s d.dpl.toNat sp sel) (he : newStackSegment s false d.dpl sel = .error e) : exec i s = toOutcome
     (.error e) := by
  apply exec_of_deliveryOf_error h.1.1
  have hx : (eventOf i).ext = false := rfl
  rcases hh with hh | hh
  · rw [deliveryOf_eq_interLegacy h hl hc hh]; unfold interLegacy; simp [advanced, interStack_of_tssStack ht, hx, he]
  · rw [deliveryOf_eq_fromV86 h hc hh]; unfold fromV86; simp [advanced, v86Stack_of_tssStack ht, hx, he]

/-- A legacy gate is not a 64-bit one, and its offset fits its size. -/
theorem gateChosen_size {i s g} (h : GateChosen i s g) (hl : s.lma = false) : g.size ≠ .g64 ∧ g.off.toNat < 2^32 ∧
    (g.size = .g16 → g.off.toNat < 2^16) := by
  rcases h.2 with hg | ⟨hg, _⟩
  · obtain ⟨_, _, ⟨raw, _, rfl⟩, _⟩ := hg
    have h1 : bits raw 15 0 < 2^16 := by unfold bits; exact Nat.mod_lt _ (by decide)
    have h2 : bits raw 63 48 < 2^16 := by unfold bits; exact Nat.mod_lt _ (by decide)
    unfold gate8; simp only
    split
    · refine ⟨by simp, ?_, by simp⟩; rw [BitVec.toNat_ofNat]; omega
    · refine ⟨by simp, ?_, ?_⟩
      · rw [BitVec.toNat_ofNat]; omega
      · intro _; rw [BitVec.toNat_ofNat]; omega
  · rw [hg.1] at hl; cases hl

/-- A code segment is expand-up (R63). -/
theorem inLimit_code {d : SegDesc} (h : d.isCode = true) (x : Nat) : inLimit d.hidden x x = decide (x ≤
    d.effLimit.toNat) := by
  have : d.hidden.expandDown = false := by
    unfold SegDesc.isCode at h; simp at h
    simp [SegDesc.hidden, SegDesc.isExpandDown, h]
  unfold inLimit; rw [this]; rfl

theorem v86Room_legacy {p ev g sd newSs hi newSp n} (h : g.size ≠ .g64) : v86Room p ev g sd newSs hi newSp n =
    requireRoom sd.hidden (stackWidthOf sd.hidden) (newSp.toNat % (stackWidthOf sd.hidden).modulus) n
      (.ss (some (selCode newSs ev.ext))) := by unfold v86Room; rw [if_neg h]

/-- ALIGN_RSP_16 leaves two possible tops (log 7). -/
theorem alignTop_cases (top : Word64) : alignTop Config.params top = top ∨ alignTop Config.params top = top &&&
    0xFFFFFFFFFFFFFFF0#64 := by
  unfold alignTop; split
  · exact .inr rfl
  · exact .inl rfl

/-- The premise `LongStack` is the stack of both 64-bit transfers. -/
theorem istPointer_of_longStack {s g d top} (h : LongStack s g d top) : ∃ ist, istPointer Config.params s g = .ok ist ∧
   ((HigherLevel s d → s.tr.kind = .tss64 → ∃ x, interStack Config.params s ist d.dpl = .ok (top, x)) ∧ (SameLevel s d
     → ist.getD (rsp s) = top)) := by
  rcases h with ⟨h0, ht⟩ | ⟨h0, hh, ht⟩ | ⟨h0, hh, rfl⟩
  · refine ⟨some top, ?_, ?_, ?_⟩
    · unfold istPointer; rw [if_neg h0, show tss64IstOffset g.ist = g.ist * 8 + 28 from rfl, readTss64_of_tss64Stack ht]
    · intro _ hk; exact ⟨0#16, by simp [interStack, hk, pure, Except.pure]⟩
    · intro _; rfl
  · refine ⟨none, by simp [istPointer, h0], ?_, ?_⟩
    · intro _ hk; exact ⟨0#16, by simp [interStack, hk, pure, Except.pure, show tss64RspOffset d.dpl = d.dpl.toNat * 8
      + 4 from rfl, readTss64_of_tss64Stack ht]⟩
    · intro hs; rcases hs.2 with h | h
      · rw [hh.2.1] at h; cases h
      · have := hh.2.2; rw [h] at this; omega
  · refine ⟨none, by simp [istPointer, h0], ?_, fun _ => rfl⟩
    intro hs; rcases hh.2 with h | h
    · rw [hs.2.1] at h; cases h
    · have := hs.2.2; rw [h] at this; omega

theorem longGate_size {s v g} (h : LongGate s v g) : g.size = .g64 := by
  obtain ⟨_, _, _, ⟨raw, _, rfl⟩, _⟩ := h; rfl

end Sys2Proof.Machine
end

