-- ==== Sys2Proof/Laws/Transfer.lean ====
section
/-! SUPPORT. From a delivery whose frame fits to the next state of the instruction, its frame read back. -/

namespace Sys2Proof.Machine

/-- Each slot of a frame reads back as the low bytes of the value pushed there. -/
abbrev SlotsRead (t : State) (c : PushPlace) (draw : Nat) (vs : List Slot) : Prop :=
  ∀ j n : Nat, j < vs.length → n ≤ c.size.bytes →
      readSlot t c n j
        = .ok (leNat ((slotBytes Config.params (draw + (vs.length - 1 - j)) c.size.bytes (vs.getD (vs.length - 1 - j)
          (.exact 0#64))).take n))

/-- A delivery whose frame fits, under the identity translation: what the next state holds. -/
theorem exec_enter_of_fits {i s d} (h : Delivers i s) (hd : deliveryOf Config.params (eventOf i) (advanced i s) = .ok d)
   (hid : s.pe = false ∨ s.xlat = [])
   (hf : FrameFits d.place d.slots.length (stackPtr (withHandlerStack d s) d.place.width)) :
   ∃ t, exec i s = .next t ∧ Entered d s t ∧
     FramePushed s t d.place d.slots.length (stackPtr (withHandlerStack d s) d.place.width) ∧
     enterHandler Config.params d (advanced i s) = .ok t ∧
    (∀ j n : Nat, j < d.slots.length → n ≤ d.place.size.bytes →
      readSlot t d.place n j
        = .ok (leNat ((slotBytes Config.params (d.draws + (d.slots.length - 1 - j)) d.place.size.bytes
            (d.slots.getD (d.slots.length - 1 - j) (.exact 0#64))).take n))) := by
  have hid' : (advanced i s).pe = false ∨ (advanced i s).xlat = [] := by simpa [advanced] using hid
  have hsp : ∀ w, stackPtr (withHandlerStack d (advanced i s)) w = stackPtr (withHandlerStack d s) w := by
    intro w; cases w <;> simp [stackPtr, rsp]
  obtain ⟨as, has⟩ := frameAddrs_identity hid' d.place d.slots.length (stackPtr (withHandlerStack d (advanced i s))
    d.place.width)
  obtain ⟨t, ht⟩ := enterHandler_isOk (p := Config.params) has
  obtain ⟨c, hc, hm, hp, he⟩ := enterHandler_ok ht
  have := enterHandler_frame ht hid' (by rw [hsp]; exact hf)
  rw [hsp] at this
  refine ⟨t, ?_, ?_, ?_, ht, this.2⟩
  · rw [exec_delivers h]; simp [deliver, hd, ht, toOutcome]
  · obtain ⟨a1, a2, a3, a4, a5, a6, a7, a8, a9, a10, a11, a12, a13, a14, a15, a16, a17, a18⟩ := he
    simp only [advanced, advanceIp_ds, advanceIp_es, advanceIp_fs, advanceIp_gs, advanceIp_pe, advanceIp_vme,
      advanceIp_lma, advanceIp_idtr, advanceIp_gdtr, advanceIp_ldtr, advanceIp_tr, advanceIp_xlat] at *
    exact ⟨a1, a2, a3, a4, a5, a6, a7, a8, a9, a10, a11, a12, a13, a14, a15, a16, a17, a18⟩
  · obtain ⟨h1, h2⟩ := this.1
    refine ⟨h1, ?_⟩
    intro x hx
    have := h2 x (by simpa [linear, advanced] using hx)
    simpa [advanced] using this

/-- The same with the place, the slot count and the stack pointer named. -/
theorem exec_enter {i s d n sp place} (h : Delivers i s) (hd : deliveryOf Config.params (eventOf i) (advanced i s) =
    .ok d)
   (hid : s.pe = false ∨ s.xlat = []) (hpl : d.place = place) (hn : d.slots.length = n) (hsp : stackPtr
     (withHandlerStack d s) place.width = sp)
   (hf : FrameFits place n sp) :
   ∃ t, exec i s = .next t ∧ Entered d s t ∧
     FramePushed s t place n sp ∧
     enterHandler Config.params d (advanced i s) = .ok t ∧ SlotsRead t place d.draws d.slots := by
  subst hpl hn hsp
  exact exec_enter_of_fits h hd hid hf

theorem Entered.sameSystem {d s t} (h : Entered d s t) : SameSystem s t := ⟨h.pe, h.vme, h.lma, h.idtr, h.gdtr,
    h.ldtr, h.tr, h.xlat⟩

/-- `StackRoom = yes` means that the frame does not wrap. -/
theorem frameFits_of_stackRoom {h : Hidden} {w sp n} {c : PushPlace} (hr : stackRoom h w sp (n * c.size.bytes) = .yes)
    (hw : c.width = w) (hs : sp < c.width.modulus) (hn : n * c.size.bytes ≤ 2 ^ 15) : FrameFits c n sp := by
  refine ⟨hs, hn, .inr ?_⟩
  subst hw
  unfold stackRoom at hr
  simp only at hr
  by_contra hc
  rw [if_pos (by omega)] at hr
  cases hr

theorem stackPtr_lt_modulus (s : State) (w) : stackPtr s w < w.modulus := by
  cases w <;> simp [stackPtr, StackWidth.modulus] <;> omega

theorem frame_bytes_le {n} (hn : n ≤ 9) (g : GateSize) : n * g.bytes ≤ 2 ^ 15 := by
  cases g <;> simp [GateSize.bytes] <;> omega

/-- EFLAGS after a gate, as a mask (R111). -/
theorem eflagsAfterGate_eq (k : GateKind) (e : Word32) : eflagsAfterGate k e = e &&& ~~~(if k = .interrupt then
    0x00034300#32 else 0x00034100#32) := by
  unfold eflagsAfterGate clearFlags interruptGateClears trapGateClears
  split <;> rfl

/-- EFLAGS after real-address-mode delivery, as a mask (R111). -/
theorem eflagsAfterReal_eq (e : Word32) : eflagsAfterReal e = e &&& ~~~0x00040300#32 := rfl

theorem two_le_bytes (g : GateSize) : 2 ≤ g.bytes := by cases g <;> decide

/-- A frame of three values read back. -/
theorem returnImage_plain {t c dr a b ip} (h : SlotsRead t c dr [.exact a, .padded b, .exact ip]) : returnImage t c
    .plain = .ok ⟨ip.toNat % 256 ^ c.size.bytes, b.toNat, a.toNat % 256 ^ c.size.bytes, none, []⟩ := by
  have h0 := h 0 c.size.bytes (by simp) (Nat.le_refl _)
  have h1 := h 1 2 (by simp) (two_le_bytes _)
  have h2 := h 2 c.size.bytes (by simp) (Nat.le_refl _)
  simp only [List.length_cons, List.length_nil] at h0 h1 h2
  norm_num at h0 h1 h2
  rw [leNat_exactSlot] at h0 h2
  rw [leNat_paddedSlot] at h1
  simp [returnImage, h0, h1, h2, pure, Except.pure]

/-- A frame of five values read back. -/
theorem returnImage_withStack {t c dr a b ip sp ss} (h : SlotsRead t c dr [.padded ss, .exact sp, .exact a, .padded b,
    .exact ip]) : returnImage t c .withStack = .ok ⟨ip.toNat % 256 ^ c.size.bytes, b.toNat, a.toNat % 256 ^
      c.size.bytes, some (sp.toNat % 256 ^ c.size.bytes, ss.toNat), []⟩ := by
  have h0 := h 0 c.size.bytes (by simp) (Nat.le_refl _)
  have h1 := h 1 2 (by simp) (two_le_bytes _)
  have h2 := h 2 c.size.bytes (by simp) (Nat.le_refl _)
  have h3 := h 3 c.size.bytes (by simp) (Nat.le_refl _)
  have h4 := h 4 2 (by simp) (two_le_bytes _)
  simp only [List.length_cons, List.length_nil] at h0 h1 h2 h3 h4
  norm_num at h0 h1 h2 h3 h4
  rw [leNat_exactSlot] at h0 h2 h3
  rw [leNat_paddedSlot] at h1 h4
  simp [returnImage, h0, h1, h2, h3, h4, pure, Except.pure]

/-- A frame of nine values read back. -/
theorem returnImage_withData {t c dr a b ip sp ss es ds fs gs} (h : SlotsRead t c dr [.padded gs, .padded fs, .padded
    ds, .padded es, .padded ss, .exact sp, .exact a, .padded b, .exact ip]) : returnImage t c .withData = .ok
      ⟨ip.toNat % 256 ^ c.size.bytes, b.toNat, a.toNat % 256 ^ c.size.bytes, some (sp.toNat % 256 ^ c.size.bytes,
        ss.toNat), [es.toNat, ds.toNat, fs.toNat, gs.toNat]⟩ := by
  have h0 := h 0 c.size.bytes (by simp) (Nat.le_refl _)
  have h1 := h 1 2 (by simp) (two_le_bytes _)
  have h2 := h 2 c.size.bytes (by simp) (Nat.le_refl _)
  have h3 := h 3 c.size.bytes (by simp) (Nat.le_refl _)
  have h4 := h 4 2 (by simp) (two_le_bytes _)
  have h5 := h 5 2 (by simp) (two_le_bytes _)
  have h6 := h 6 2 (by simp) (two_le_bytes _)
  have h7 := h 7 2 (by simp) (two_le_bytes _)
  have h8 := h 8 2 (by simp) (two_le_bytes _)
  simp only [List.length_cons, List.length_nil] at h0 h1 h2 h3 h4 h5 h6 h7 h8
  norm_num at h0 h1 h2 h3 h4 h5 h6 h7 h8
  rw [leNat_exactSlot] at h0 h2 h3
  rw [leNat_paddedSlot] at h1 h4 h5 h6 h7 h8
  simp [returnImage, h0, h1, h2, h3, h4, h5, h6, h7, h8, pure, Except.pure]

theorem rflags_toNat (e : Word32) : (rflags e).toNat = e.toNat := by
  simp only [rflags, BitVec.toNat_setWidth]
  have := e.isLt
  omega

/-- With a 16-bit stack pointer ESP[31:16] is what the delivery loaded. -/
theorem enterHandler_rspLo_upper {d s t} (he : enterHandler Config.params d s = .ok t) (h : d.place.width = .w16) :
    t.rspLo.extractLsb' 16 16 = d.rspLo.extractLsb' 16 16 := by
  unfold enterHandler at he
  split at he
  · next s1 h1 =>
    cases he
    have : ∀ {vs : List Slot} {u v : State}, pushAll Config.params d.place vs u = .ok v → v.rspLo.extractLsb' 16 16 =
      u.rspLo.extractLsb' 16 16 := by
      intro vs
      induction vs with
      | nil => intro u v h; cases h; rfl
      | cons x xs ih =>
        intro u v hh
        simp only [pushAll] at hh
        split at hh
        · next w hw =>
          rw [ih hh]
          obtain ⟨as, _, rfl⟩ := push_eq_ok.mp hw
          rw [h]
          simp only [setStackPtr]
          rw [BitVec.extractLsb'_append_eq_left]
        · cases hh
    have := this h1
    exact this
  · cases he

theorem writeEip_advanced_of_lma {i s} (hl : s.lma = false) (w) : writeEip (advanced i s).rip w = writeEip s.rip w := by
  apply writeEip_advanced; unfold inMode64 opMode; split <;> [rfl; skip]; split <;> [rfl; simp [hl]]

theorem v86Ip_gate8 (raw : Nat) : v86Ip (gate8 raw) = (gate8 raw).off.setWidth 32 := by
  unfold v86Ip
  split
  · rfl
  · next hne =>
    have h : ¬ (bits raw 44 40 = 14 ∨ bits raw 44 40 = 15) := by
      intro h; apply hne; simp [gate8, h]
    simp only [gate8, if_neg h]
    have : bits raw 15 0 < 2 ^ 16 := by unfold bits; exact Nat.mod_lt _ (by norm_num)
    apply BitVec.eq_of_toNat_eq
    have hmask : (0xFFFF#64).toNat = 2 ^ 16 - 1 := rfl
    simp only [BitVec.toNat_setWidth, BitVec.toNat_and, BitVec.toNat_ofNat, Nat.and_two_pow_sub_one_eq_mod, hmask]
    omega

theorem frameFits_w64 {n sp} {pr : Priv} (hs : sp < 2 ^ 64) (hn : n ≤ 9) :
    FrameFits { base := 0#64, width := .w64, size := .g64, priv := pr } n sp :=
  ⟨hs, frame_bytes_le hn _, .inl ⟨rfl, rfl⟩⟩

theorem canonicalFrame_alignTop {top} (h : CanonicalFrame top) : allCanonical Config.params.vaBits 40 (alignTop
    Config.params top - BitVec.ofNat 64 40) = true := by
  have hva : Config.params.vaBits = Config.vaBits := rfl
  rcases alignTop_cases top with e | e <;> rw [e, hva]
  · exact h.1
  · exact h.2

theorem split_word64 (x : Word64) : (x.extractLsb' 32 32 ++ x.setWidth 32) = x := by
  apply BitVec.eq_of_getLsbD_eq
  intro k hk
  simp only [BitVec.getLsbD_append, BitVec.getLsbD_extractLsb', BitVec.getLsbD_setWidth]
  by_cases h : k < 32
  · simp [h]
  · simp [h]; rw [show 32 + (k - 32) = k by omega]; have : k - 32 < 32 := by omega
    simp [this]

theorem stackPtr_withHandlerStack_w64 (d : Delivery) (s : State) (x : Word64) (h1 : d.rspLo = x.setWidth 32) (h2 :
    d.rspHi = x.extractLsb' 32 32) : stackPtr (withHandlerStack d s) .w64 = x.toNat := by
  simp only [stackPtr, rsp, withHandlerStack, h1, h2, split_word64]

/-- Under the identity translation a read does not depend on the privilege. -/
theorem readSlot_priv {t : State} {b w z p1 p2} (h : t.pe = false ∨ t.xlat = []) (n j) : readSlot t ⟨b, w, z, p1⟩ n j
    = readSlot t ⟨b, w, z, p2⟩ n j := by
  simp only [readSlot, physAddrs_identity h]

end Sys2Proof.Machine
end

