-- ==== Sys2Proof/Laws/Stops.lean ====
section
/-! SUPPORT. What each procedure can stop with, said once: the faults of R246 with the codes of R245, and the refusals of R243. -/

namespace Sys2Proof.Machine

/-- An error code that R245 allows: EXT = 0, and bit 1 only in the IDT form. -/
def ListedCode (v : Nat) (lma : Bool) (c : Word16) : Prop :=
  c.getLsbD 0 = false ∧ (c.getLsbD 1 = true → c = BitVec.ofNat 16 (v * (if lma then Config.errScale64 else 8) + 2))

/-- The stops of R246 and R243, with what each implies of the state. -/
def ListedStop (ev : Event) (s : State) : Stop → Prop
  | .fault .ud => False
  | .fault (.gp none) => s.pe = false
  | .fault (.ss none) => False
  | .fault (.gp (some c)) => s.pe = true ∧ ListedCode ev.vector s.lma c
  | .fault (.ss (some c)) => s.pe = true ∧ ListedCode ev.vector s.lma c
  | .fault (.np c) => s.pe = true ∧ ListedCode ev.vector s.lma c
  | .fault (.ts c) => s.pe = true ∧ ListedCode ev.vector s.lma c
  | .fault (.pf c) => s.pe = true ∧ ∃ a k pr, translateAddr s a k pr = .pageFault c
  | .refuse r => (r = .vmeRedirection ∧ s.pe = true ∧ flagVM s.eflags = true ∧ s.vme = true ∧ redirectable ev.source = true) ∨
    (r = .taskSwitch ∧ TaskGatePasses s ev.vector) ∨ (r = .stackWrap ∧ RoomIs s ev.vector .ambiguous)

/-- The event of one of the three instructions (R100). -/
abbrev IsSoftware (ev : Event) : Prop := ev.source.software = true ∧ ev.ext = false ∧ ev.code = none

/-- Every way the answer ends without a value satisfies `P`. -/
def StopsOnly {α} (P : Stop → Prop) (x : Res α) : Prop := ∀ e, x = .error e → P e

theorem stopsOnly_ok {α} {P} {a : α} : StopsOnly P (.ok a) := by intro e h; cases h

theorem stopsOnly_pure {α} {P} {a : α} : StopsOnly P (pure a : Res α) := by intro e h; cases h

theorem stopsOnly_error {α} {P} {e} (h : P e) : StopsOnly (α := α) P (.error e) := by intro e' h'; cases h'; exact h

theorem stopsOnly_raise {α} {P} {f} (h : P (.fault f)) : StopsOnly (α := α) P (raise f) := stopsOnly_error h

theorem stopsOnly_refuse {α} {P} {f} (h : P (.refuse f)) : StopsOnly (α := α) P (refuse f) := stopsOnly_error h

theorem stopsOnly_bind {α β} {P} {x : Res α} {f : α → Res β} (h1 : StopsOnly P x) (h2 : ∀ a, x = .ok a → StopsOnly P
    (f a)) : StopsOnly P (x >>= f) := by
  intro e h
  cases x with
  | error e' => cases h; exact h1 _ rfl
  | ok a => exact h2 a rfl e h

theorem stopsOnly_stopIf {P c e} (h : P e) : StopsOnly P (stopIf c e) := by
  intro e' h'; cases c <;> simp [stopIf] at h'; subst h'; exact h

theorem stopsOnly_physAddrs {ev s k pr n a} : StopsOnly (ListedStop ev s) (physAddrs s k pr n a) := by
  induction n generalizing a with
  | zero => exact stopsOnly_ok
  | succ n ih =>
    simp only [physAddrs]
    split
    · next c hc =>
      apply stopsOnly_raise
      refine ⟨?_, _, _, _, hc⟩
      unfold translateAddr at hc
      split at hc
      · next hp => exact hp
      · cases hc
    · split
      · exact stopsOnly_ok
      · next e he => exact stopsOnly_error (ih e he)

theorem stopsOnly_memRead {ev s n a} : StopsOnly (ListedStop ev s) (memRead s n a) := by
  unfold memRead
  split
  · exact stopsOnly_ok
  · next e he => exact stopsOnly_error (stopsOnly_physAddrs e he)

theorem stopsOnly_readDesc {ev s a} : StopsOnly (ListedStop ev s) (readDesc s a) := by
  unfold readDesc
  split
  · exact stopsOnly_ok
  · next e he => exact stopsOnly_error (stopsOnly_memRead e he)

theorem listedCode_zero {v l} : ListedCode v l 0#16 := by simp [ListedCode]

theorem listedCode_ext {v l} : ListedCode v l (extCode false) := by simp [ListedCode, extCode]

theorem listedCode_selector {v l} (x : Word16) : ListedCode v l (selCode x false) := by
  simp [ListedCode, selCode]

theorem idtCode_bit0 (v k : Nat) (hk : k % 2 = 0) : (idtCode k v false).getLsbD 0 = false := by
  unfold idtCode
  have h0 : v * k % 2 = 0 := by rw [Nat.mul_mod, hk]; simp
  have : (v * k + 2 + Bool.toNat false) % 2 = 0 := by simp; omega
  rw [BitVec.getLsbD_ofNat, Nat.testBit_zero, this]; rfl

theorem errScale64_even : Config.errScale64 % 2 = 0 := by unfold Config.errScale64; split <;> rfl

theorem listedCode_idt8 {v} : ListedCode v false (idtCode 8 v false) := ⟨idtCode_bit0 _ _ rfl, fun _ => by simp
    [idtCode]⟩

theorem listedCode_idt64 {v} : ListedCode v true (idtCode Config.errScale64 v false) := ⟨idtCode_bit0 _ _
    errScale64_even, fun _ => by simp [idtCode]⟩

theorem listedStop_tssFault {ev s} (hp : s.pe = true) : ListedStop ev s (tssFault s) := ⟨hp, listedCode_selector _⟩

theorem stopsOnly_readTss64 {p ev s off} (hp : s.pe = true) : StopsOnly (ListedStop ev s) (readTss64 p s off) := by
  refine stopsOnly_bind (stopsOnly_stopIf (listedStop_tssFault hp)) fun _ _ =>
    stopsOnly_bind stopsOnly_memRead fun _ _ => stopsOnly_pure

theorem stopsOnly_readTss32 {ev s n} (hp : s.pe = true) : StopsOnly (ListedStop ev s) (readTss32Stack s n) := by
  refine stopsOnly_bind (stopsOnly_stopIf (listedStop_tssFault hp)) fun _ _ =>
    stopsOnly_bind stopsOnly_memRead fun _ _ => stopsOnly_bind stopsOnly_memRead fun _ _ => stopsOnly_pure

theorem stopsOnly_readTss16 {ev s n} (hp : s.pe = true) : StopsOnly (ListedStop ev s) (readTss16Stack s n) := by
  refine stopsOnly_bind (stopsOnly_stopIf (listedStop_tssFault hp)) fun _ _ =>
    stopsOnly_bind stopsOnly_memRead fun _ _ => stopsOnly_bind stopsOnly_memRead fun _ _ => stopsOnly_pure

theorem stopsOnly_newStackSegment {ev s n sel} (hp : s.pe = true) : StopsOnly (ListedStop ev s) (newStackSegment s
    false n sel) := by
  refine stopsOnly_bind (stopsOnly_stopIf ⟨hp, listedCode_ext⟩) fun _ _ =>
    stopsOnly_bind (stopsOnly_stopIf ⟨hp, listedCode_selector _⟩) fun _ _ =>
      stopsOnly_bind stopsOnly_readDesc fun _ _ =>
    stopsOnly_bind (stopsOnly_stopIf ⟨hp, listedCode_selector _⟩) fun _ _ =>
      stopsOnly_bind (stopsOnly_stopIf ⟨hp, listedCode_selector _⟩) fun _ _ => stopsOnly_pure

theorem stopsOnly_requireRoom {P : Stop → Prop} {h w sp n f} (hf : P (.fault f))
    (ha : stackRoom h w sp n = .ambiguous → P (.refuse .stackWrap)) : StopsOnly P (requireRoom h w sp n f) := by
  unfold requireRoom
  split
  · exact stopsOnly_ok
  · exact stopsOnly_raise hf
  · next h => exact stopsOnly_refuse (ha h)

theorem stopsOnly_requireCanonicalFrame {p ev s top n} (hp : s.pe = true) : StopsOnly (ListedStop ev s)
    (requireCanonicalFrame p top n) :=
  stopsOnly_stopIf ⟨hp, listedCode_zero⟩

theorem stackRoom_realMode_ne_no (sp : Nat) (h : sp < 65536) : stackRoom realModeStack .w16 sp 6 ≠ .no := by
  have hi : ∀ lo hi, hi ≤ 65535 → inLimit realModeStack lo hi = true := by
    intro lo hi h; simp [inLimit, realModeStack, resetHidden, h]
  unfold stackRoom
  simp only
  rw [hi _ _ (by simp only [StackWidth.modulus]; split <;> omega)]
  split <;> split <;> simp

theorem stopsOnly_realMode {ev : Event} {s} (hp : s.pe = false) : StopsOnly (ListedStop ev s) (realMode ev s) := by
  refine stopsOnly_bind (stopsOnly_stopIf hp) fun _ _ => stopsOnly_bind ?_ fun _ _ =>
    stopsOnly_bind stopsOnly_memRead fun _ _ => stopsOnly_pure
  unfold requireRoom
  split
  · exact stopsOnly_ok
  · next hr =>
    exfalso
    have : stackPtr s .w16 < 65536 := by simp [stackPtr]; omega
    exact stackRoom_realMode_ne_no _ this hr
  · next hr => exact stopsOnly_refuse (.inr (.inr ⟨rfl, .inl ⟨hp, hr⟩⟩))

theorem stopsOnly_protectedGate {ev : Event} {s} (hx : ev.ext = false) (hp : s.pe = true) (hl : s.lma = false) :
    StopsOnly (ListedStop ev s) (protectedGate ev s) := by
  have g : ListedCode ev.vector s.lma (idtCode 8 ev.vector ev.ext) := by rw [hx, hl]; exact listedCode_idt8
  have g' : ListedCode ev.vector s.lma (idtCode 8 ev.vector false) := by rw [hl]; exact listedCode_idt8
  exact stopsOnly_bind (stopsOnly_stopIf ⟨hp, g⟩) fun _ _ => stopsOnly_bind stopsOnly_memRead fun _ _ =>
    stopsOnly_bind (stopsOnly_stopIf ⟨hp, g⟩) fun _ _ =>
    stopsOnly_bind (stopsOnly_stopIf ⟨hp, g'⟩) fun _ _ =>
      stopsOnly_bind (stopsOnly_stopIf ⟨hp, g⟩) fun _ _ => stopsOnly_pure

theorem stopsOnly_longGate {ev : Event} {s} (hx : ev.ext = false) (hp : s.pe = true) (hl : s.lma = true) : StopsOnly
    (ListedStop ev s) (longGate Config.params ev s) := by
  have g : ListedCode ev.vector s.lma (idtCode Config.params.errScale64 ev.vector ev.ext) := by rw [hx, hl]; exact
    listedCode_idt64
  have g' : ListedCode ev.vector s.lma (idtCode Config.params.errScale64 ev.vector false) := by rw [hl]; exact
    listedCode_idt64
  refine stopsOnly_bind (stopsOnly_stopIf ⟨hp, g⟩) fun _ _ =>
    stopsOnly_bind (stopsOnly_stopIf ⟨hp, g⟩) fun _ _ => stopsOnly_bind stopsOnly_memRead fun _ _ =>
      stopsOnly_bind (stopsOnly_stopIf ⟨hp, g⟩) fun _ _ =>
    stopsOnly_bind (stopsOnly_stopIf ⟨hp, g'⟩) fun _ _ =>
      stopsOnly_bind (stopsOnly_stopIf ⟨hp, g⟩) fun _ _ => stopsOnly_pure

theorem stopsOnly_istPointer {p ev s g} (hp : s.pe = true) : StopsOnly (ListedStop ev s) (istPointer p s g) := by
  unfold istPointer
  split
  · exact stopsOnly_ok
  · split
    · exact stopsOnly_ok
    · next e he => exact stopsOnly_error (stopsOnly_readTss64 hp e he)

theorem stopsOnly_istCheckedFirst {P : Stop → Prop} {p x} (h : StopsOnly P x) : StopsOnly P (istCheckedFirst p x) := by
  cases x with
  | ok a => exact stopsOnly_ok
  | error e => exact stopsOnly_stopIf (h e rfl)

theorem stopsOnly_taskGate {ev : Event} {s g} (hsw : ev.source.software = true) (hx : ev.ext = false)
    (hp : s.pe = true) (hl : s.lma = false) (hg : protectedGate ev s = .ok g) (hk : g.kind = .task) :
    StopsOnly (ListedStop ev s) (taskGate ev s g) := by
  have h0 : ListedCode ev.vector s.lma (extCode ev.ext) := by rw [hx]; exact listedCode_ext
  refine stopsOnly_bind (stopsOnly_stopIf ⟨hp, h0⟩) fun _ hn =>
    stopsOnly_bind (stopsOnly_stopIf ⟨hp, listedCode_selector _⟩) fun _ ht => stopsOnly_bind stopsOnly_memRead fun raw hr =>
   stopsOnly_bind (stopsOnly_stopIf ⟨hp, listedCode_selector _⟩) fun _ ha =>
     stopsOnly_bind (stopsOnly_stopIf ⟨hp, listedCode_selector _⟩) fun _ hpr => stopsOnly_refuse (.inr (.inl ⟨rfl, ?_⟩))
  obtain ⟨h1, raw', hr', rfl, _, h3, h4⟩ := protectedGate_eq_ok.mp hg
  rw [stopIf_eq_ok] at hn ht ha hpr
  simp only [Bool.or_eq_false_iff, decide_eq_false_iff_not, Nat.not_lt, Bool.not_eq_false'] at ht ha hpr
  refine ⟨hp, hl, h1, raw', segDesc raw, hr', hk, level_ult_eq_false_iff.mp (by simpa [hsw] using h3), h4, hn, ht.1, ht.2,
    ?_, ha, hpr⟩
  simp [readDesc, descAddr, tableBase, ht.1, hr]

theorem stopsOnly_handlerSegment {p} {ev : Event} {s g} (hx : ev.ext = false) (hp : s.pe = true) : StopsOnly
    (ListedStop ev s) (handlerSegment p ev s g) := by
  have h0 : ListedCode ev.vector s.lma (extCode ev.ext) := by rw [hx]; exact listedCode_ext
  have h1 : ListedCode ev.vector s.lma (selCode g.sel ev.ext) := by rw [hx]; exact listedCode_selector _
  exact stopsOnly_bind (stopsOnly_stopIf ⟨hp, h0⟩) fun _ _ =>
    stopsOnly_bind (stopsOnly_stopIf ⟨hp, h1⟩) fun _ _ =>
      stopsOnly_bind (stopsOnly_stopIf ⟨hp, h1⟩) fun _ _ => stopsOnly_bind stopsOnly_readDesc fun _ _ =>
   stopsOnly_bind (stopsOnly_stopIf ⟨hp, h1⟩) fun _ _ =>
     stopsOnly_bind (stopsOnly_stopIf ⟨hp, h1⟩) fun _ _ =>
       stopsOnly_bind (stopsOnly_stopIf ⟨hp, h1⟩) fun _ _ => stopsOnly_pure

theorem stopsOnly_interStack {p ev s ist n} (hp : s.pe = true) : StopsOnly (ListedStop ev s) (interStack p s ist n) :=
    by
  unfold interStack
  split
  · exact stopsOnly_bind (stopsOnly_readTss32 hp) fun _ _ => stopsOnly_pure
  · exact stopsOnly_bind (stopsOnly_readTss16 hp) fun _ _ => stopsOnly_pure
  · split
    · exact stopsOnly_pure
    · exact stopsOnly_bind (stopsOnly_readTss64 hp) fun _ _ => stopsOnly_pure

theorem stopsOnly_interLegacy {ev : Event} {s g d} (hv : IsSoftware ev) (hp : s.pe = true) (hs : lawful s = true)
    (hg : LegacyGate s ev.vector g) (hc : HandlerCode s g d) (hh : HigherLevel s d) :
    StopsOnly (ListedStop ev s) (interLegacy Config.params ev s g d) := by
  obtain ⟨_, hx, hcode⟩ := hv
  refine stopsOnly_bind (stopsOnly_interStack hp) fun stk hi =>
    stopsOnly_bind (by rw [hx]; exact stopsOnly_newStackSegment hp) fun sd hd =>
      stopsOnly_bind (stopsOnly_requireRoom ⟨hp, by rw [hx]; exact listedCode_selector _⟩ fun ha => ?_) fun _ _ =>
        stopsOnly_bind (stopsOnly_stopIf ⟨hp, listedCode_zero⟩) fun _ _ => stopsOnly_pure
  obtain ⟨esp, he, ht⟩ := tssStack_of_interStack (tr_kind_of_not_lma hs hg.1) hi
  rw [hx] at hd
  refine .inr (.inr ⟨rfl, .inr ⟨hp, g, d, hg, hc, .inr ⟨.inl hh, esp, stk.2, sd, ht, stackSegment_of_newStackSegment hd, ?_⟩⟩⟩)
  have hn : (esp.setWidth 64).toNat = esp.toNat := by rw [BitVec.toNat_setWidth]; omega
  rw [he, hn] at ha
  simpa [hh.1, interSlots, codeSlots, hcode] using ha

theorem stopsOnly_interLong {p} {ev : Event} {s g ist d} (hp : s.pe = true) : StopsOnly (ListedStop ev s) (interLong p
    ev s g ist d) := by
  refine stopsOnly_bind (stopsOnly_interStack hp) fun _ _ =>
    stopsOnly_bind (stopsOnly_requireCanonicalFrame hp) fun _ _ =>
      stopsOnly_bind (stopsOnly_stopIf ⟨hp, listedCode_zero⟩) fun _ _ => stopsOnly_pure

theorem stopsOnly_intraLegacy {ev : Event} {s g d} (hv : IsSoftware ev) (hp : s.pe = true)
    (hg : LegacyGate s ev.vector g) (hc : HandlerCode s g d) (hh : SameLevel s d) :
    StopsOnly (ListedStop ev s) (intraLegacy ev s g d) := by
  refine stopsOnly_bind (stopsOnly_requireRoom ⟨hp, listedCode_zero⟩ fun ha => ?_) fun _ _ =>
    stopsOnly_bind (stopsOnly_stopIf ⟨hp, listedCode_zero⟩) fun _ _ => stopsOnly_pure
  refine .inr (.inr ⟨rfl, .inr ⟨hp, g, d, hg, hc, .inl ⟨hh, ?_⟩⟩⟩)
  simpa [intraLegacySlots, codeSlots, hv.2.2] using ha

theorem stopsOnly_intraLong {p} {ev : Event} {s g ist d} (hp : s.pe = true) : StopsOnly (ListedStop ev s) (intraLong p
    ev s g ist d) := by
  refine stopsOnly_bind (stopsOnly_requireCanonicalFrame hp) fun _ _ =>
    stopsOnly_bind (stopsOnly_stopIf ⟨hp, listedCode_zero⟩) fun _ _ => stopsOnly_pure

theorem stopsOnly_fromV86 {ev : Event} {s g d} (hv : IsSoftware ev) (hp : s.pe = true) (hs : lawful s = true)
    (hg : s.lma = false ∧ LegacyGate s ev.vector g ∨ g.size = .g64) (hc : HandlerCode s g d) (hh : Level0FromV86 s d) :
    StopsOnly (ListedStop ev s) (fromV86 Config.params ev s g d) := by
  obtain ⟨_, hx, hcode⟩ := hv
  refine stopsOnly_bind ?_ fun stk hi => stopsOnly_bind (by rw [hx]; exact stopsOnly_newStackSegment hp) fun sd hd =>
    stopsOnly_bind ?_ fun _ _ => stopsOnly_bind (stopsOnly_stopIf ⟨hp, listedCode_zero⟩) fun _ _ => stopsOnly_pure
  · unfold v86Stack; split
    · exact stopsOnly_readTss32 hp
    · exact stopsOnly_readTss16 hp
  · unfold v86Room; split
    · exact stopsOnly_requireCanonicalFrame hp
    · next h =>
      refine stopsOnly_requireRoom ⟨hp, by rw [hx]; exact listedCode_selector _⟩ fun ha => ?_
      obtain ⟨hl, hg⟩ := hg.resolve_right h
      have ht := tssStack_of_v86Stack (tr_kind_of_not_lma hs hl) hi
      rw [hx] at hd
      refine .inr (.inr ⟨rfl, .inr ⟨hp, g, d, hg, hc,
        .inr ⟨.inr hh, stk.1, stk.2, sd, ht, stackSegment_of_newStackSegment hd, ?_⟩⟩⟩)
      simpa [hh.1, v86Slots, codeSlots, hcode] using ha

theorem stopsOnly_transfer {ev : Event} {s g ist d} (hv : IsSoftware ev) (hp : s.pe = true) (hs : lawful s = true)
    (hg : s.lma = false ∧ LegacyGate s ev.vector g ∨ s.lma = true ∧ g.size = .g64) (hc : HandlerCode s g d)
    (hi : StopsOnly (ListedStop ev s) ist) : StopsOnly (ListedStop ev s) (transfer Config.params ev s g ist d) := by
  have hg' : s.lma = false → LegacyGate s ev.vector g := by
    intro h; rcases hg with hg | hg
    · exact hg.2
    · rw [hg.1] at h; cases h
  unfold transfer
  split
  · next h1 =>
    simp only [Bool.and_eq_true, Bool.not_eq_true'] at h1
    split
    · next h2 =>
      split
      · exact stopsOnly_bind hi fun _ _ => stopsOnly_interLong hp
      · next h =>
        exact stopsOnly_interLegacy hv hp hs (hg' (by simpa using h)) hc ⟨by simpa using h2, h1.1, level_ult_iff.mp h1.2⟩
    · next h2 =>
      split
      · exact stopsOnly_raise ⟨hp, listedCode_selector _⟩
      · next h3 => 
          exact stopsOnly_bind hi fun _ _ =>
            stopsOnly_fromV86 hv hp hs (hg.imp id And.right) hc ⟨by simpa using h2, h1.1, by simpa using h3⟩
  · next h1 =>
    split
    · exact stopsOnly_raise ⟨hp, listedCode_selector _⟩
    · next h2 =>
      split
      · exact stopsOnly_bind hi fun _ _ => stopsOnly_intraLong hp
      · next h =>
        refine stopsOnly_intraLegacy hv hp (hg' (by simpa using h)) hc ⟨by simpa using h2, ?_⟩
        by_cases hcf : d.isConforming = true
        · exact .inl hcf
        · refine .inr (BitVec.eq_of_toNat_eq (Nat.le_antisymm hc.2.2.2.2.2.1 ?_))
          exact level_ult_eq_false_iff.mp (by simpa [hcf] using h1)

theorem stopsOnly_trapOrInterruptGate {ev : Event} {s g ist} (hv : IsSoftware ev) (hp : s.pe = true)
    (hs : lawful s = true) (hg : s.lma = false ∧ LegacyGate s ev.vector g ∨ s.lma = true ∧ g.size = .g64)
    (hi : StopsOnly (ListedStop ev s) ist) :
    StopsOnly (ListedStop ev s) (trapOrInterruptGate Config.params ev s g ist) := by
  unfold trapOrInterruptGate
  split
  · next d hd => exact stopsOnly_transfer hv hp hs hg (handlerCode_of_handlerSegment hd) hi
  · next e he => exact stopsOnly_error (stopsOnly_handlerSegment hv.2.1 hp e he)

/-- The checks of DELIVER stop only as R246 and R243 list. -/
theorem stopsOnly_deliveryOf {ev : Event} {s} (hv : IsSoftware ev) (hs : lawful s = true) : StopsOnly (ListedStop ev
    s) (deliveryOf Config.params ev s) := by
  have hx := hv.2.1
  unfold deliveryOf
  split
  · next hp =>
    have hp : s.pe = false := by simpa using hp
    exact stopsOnly_realMode hp
  · next hp =>
    have hp : s.pe = true := by simpa using hp
    split
    · next h => simp at h; exact stopsOnly_refuse (.inl ⟨rfl, hp, h.1.1, h.1.2, h.2⟩)
    · split
      · exact stopsOnly_raise ⟨hp, listedCode_zero⟩
      · split
        · next hl =>
          have hl : s.lma = false := by simpa using hl
          unfold protectedMode
          split
          · next g hg =>
            split
            · next hk => exact stopsOnly_taskGate hv.1 hx hp hl hg hk
            · next hk =>
              exact stopsOnly_trapOrInterruptGate hv hp hs (.inl ⟨hl, legacyGate_of_protectedGate hl hv.1 hg hk⟩) stopsOnly_ok
          · next e he => exact stopsOnly_error (stopsOnly_protectedGate hx hp hl e he)
        · next hl =>
          have hl : s.lma = true := by simpa using hl
          refine stopsOnly_bind (stopsOnly_longGate hx hp hl) fun g hg =>
            stopsOnly_bind (stopsOnly_istCheckedFirst (stopsOnly_istPointer hp)) fun _ _ =>
              stopsOnly_trapOrInterruptGate hv hp hs (.inr ⟨hl, ?_⟩) (stopsOnly_istPointer hp)
          obtain ⟨_, _, raw, _, rfl, _⟩ := longGate_eq_ok.mp hg
          rfl

theorem stopsOnly_slotAddrs {ev s c sp} : StopsOnly (ListedStop ev s) (slotAddrs s c sp) := stopsOnly_physAddrs

theorem stopsOnly_pushAll {p ev s c vs u} (h : u.pe = s.pe ∧ u.lma = s.lma ∧ u.xlat = s.xlat) : StopsOnly (ListedStop
    ev s) (pushAll p c vs u) := by
  induction vs generalizing u with
  | nil => exact stopsOnly_ok
  | cons v vs ih =>
    simp only [pushAll]
    split
    · next s' hs' =>
      obtain ⟨as, _, rfl⟩ := push_eq_ok.mp hs'
      exact ih (by simpa using h)
    · next e he =>
      apply stopsOnly_error
      unfold push at he
      simp only at he
      split at he
      · next e' he' =>
        cases he
        rw [slotAddrs_congr h.1 h.2.1 h.2.2] at he'
        exact stopsOnly_slotAddrs _ he'
      · cases he

theorem stopsOnly_deliver {ev : Event} {s} (hx : IsSoftware ev) (hs : lawful s = true) : StopsOnly (ListedStop ev s)
    (deliver Config.params ev s) := by
  unfold deliver
  split
  · next d _ =>
    unfold enterHandler
    split
    · exact stopsOnly_ok
    · next e he => exact stopsOnly_error (stopsOnly_pushAll (by simp) e he)
  · next e he => exact stopsOnly_error (stopsOnly_deliveryOf hx hs e he)

theorem taskGatePasses_advanced (i : Instr) (s : State) (v : Nat) :
    TaskGatePasses (advanced i s) v = TaskGatePasses s v := by
  simp only [TaskGatePasses, advanced, advanceIp_pe, advanceIp_lma, advanceIp_idtr, advanceIp_gdtr, advanceIp_cpl,
    advanceIp_memRead, advanceIp_readDesc]

theorem roomIs_advanced (i : Instr) (s : State) (v : Nat) (r : Room) : RoomIs (advanced i s) v r = RoomIs s v r := by
  simp only [RoomIs, LegacyGate, HandlerCode, SameLevel, HigherLevel, Level0FromV86, TssStack, StackSegment, advanced,
    advanceIp_pe, advanceIp_lma, advanceIp_idtr, advanceIp_cpl, advanceIp_tr, advanceIp_ss, advanceIp_eflags,
    advanceIp_memRead, advanceIp_readDesc, advanceIp_inTable, advanceIp_descAddr, advanceIp_stackPtr]

/-- An instruction that delivers stops only as R246 and R243 list. -/
theorem stopsOnly_instruction {i s} (h : Delivers i s) : StopsOnly (ListedStop (eventOf i) s) (deliver Config.params
    (eventOf i) (advanced i s)) := by
  intro e he
  have := stopsOnly_deliver (ev := eventOf i) (s := advanced i s) ⟨eventOf_software i, rfl, rfl⟩ (by simpa [advanced] using h.1) e he
  revert this
  have ht : ∀ a k pr, translateAddr (advanced i s) a k pr = translateAddr s a k pr := by
    intro a k pr
    simp [translateAddr, advanced]
  simp only [ListedStop, ht, taskGatePasses_advanced, roomIs_advanced]
  simp [advanced]

theorem toOutcome_eq_fault {r : Res State} {f} (h : toOutcome r = .fault f) : r = .error (.fault f) := by
  rcases r with (_ | _) | _ <;> simp [toOutcome] at h; rw [h]

theorem toOutcome_eq_refused {r : Res State} {f} (h : toOutcome r = .refused f) : r = .error (.refuse f) := by
  rcases r with (_ | _) | _ <;> simp [toOutcome] at h; rw [h]

/-- Where a fault of an instruction comes from: its own check, or the delivery. -/
theorem exec_fault_cases {i s f} (h : exec i s = .fault f) : (lawful s = true ∧ (i.lock = true ∨ sourceOf i = .into ∧
    opMode s = .mode64) ∧ f = .ud) ∨
   (Delivers i s ∧ ListedStop (eventOf i) s (.fault f)) := by
  rcases exec_cases i s with ⟨_, he⟩ | ⟨h1, h2, he⟩ | ⟨_, _, _, _, he⟩ | ⟨hd, he⟩
  · rw [he] at h; cases h
  · rw [he] at h; cases h; exact .inl ⟨h1, h2, rfl⟩
  · rw [he] at h; cases h
  · rw [he] at h; exact .inr ⟨hd, stopsOnly_instruction hd _ (toOutcome_eq_fault h)⟩

end Sys2Proof.Machine
end

