-- ==== Sys2Proof/Tests/Slice0.lean ====
section
/-! SUPPORT. The model's own tests. The expected results are those of spec/95_test_vectors.md (named V<n>, P<n>) and words
written out from the encoding rules R80 to R90. -/

namespace Sys2Proof.Tests

open Sys2Proof.Machine

/-! ## Helpers -/

/-- Parameters with every free value fixed to something recognisable; the open parameters are arguments. -/
def testParams (align : Bool) (scale : Nat) (intoSensitive : Bool) : Params where
  vaBits := 48
  v86IntoIoplSensitive := intoSensitive
  alignRsp16 := align
  errScale64 := scale
  istReadFirst := false
  selPad := fun _ => 0x665544332211#48
  rspHigh := fun _ => 0xDEADBEEF#32
  ssRpl := fun _ => 2#2
  ipPastTop := fun _ => 0x123456789ABCDEF0#64
  frameByte := fun k => BitVec.ofNat 8 (0xA0 + k)

/-- The parameters used where the result depends on none of them. -/
def tp : Params := testParams true 16 false

/-- Memory holding bytes from each given address on. -/
def memOf : List (Nat × List Nat) → Memory
  | [] => []
  | (a, bs) :: rest => storeCells (memOf rest) ((bs.zipIdx).map (fun x => (a + x.2, BitVec.ofNat 8 x.1)))

/-- A field of the next state, if there is one. -/
def after {α : Type} (r : Res State) (f : State → α) : Option α :=
  match r with
  | .ok s => some (f s)
  | .error _ => none

/-- Why a run of a meaning stopped, if it did. -/
def stopOf {α : Type} (r : Res α) : Option Stop :=
  match r with
  | .ok _ => none
  | .error e => some e

/-- The bytes of memory from an address on. -/
def bytesAt (a n : Nat) (s : State) : List Nat := (List.range n).map (fun i => (readByte s.mem (a + i)).toNat)

/-- A flat 32-bit segment of level `dpl`. -/
def flat (dpl : BitVec 2) (code : Bool) : Hidden :=
  { base := 0#32, limit := 0xFFFFFFFF#32, dpl := dpl, code := code, conforming := false, writableData := !code,
    expandDown := false, l := false, db := true, usable := true }

/-! ## The states of the vectors -/

/-- V1 before. -/
def v1 : State :=
  { State.reset with
    cs := ⟨0x1000#16, resetHidden 0x10000#32⟩, rip := 0x100#64
    ss := ⟨0x2000#16, resetHidden 0x20000#32⟩, rspLo := 0x100#32
    eflags := 0x00040303#32, idtr := ⟨0#64, 0x3FF#16⟩
    mem := memOf [(0x10100, [0xCD, 0x21]), (0x84, [0x60, 0x10, 0x00, 0xF0])] }

/-- V5 before. -/
def v5 : State :=
  { State.reset with
    pe := true, cs := ⟨0x8#16, flat 0#2 true⟩, rip := 0x401000#64
    ss := ⟨0x10#16, flat 0#2 false⟩, rspLo := 0x9FFF0#32, eflags := 0x00014346#32
    idtr := ⟨0x100000#64, 0x7FF#16⟩, gdtr := ⟨0x101000#64, 0x17#16⟩
    mem := memOf [(0x401000, [0xCC]), (0x100018, [0x00, 0x20, 0x08, 0x00, 0x00, 0xEE, 0x40, 0x00]),
      (0x101008, [0xFF, 0xFF, 0, 0, 0, 0x9A, 0xCF, 0])] }

/-- V7 before. -/
def v7 : State :=
  { State.reset with
    pe := true, cpl := 3#2, cs := ⟨0x1B#16, flat 3#2 true⟩, rip := 0x08048000#64
    ss := ⟨0x23#16, flat 3#2 false⟩, rspLo := 0xBFFFF000#32, eflags := 0x202#32
    idtr := ⟨0x100000#64, 0x7FF#16⟩, gdtr := ⟨0x101000#64, 0x2F#16⟩
    tr := ⟨0x28#16, 0x102000#64, 0x67#32, .tss32⟩
    mem := memOf [(0x08048000, [0xCD, 0x80]), (0x100400, [0x00, 0x30, 0x08, 0x00, 0x00, 0xEF, 0x40, 0x00]),
      (0x101008, [0xFF, 0xFF, 0, 0, 0, 0x9A, 0xCF, 0]), (0x101010, [0xFF, 0xFF, 0, 0, 0, 0x92, 0xCF, 0]),
      (0x102004, [0, 0, 0x20, 0]), (0x102008, [0x10, 0])] }

/-- `s` with bytes replaced. -/
def patched (s : State) (l : List (Nat × List Nat)) : State :=
  { s with mem := l.foldl (fun m x => storeCells m ((x.2.zipIdx).map (fun y => (x.1 + y.2, BitVec.ofNat 8 y.1)))) s.mem }

/-- V3 before: INTO with OF = 0. -/
def v3 : State :=
  { v1 with rip := 0x200#64, eflags := 0x202#32, mem := memOf [(0x10200, [0xCE]), (0x10, [0, 0x20, 0, 0xC0])] }

/-- V8 before: virtual-8086 mode. -/
def v8 : State :=
  { patched v7 [(0x20100, [0xCD, 0x21]), (0x100108, [0x00, 0x40, 0x08, 0x00, 0x00, 0xEE, 0x40, 0x00])] with
    cs := ⟨0x2000#16, resetHidden 0x20000#32⟩, rip := 0x100#64
    ss := ⟨0x3000#16, resetHidden 0x30000#32⟩, rspLo := 0xFFFE#32
    ds := ⟨0x4000#16, resetHidden 0x40000#32⟩, es := ⟨0x5000#16, resetHidden 0x50000#32⟩
    fs := ⟨0x6000#16, resetHidden 0x60000#32⟩, gs := ⟨0x7000#16, resetHidden 0x70000#32⟩, eflags := 0x23202#32 }

/-- V9 before: IA-32e mode, level 3. -/
def v9 : State :=
  { State.reset with
    pe := true, lma := true, cpl := 3#2, eflags := 0x246#32
    cs := ⟨0x33#16, { flat 3#2 true with l := true, db := false }⟩, rip := 0x401000#64
    ss := ⟨0x2B#16, flat 3#2 false⟩, rspLo := 0xFFFFE008#32, rspHi := 0x7FFF#32
    idtr := ⟨0x100000#64, 0xFFF#16⟩, gdtr := ⟨0x101000#64, 0x4F#16⟩
    tr := ⟨0x40#16, 0x103000#64, 0x67#32, .tss64⟩
    mem := memOf [(0x401000, [0xCC]),
      (0x100030, [0, 0x20, 8, 0, 0, 0xEE, 0, 0x80, 0xFF, 0xFF, 0xFF, 0xFF, 0, 0, 0, 0]),
      (0x101008, [0, 0, 0, 0, 0, 0x9A, 0x20, 0]), (0x103004, [0, 0, 1, 0, 0, 0x80, 0xFF, 0xFF])] }

/-- V10 before: IA-32e mode, level 0. -/
def v10 : State :=
  { v9 with
    cpl := 0#2, cs := ⟨0x8#16, { flat 0#2 true with l := true, db := false }⟩, rip := 0xFFFFFFFF80001000#64
    ss := ⟨0#16, flat 0#2 false⟩, rspLo := 0xFF38#32, rspHi := 0xFFFF8000#32, eflags := 0x202#32 }

/-- V14 before: INTO in compatibility mode. -/
def v14 : State :=
  { patched v9 [(0x401000, [0xCE]),
      (0x100040, [0, 0x50, 8, 0, 0, 0x8E, 0, 0x80, 0xFF, 0xFF, 0xFF, 0xFF, 0, 0, 0, 0])] with
    cpl := 0#2, cs := ⟨0x20#16, flat 0#2 true⟩, ss := ⟨0x10#16, flat 0#2 false⟩, rspLo := 0x9FFF0#32, rspHi := 0#32
    eflags := 0xA02#32 }

/-! ## Well-formedness: an ill-formed term for the one check -/

theorem test_vector_256_is_ill_formed : (Instr.intImm8 false 256).wellFormed = false := by decide
theorem test_vector_255_is_well_formed : (Instr.intImm8 true 255).wellFormed = true := by decide

/-! ## Decoding: words written out bit by bit from R80 and R88 -/

theorem test_decode_int3 : decode false [0b11001100#8] = .instr (.int3 false) := by decide
theorem test_decode_int3_m64 : decode true [0b11001100#8] = .instr (.int3 false) := by decide
theorem test_decode_int21 : decode false [0b11001101#8, 0b00100001#8] = .instr (.intImm8 false 0x21) := by decide
theorem test_decode_int_3_two_bytes : decode false [0b11001101#8, 0b00000011#8] = .instr (.intImm8 false 3) := by decide
theorem test_decode_into : decode false [0b11001110#8] = .instr (.into false) := by decide
theorem test_decode_lock_int3 : decode false [0b11110000#8, 0b11001100#8] = .instr (.int3 true) := by decide
theorem test_decode_lock_int80 :
    decode false [0b11110000#8, 0b11001101#8, 0b10000000#8] = .instr (.intImm8 true 0x80) := by decide
theorem test_decode_lock_into : decode true [0b11110000#8, 0b11001110#8] = .instr (.into true) := by decide
theorem test_decode_operand_size : decode false [0x66#8, 0xCD#8, 0x21#8] = .otherPrefix := by decide
theorem test_decode_rex : decode true [0x48#8, 0xCC#8] = .otherPrefix := by decide
theorem test_decode_prefixed_into : decode false [0x66#8, 0xCE#8] = .otherPrefix := by decide
theorem test_decode_prefixed_into_m64 : decode true [0x48#8, 0xCE#8] = .instr (.into false) := by decide
theorem test_decode_nop : decode false [0x90#8] = .notInScope := by decide
theorem test_decode_unfinished : decode false [0xCD#8] = .more := by decide
theorem test_encode_lock_int : encode (.intImm8 true 0x80) = [0xF0#8, 0xCD#8, 0x80#8] := by decide
theorem test_table_int3 : decodeTableWord 8 0xCC = some (.int3 false) := by decide
theorem test_table_int_imm8 : decodeTableWord 16 0x21CD = some (.intImm8 false 0x21) := by decide
theorem test_table_into : decodeTableWord 8 0xCE = some (.into false) := by decide

/-! ## The fetch, and the word placed where it reads -/

theorem test_fetch_v1 : nextInstr 48 v1 = .ok (.intImm8 false 0x21) := by rfl
theorem test_fetch_after_reset : nextInstr 48 (State.reset.withFetchWord 16 0x21CD) = .ok (.intImm8 false 0x21) := by rfl
/-- R101: a prefix other than LOCK before CEH in 64-bit mode does not hide the #UD. -/
theorem test_step_prefixed_into_m64 : step (patched v9 [(0x401000, [0x66, 0x48, 0xCE])]) = .fault .ud := by rfl
theorem test_step_after_reset : ∃ t, step (State.reset.withFetchWord 8 0xCC) = .next t ∧ t.cs.sel = 0#16 := ⟨_, rfl, rfl⟩

/-! ## Memory -/

theorem test_reset_memory : Memory.wf State.reset.mem = true := by decide
theorem test_write_zero_removes : writeByte (writeByte [] 5 7#8) 5 0#8 = [] := by decide
theorem test_writes_are_sorted : writeByte (writeByte [] 9 1#8) 3 2#8 = [(3, 2#8), (9, 1#8)] := by decide

/-! ## INT imm8 -/

/-- V1: the frame, SP and flags. -/
theorem test_v1_real_frame :
    after (intImm8With tp false 0x21 v1) (fun s => (bytesAt 0x200FA 6 s, stackPtr s .w16, s.eflags))
      = some ([0x02, 0x01, 0x00, 0x10, 0x03, 0x03], 0xFA, 0x3#32) := by decide

/-- V1: CS:EIP. -/
theorem test_v1_real_target :
    after (intImm8With tp false 0x21 v1) (fun s => (s.cs.sel, s.cs.hidden.base, s.cs.hidden.limit, s.rip))
      = some (0xF000#16, 0xF0000#32, 0xFFFF#32, 0x1060#64) := by decide

/-! ## INT 3 -/

/-- V5: an interrupt gate without a change of level: EIP and CS, EFLAGS, ESP and the flags after. -/
theorem test_v5_frame :
    after (int3With tp false v5) (fun s => (bytesAt 0x9FFE4 6 s, bytesAt 0x9FFEC 4 s, s.rspLo, s.eflags))
      = some ([0x01, 0x10, 0x40, 0, 0x08, 0], [0x46, 0x43, 0x01, 0], 0x9FFE4#32, 0x46#32) := by decide

/-- V9: a 64-bit gate to level 0: CS, RIP, SS, CPL, RSP and RIP's slot. -/
theorem test_v9_target :
    after (int3With tp false v9) (fun s => (s.cs.sel ++ s.ss.sel ++ s.rip, s.cpl, rsp s, bytesAt 0xFFFF80000000FFD8 8 s))
      = some (0x80000#32 ++ 0xFFFFFFFF80002000#64, 0#2, 0xFFFF80000000FFD8#64, [0x01, 0x10, 0x40, 0, 0, 0, 0, 0]) := by decide

/-! ## INTO -/

/-- V3: OF = 0 only advances. -/
theorem test_v3_advances : after (intoWith tp false v3) (fun s => s) = some { v3 with rip := 0x201#64 } := by decide

/-- V14: in compatibility mode the handler of vector 4 runs in 64-bit mode. -/
theorem test_v14_target :
    after (intoWith tp false v14) (fun s => (s.cs.sel, s.rip, opMode s, rsp s))
      = some (0x8#16, 0xFFFFFFFF80005000#64, .mode64, 0x9FFC8#64) := by decide

/-! ## Witnesses: for each statement with hypotheses, states and operands that meet them, clause by clause, at the edges of
the ranges the clauses name -/

/-- V5's IDT entry with byte 5 replaced. -/
def raw5 (b5 : Nat) : Nat := 0x0040000000082000 + b5 * 2 ^ 40

/-- V9's IDT entry with bytes 4 and 5 replaced. -/
def raw9 (b4 b5 : Nat) : Nat := 0xFFFFFFFF8000000000082000 + b4 * 2 ^ 32 + b5 * 2 ^ 40

/-- V5 with an IDT limit and byte 5 of the gate replaced. -/
def v5g (limit : Word16) (b5 : Nat) : State :=
  { patched v5 [(0x10001D, [b5])] with idtr := ⟨0x100000#64, limit⟩ }

/-- V5 with byte 5 of the handler's descriptor replaced. -/
def v5c (b5 : Nat) : State := patched v5 [(0x10100D, [b5])]

/-- V9 with bytes 4 and 5 of the gate replaced. -/
def v9g (b4 b5 : Nat) : State := patched v9 [(0x100034, [b4, b5])]

/-- V7 with the level-0 stack selector, and byte 5 of its descriptor, replaced. -/
def v7s (sel b5 : Nat) : State := patched v7 [(0x102008, [sel]), (0x101015, [b5])]

/-- V15: a task gate, with its selector and byte 5 of the TSS descriptor replaced, and a GDT limit. -/
def v15 (sel b5 : Nat) (limit : Word16) : State :=
  { patched v5 [(0x100018, [0, 0, sel, 0, 0, 0xE5, 0, 0]), (0x101028, [0x67, 0, 0, 0x20, 0x10, b5, 0, 0])] with
    gdtr := ⟨0x101000#64, limit⟩ }

/-- The gates of V5, V7, V8 and V9, and the descriptors of the handlers and the level-0 stack. -/
def g5 : Gate := gate8 (raw5 0xEE)
def g7 : Gate := gate8 0x0040EF0000083000
def g8 : Gate := gate8 0x0040EE0000084000
def g9 : Gate := gate16 (raw9 0 0xEE)
def code0 : SegDesc := segDesc 0x00CF9A000000FFFF
def code64 : SegDesc := segDesc 0x00209A0000000000
def stack0 : SegDesc := segDesc 0x00CF92000000FFFF

theorem test_gate_v5 : GateChosen (.int3 false) v5 g5 :=
  ⟨by decide, .inl ⟨rfl, by decide, ⟨raw5 0xEE, rfl, rfl⟩, by decide, by decide, by decide⟩⟩
theorem test_gate_v7 : GateChosen (.intImm8 false 0x80) v7 g7 :=
  ⟨by decide, .inl ⟨rfl, by decide, ⟨0x0040EF0000083000, rfl, rfl⟩, by decide, by decide, by decide⟩⟩
theorem test_gate_v8 : GateChosen (.intImm8 false 0x21) v8 g8 :=
  ⟨by decide, .inl ⟨rfl, by decide, ⟨0x0040EE0000084000, rfl, rfl⟩, by decide, by decide, by decide⟩⟩
theorem test_gate_v9 : LongGate v9 3 g9 :=
  ⟨rfl, by decide, by decide, ⟨raw9 0 0xEE, rfl, rfl⟩, by decide, by decide, by decide⟩
theorem test_code_v5 : HandlerCode v5 g5 code0 :=
  ⟨by decide, by decide, nofun, rfl, by decide, by decide, nofun, by decide⟩
theorem test_code_v7 : HandlerCode v7 g7 code0 :=
  ⟨by decide, by decide, nofun, rfl, by decide, by decide, nofun, by decide⟩
theorem test_code_v8 : HandlerCode v8 g8 code0 :=
  ⟨by decide, by decide, nofun, rfl, by decide, by decide, nofun, by decide⟩
theorem test_code_v9 : HandlerCode v9 g9 code64 :=
  ⟨by decide, by decide, by decide, rfl, by decide, by decide, by decide, by decide⟩
theorem test_tss_v7 : TssStack v7 0 0x200000#32 0x10#16 := .inl ⟨rfl, by decide, rfl, rfl⟩
theorem test_stack_v7 : StackSegment v7 0#2 0x10#16 stack0 :=
  ⟨by decide, by decide, by decide, rfl, by decide, by decide, by decide⟩

theorem test_hyp_DecodeOfEncodeIsTheInstruction :
    (Instr.intImm8 true 255).wellFormed = true ∧ (Instr.intImm8 false 0).wellFormed = true := by decide
/-- Two prefixes and CEH in 64-bit mode. -/
def v9q : State := patched v9 [(0x401000, [0x66, 0x4F, 0xCE])]

theorem test_hyp_OtherPrefixesAreRefused :
    ((Instr.into false).wellFormed = true ∧ (Instr.intImm8 true 255).wellFormed = true ∧ [0x66#8, 0x4F#8] ≠ [] ∧
      (∀ b ∈ [0x66#8, 0x4F#8], isLockByte b = false ∧ isOtherPrefixByte true b = true) ∧
      ∀ b ∈ [0x66#8], isLockByte b = false ∧ isOtherPrefixByte false b = true) ∧
    ([0x66#8, 0x4F#8].length < fetchLimit ∧ lawful v9q = true ∧ inMode64 v9q = true ∧
      ∀ j b, ([0x66#8, 0x4F#8] ++ [0xCE#8])[j]? = some b → fetchByte Config.vaBits v9q j = .ok b) := by
  refine ⟨by decide, by decide, by decide, by decide, ?_⟩
  rintro (_ | _ | _ | j) b h <;> simp at h <;> subst h <;> rfl
theorem test_hyp_FirstByteSelectsTheInstruction :
    fetchByte Config.vaBits v5 0 = .ok 0xCC#8 ∧ fetchByte Config.vaBits v3 0 = .ok 0xCE#8 ∧
      (fetchByte Config.vaBits v1 0 = .ok 0xCD#8 ∧ fetchByte Config.vaBits v1 1 = .ok 0x21#8) ∧
      (fetchByte Config.vaBits (patched v1 [(0x10100, [0xCF])]) 0 = .ok 0xCF#8 ∧ isLockByte 0xCF#8 = false ∧
        isOtherPrefixByte false 0xCF#8 = false) := ⟨rfl, rfl, ⟨rfl, rfl⟩, rfl, rfl, rfl⟩
theorem test_hyp_StepRunsTheDecodedInstruction :
    [0xCD#8, 0x21#8].length ≤ fetchLimit ∧
      (∀ j b, [0xCD#8, 0x21#8][j]? = some b → fetchByte Config.vaBits v1 j = .ok b) ∧
      decode (inMode64 v1) [0xCD#8, 0x21#8] = .instr (.intImm8 false 0x21) ∧
      (Instr.intImm8 false 0x21).wellFormed = true := by
  refine ⟨by decide, ?_, by decide, by decide⟩
  rintro (_ | _ | j) b h <;> simp at h <;> subst h <;> rfl

/-- V1 at the last offset of its segment; V5 with `CD` and a page fault on the next byte. -/
def v1e : State := patched { v1 with rip := 0xFFFF#64 } [(0x1FFFF, [0xCD])]
def v5f : State :=
  { patched v5 [(0x401000, [0xCD])] with xlat := [⟨0x401001#64, .fetch, .supervisor, .pageFault 0x10#16⟩] }

theorem test_hyp_StepStopsWhereNothingDecodes :
    (fetchByte Config.vaBits (patched v1 [(0x10100, [0x66, 0xCC])]) 0 = .ok 0x66#8 ∧
      fetchByte Config.vaBits (patched v1 [(0x10100, [0x66, 0xCC])]) 1 = .ok 0xCC#8 ∧
      decode false [0x66#8, 0xCC#8] = .otherPrefix) ∧
    (fetchByte Config.vaBits (patched v1 [(0x10100, [0x90])]) 0 = .ok 0x90#8 ∧ decode false [0x90#8] = .notInScope) ∧
    (fetchByte Config.vaBits v1e 0 = .ok 0xCD#8 ∧ decode false [0xCD#8] = .more ∧
      fetchable Config.vaBits v1e 1 = false) ∧
    (fetchByte Config.vaBits v5f 0 = .ok 0xCD#8 ∧ fetchable Config.vaBits v5f 1 = true ∧
      translateAddr v5f (linear v5f (fetchAddr v5f 1)) .fetch (cplPriv v5f) = .pageFault 0x10#16) :=
  ⟨⟨rfl, rfl, rfl⟩, ⟨rfl, rfl⟩, ⟨rfl, rfl, rfl⟩, rfl, rfl, rfl⟩

theorem test_hyp_LockRaisesInvalidOpcode : lawful v9 = true ∧ (Instr.intImm8 true 255).lock = true := by decide
theorem test_hyp_IntoInvalidExactlyIn64BitMode :
    (lawful v9 = true ∧ opMode v9 = .mode64) ∧ lawful v14 = true ∧ opMode v14 = .compat := by decide
theorem test_hyp_InvalidOpcodeHasTwoCauses : lawful v8 = true := by decide
theorem test_hyp_IntoWithoutOverflowOnlyAdvances :
    let s := { v3 with rip := 0xFFFFFFFE#64 }
    lawful s = true ∧ opMode s ≠ .mode64 ∧ flagOF s.eflags = false ∧ (eip s).toNat + 1 < 2 ^ 32 := by decide

theorem test_hyp_RealModeDelivery :
    ∀ sp ∈ [0#32, 6#32, 0x100#32],
      let s := { v1 with idtr := ⟨0#64, 0x87#16⟩, rspLo := sp }
      Delivers (.intImm8 false 0x21) s ∧ s.pe = false ∧ ReturnFits (.intImm8 false 0x21) s ∧
        0x21 * 4 + 3 ≤ s.idtr.limit.toNat ∧ (stackPtr s .w16 = 0 ∨ 6 ≤ stackPtr s .w16) := by
  intro sp h
  fin_cases h <;> decide
theorem test_hyp_RealModeDelivery_entry : memRead v1 4 (tableAddr v1.idtr.base (0x21 * 4)) = .ok 0xF0001060 := by decide
theorem test_hyp_RealModeVectorMustBeWithinTheLimit :
    ∀ limit ∈ [0x86#16, 0x87#16, 0x3FF#16],
      Delivers (.intImm8 false 0x21) { v1 with idtr := ⟨0#64, limit⟩ } ∧ v1.pe = false ∧
        (limit.toNat < 0x21 * 4 + 3 ∨ 0x21 * 4 + 3 ≤ limit.toNat) := by
  intro limit h
  fin_cases h <;> decide
theorem test_hyp_RealModeWrappingFrameIsRefused :
    ∀ sp ∈ [1#32, 5#32], let s := { v1 with rspLo := sp }
      Delivers (.intImm8 false 255) s ∧ s.pe = false ∧ 255 * 4 + 3 ≤ s.idtr.limit.toNat ∧ 1 ≤ stackPtr s .w16 ∧
        stackPtr s .w16 ≤ 5 := by
  intro sp h
  fin_cases h <;> decide
theorem test_hyp_RealModeFaultsAreTheListed :
    exec (.int3 true) v1 = .fault .ud ∧
      exec (.intImm8 false 0x21) { v1 with idtr := ⟨0#64, 0x86#16⟩ } = .fault (.gp none) := ⟨rfl, rfl⟩
theorem test_hyp_RealModeReadsNoTables : State.reset.pe = false := by decide

theorem test_hyp_Virtual8086IoplFault :
    ∀ e ∈ [0x20202#32, 0x22202#32], let s := { v8 with eflags := e }
      lawful s = true ∧ s.pe = true ∧ flagVM s.eflags = true ∧ s.vme = false ∧ (flagIOPL s.eflags).toNat < 3 := by
  intro e h
  fin_cases h <;> decide
theorem test_hyp_Virtual8086IntoFollowsTheParameter :
    let s := { v8 with eflags := 0x22A02#32 }
    lawful s = true ∧ s.pe = true ∧ flagVM s.eflags = true ∧ s.vme = false ∧ flagOF s.eflags = true ∧
      (flagIOPL s.eflags).toNat < 3 ∧ flagVM 0x23A02#32 = true ∧ flagOF 0x23A02#32 = true ∧
      flagIOPL 0x23A02#32 = 3#2 := by decide
theorem test_hyp_VmeRedirectionIsRefused :
    let s := { v8 with vme := true }
    Delivers (.intImm8 false 0x21) s ∧ sourceOf (.intImm8 false 0x21) ≠ .int3 ∧ s.pe = true ∧
      flagVM s.eflags = true ∧ s.vme = true := by decide
theorem test_hyp_Int3IgnoresVmeAndIopl : flagVM 0x20002#32 = flagVM v8.eflags := by decide
theorem test_hyp_OnlyVmIoplAndOfAreRead :
    flagVM 0x23002#32 = flagVM v8.eflags ∧ flagOF 0x23002#32 = flagOF v8.eflags ∧
      flagIOPL 0x23002#32 = flagIOPL v8.eflags ∧ 0x23002#32 ≠ v8.eflags := by decide

theorem test_hyp_ProtectedModeGateFaults :
    (ReachesGate (.int3 false) (v5g 0x1E#16 0xEE) ∧ (v5g 0x1E#16 0xEE).lma = false ∧ 0x1E < 3 * 8 + 7) ∧
    (ReachesGate (.int3 false) (v5g 0x1F#16 0xE4) ∧
      memRead (v5g 0x1F#16 0xE4) 8 (tableAddr 0x100000#64 (3 * 8)) = .ok (raw5 0xE4) ∧
      (gate8 (raw5 0xE4)).kind = .other) ∧
    (let s := { v5g 0x1F#16 0xCE with cpl := 3#2 };
      ReachesGate (.int3 false) s ∧ memRead s 8 (tableAddr 0x100000#64 (3 * 8)) = .ok (raw5 0xCE) ∧
      (gate8 (raw5 0xCE)).kind ≠ .other ∧ (gate8 (raw5 0xCE)).dpl.toNat < s.cpl.toNat) ∧
    (let s := { v5g 0x1F#16 0x6E with cpl := 3#2 };
      ReachesGate (.int3 false) s ∧ memRead s 8 (tableAddr 0x100000#64 (3 * 8)) = .ok (raw5 0x6E) ∧
      (gate8 (raw5 0x6E)).kind ≠ .other ∧ s.cpl.toNat ≤ (gate8 (raw5 0x6E)).dpl.toNat ∧
      (gate8 (raw5 0x6E)).present = false) :=
  ⟨by decide, ⟨by decide, rfl, by decide⟩, ⟨by decide, rfl, by decide⟩, by decide, rfl, by decide⟩

/-- V9 with an IDT that ends one byte beyond the canonical addresses. -/
def v9n : State := { v9 with idtr := ⟨0x00007FFFFFFFFFC1#64, 0x3F#16⟩ }

theorem test_hyp_LongModeGateFaults :
    (ReachesGate (.int3 false) { v9 with idtr := ⟨0x100000#64, 0x3E#16⟩ } ∧ v9.lma = true ∧ 0x3E < 3 * 16 + 15) ∧
    (ReachesGate (.int3 false) v9n ∧ 3 * 16 + 15 ≤ v9n.idtr.limit.toNat ∧
      allCanonical Config.vaBits 16 (tableAddr v9n.idtr.base (3 * 16)) = false) ∧
    (ReachesGate (.int3 false) (v9g 0 0xE7) ∧
      memRead (v9g 0 0xE7) 16 (tableAddr 0x100000#64 (3 * 16)) = .ok (raw9 0 0xE7) ∧
      (gate16 (raw9 0 0xE7)).kind = .other) ∧
    (memRead (v9g 0 0xCE) 16 (tableAddr 0x100000#64 (3 * 16)) = .ok (raw9 0 0xCE) ∧
      (gate16 (raw9 0 0xCE)).kind ≠ .other ∧ (gate16 (raw9 0 0xCE)).dpl.toNat < v9.cpl.toNat) ∧
    (memRead (v9g 0 0x6E) 16 (tableAddr 0x100000#64 (3 * 16)) = .ok (raw9 0 0x6E) ∧
      (gate16 (raw9 0 0x6E)).kind ≠ .other ∧ v9.cpl.toNat ≤ (gate16 (raw9 0 0x6E)).dpl.toNat ∧
      (gate16 (raw9 0 0x6E)).present = false) :=
  ⟨by decide, by decide, ⟨by decide, rfl, by decide⟩, ⟨rfl, by decide⟩, rfl, by decide⟩

/-- V9 with IST7 named and the TSS ending one byte early; with a TSS ending within RSP0. -/
def v9i : State := { v9g 7 0xEE with tr := ⟨0x40#16, 0x103000#64, 0x5A#32, .tss64⟩ }
def v9t : State := { v9 with tr := ⟨0x40#16, 0x103000#64, 0xA#32, .tss64⟩ }

/-- The same gate and TSS, with VM = 1 (log 13). -/
def v9v : State := { v9i with eflags := 0x20246#32 }

theorem test_hyp_LongModeTssFaults :
    (ReachesGate (.int3 false) v9i ∧ LongGate v9i 3 (gate16 (raw9 7 0xEE)) ∧ (gate16 (raw9 7 0xEE)).ist = 7 ∧
      v9i.tr.limit.toNat < (7 * 8 + 28) + 7 ∧ HandlerCode v9i (gate16 (raw9 7 0xEE)) code64 ∧ HigherLevel v9i code64) ∧
    (ReachesGate (.int3 false) v9t ∧ LongGate v9t 3 g9 ∧ g9.ist = 0 ∧ HandlerCode v9t g9 code64 ∧
      HigherLevel v9t code64 ∧ v9t.tr.limit.toNat < (0 * 8 + 4) + 7) ∧
    (ReachesGate (.int3 false) v9v ∧ LongGate v9v 3 (gate16 (raw9 7 0xEE)) ∧ v9v.tr.limit.toNat < (7 * 8 + 28) + 7 ∧
      HandlerCode v9v (gate16 (raw9 7 0xEE)) code64 ∧ Level0FromV86 v9v code64) :=
  ⟨⟨by decide, ⟨rfl, by decide, by decide, ⟨raw9 7 0xEE, rfl, rfl⟩, by decide, by decide, by decide⟩, by decide,
      by decide, ⟨by decide, by decide, by decide, rfl, by decide, by decide, by decide, by decide⟩, by decide⟩,
    ⟨by decide, test_gate_v9, by decide, test_code_v9, by decide, by decide⟩, by decide,
    ⟨rfl, by decide, by decide, ⟨raw9 7 0xEE, rfl, rfl⟩, by decide, by decide, by decide⟩, by decide,
    ⟨by decide, by decide, by decide, rfl, by decide, by decide, by decide, by decide⟩, by decide⟩

/-- Log 27: with a bad IST field and a handler segment that is not code, the open parameter says which fault comes first. -/
theorem test_ist_read_order :
    stopOf (int3With tp false (patched v9i [(0x10100D, [0x92])])) = some (.fault (.gp (some 8#16))) ∧
      stopOf (int3With { tp with istReadFirst := true } false (patched v9i [(0x10100D, [0x92])]))
        = some (.fault (.ts 0x40#16)) := by decide

/-- R146 with VM = 1 and LMA = 1: the fault of the IST read is raised wherever the read is placed. -/
theorem test_ist_fault_from_v86 :
    stopOf (int3With tp false v9v) = some (.fault (.ts 0x40#16)) ∧
      stopOf (int3With { tp with istReadFirst := true } false v9v) = some (.fault (.ts 0x40#16)) := by decide

/-- Log 28: a 64-bit frame that wraps 2^64 is delivered. -/
theorem test_wrapping_64_bit_frame :
    after (int3With tp false { v10 with rspLo := 39#32, rspHi := 0#32 }) (fun s =>
        (rsp s, bytesAt 0xFFFFFFFFFFFFFFF8 8 s, bytesAt 24 2 s))
      = some (0xFFFFFFFFFFFFFFF8#64, [0x01, 0x10, 0, 0x80, 0xFF, 0xFF, 0xFF, 0xFF], [0, 0]) := by decide

/-- Log 10: LOCK bytes and `CD 21` in a buffer at the instruction pointer: 13 leave room for the immediate, 14 do not. -/
def locks (n : Nat) : State := patched v5 [(0x401000, List.replicate n 0xF0 ++ [0xCD, 0x21])]
theorem test_fetch_limit :
    nextInstr 48 (locks 13) = .ok (.intImm8 true 0x21) ∧ nextInstr 48 (locks 14) = refuse .otherPrefix := by decide

/-- Log 29: a byte beyond the code-segment limit is refused, whether or not its translation would page-fault. -/
theorem test_unfetchable_before_page_fault :
    let x : List XlatEntry := [⟨0x401000#64, .fetch, .supervisor, .pageFault 0x10#16⟩]
    fetchByte 48 { v5 with xlat := x } 0 = raise (.pf 0x10#16) ∧
      fetchByte 48 { v5 with xlat := x, cs := ⟨0x8#16, { flat 0#2 true with limit := 0x400FFF#32 }⟩ } 0
        = refuse .unfetchable := by decide


theorem test_hyp_TaskGateIsCheckedThenRefused :
    (ReachesGate (.int3 false) (v15 0x28 0x89 0x2F#16) ∧
      memRead (v15 0x28 0x89 0x2F#16) 8 (tableAddr 0x100000#64 (3 * 8)) = .ok 0x0000E50000280000 ∧
      (gate8 0x0000E50000280000).kind = .task ∧ (gate8 0x0000E50000280000).dpl = 3#2 ∧
      (gate8 0x0000E50000280000).present = true) ∧
    (memRead (v15 3 0x89 0x2F#16) 8 (tableAddr 0x100000#64 (3 * 8)) = .ok 0x0000E50000030000 ∧
      selNull 3#16 = true) ∧
    (memRead (v15 0x2C 0x89 0x2F#16) 8 (tableAddr 0x100000#64 (3 * 8)) = .ok 0x0000E500002C0000 ∧
      selNull 0x2C#16 = false ∧ selLocal 0x2C#16 = true) ∧
    ((0x2E#16).toNat < selOffset 0x28#16 + 7 ∧ selOffset 0x28#16 + 7 ≤ (0x2F#16).toNat ∧
      selNull 0x28#16 = false ∧ selLocal 0x28#16 = false) ∧
    (readDesc (v15 0x28 0x8B 0x2F#16) 0x28#16 = .ok (segDesc 0x00008B1020000067) ∧
      (segDesc 0x00008B1020000067).isAvailableTss = false) ∧
    (readDesc (v15 0x28 0x09 0x2F#16) 0x28#16 = .ok (segDesc 0x0000091020000067) ∧
      (segDesc 0x0000091020000067).isAvailableTss = true ∧ (segDesc 0x0000091020000067).present = false) ∧
    (readDesc (v15 0x28 0x89 0x2F#16) 0x28#16 = .ok (segDesc 0x0000891020000067) ∧
      (segDesc 0x0000891020000067).isAvailableTss = true ∧ (segDesc 0x0000891020000067).present = true) :=
  ⟨⟨by decide, rfl, by decide, by decide, by decide⟩, ⟨rfl, by decide⟩, ⟨rfl, by decide, by decide⟩, by decide,
    ⟨rfl, by decide⟩, ⟨rfl, by decide, by decide⟩, rfl, by decide, by decide⟩

/-- V5 with another selector in the gate. -/
def v5sel (sel : Nat) : State := patched v5 [(0x10001A, [sel])]
/-- V9 with the handler's descriptor at the last canonical addresses and one byte beyond. -/
def v9d : State := { v9 with gdtr := ⟨0x00007FFFFFFFFFF1#64, 0x4F#16⟩ }

theorem test_hyp_HandlerSegmentFaults :
    (GateChosen (.int3 false) (v5sel 3) (gate8 0x0040EE0000032000) ∧ selNull 3#16 = true) ∧
    (GateChosen (.int3 false) { v5 with gdtr := ⟨0x101000#64, 0xE#16⟩ } g5 ∧ selNull g5.sel = false ∧
      inTable { v5 with gdtr := ⟨0x101000#64, 0xE#16⟩ } g5.sel = false) ∧
    (GateChosen (.int3 false) v9d g9 ∧ selNull g9.sel = false ∧ inTable v9d g9.sel = true ∧
      allCanonical Config.vaBits 8 (descAddr v9d g9.sel) = false) ∧
    (GateChosen (.int3 false) (v5c 0x92) g5 ∧ readDesc (v5c 0x92) g5.sel = .ok (segDesc 0x00CF92000000FFFF) ∧
      (segDesc 0x00CF92000000FFFF).isCode = false) ∧
    (GateChosen (.int3 false) (v5c 0xBA) g5 ∧ readDesc (v5c 0xBA) g5.sel = .ok (segDesc 0x00CFBA000000FFFF) ∧
      v5.cpl.toNat < (segDesc 0x00CFBA000000FFFF).dpl.toNat) ∧
    (let s := patched v9 [(0x10100E, [0x60])];
      GateChosen (.int3 false) s g9 ∧ readDesc s g9.sel = .ok (segDesc 0x00609A0000000000) ∧
      (segDesc 0x00609A0000000000).isCode = true ∧ (segDesc 0x00609A0000000000).db = true) ∧
    (GateChosen (.int3 false) (v5c 0x1A) g5 ∧ readDesc (v5c 0x1A) g5.sel = .ok (segDesc 0x00CF1A000000FFFF) ∧
      (segDesc 0x00CF1A000000FFFF).isCode = true ∧ (segDesc 0x00CF1A000000FFFF).present = false) :=
  have k5 : ∀ s : State, s.lma = false → ReachesGate (.int3 false) s →
      31 ≤ s.idtr.limit.toNat → memRead s 8 (tableAddr s.idtr.base (3 * 8)) = .ok (raw5 0xEE) → s.cpl = 0#2 →
      GateChosen (.int3 false) s g5 := fun s h1 h2 h3 h4 h5 =>
    ⟨h2, .inl ⟨h1, h3, ⟨_, h4, rfl⟩, by decide, by rw [h5]; decide, by decide⟩⟩
  ⟨⟨⟨by decide, .inl ⟨rfl, by decide, ⟨0x0040EE0000032000, rfl, rfl⟩, by decide, by decide, by decide⟩⟩, by decide⟩,
    ⟨k5 _ rfl (by decide) (by decide) rfl rfl, by decide, by decide⟩,
    ⟨⟨by decide, .inr ⟨test_gate_v9, .inl rfl⟩⟩, by decide, by decide, by decide⟩,
    ⟨k5 _ rfl (by decide) (by decide) rfl rfl, rfl, by decide⟩,
    ⟨k5 _ rfl (by decide) (by decide) rfl rfl, rfl, by decide⟩,
    ⟨⟨by decide, .inr ⟨⟨rfl, by decide, by decide, ⟨raw9 0 0xEE, rfl, rfl⟩, by decide, by decide, by decide⟩,
      .inl rfl⟩⟩, rfl, by decide, by decide⟩,
    k5 _ rfl (by decide) (by decide) rfl rfl, rfl, by decide, by decide⟩

/-- V8 with byte 5 of the handler's descriptor replaced. -/
def v8c (b5 : Nat) : State := patched v8 [(0x10100D, [b5])]

theorem test_hyp_Virtual8086TargetFault :
    (∀ b5 ∈ [0x9E, 0xBA], ReachesGate (.intImm8 false 0x21) (v8c b5) ∧ flagVM (v8c b5).eflags = true) ∧
    (LegacyGate (v8c 0x9E) 0x21 g8 ∧ HandlerCode (v8c 0x9E) g8 (segDesc 0x00CF9E000000FFFF) ∧
      (segDesc 0x00CF9E000000FFFF).isConforming = true) ∧
    (LegacyGate (v8c 0xBA) 0x21 g8 ∧ HandlerCode (v8c 0xBA) g8 (segDesc 0x00CFBA000000FFFF) ∧
      (segDesc 0x00CFBA000000FFFF).dpl = 1#2) :=
  ⟨by decide,
    ⟨⟨rfl, by decide, ⟨0x0040EE0000084000, rfl, rfl⟩, by decide, by decide, by decide⟩,
      ⟨by decide, by decide, nofun, rfl, by decide, by decide, nofun, by decide⟩, by decide⟩,
    ⟨rfl, by decide, ⟨0x0040EE0000084000, rfl, rfl⟩, by decide, by decide, by decide⟩,
    ⟨by decide, by decide, nofun, rfl, by decide, by decide, nofun, by decide⟩, by decide⟩

theorem test_hyp_NewStackFaults :
    (GateChosen (.intImm8 false 0x80) v7 g7 ∧ v7.lma = false ∧ HandlerCode v7 g7 code0 ∧ HigherLevel v7 code0) ∧
    (GateChosen (.intImm8 false 0x21) v8 g8 ∧ HandlerCode v8 g8 code0 ∧ Level0FromV86 v8 code0) ∧
    ((0xA#32).toNat < 0 * 8 + 11 ∧ (5#32).toNat < 0 * 4 + 6) ∧
    (TssStack (v7s 3 0x92) 0 0x200000#32 3#16 ∧ selNull 3#16 = true) ∧
    (TssStack (v7s 0x30 0x92) 0 0x200000#32 0x30#16 ∧ inTable (v7s 0x30 0x92) 0x30#16 = false) ∧
    (TssStack (v7s 0x11 0x92) 0 0x200000#32 0x11#16 ∧ inTable (v7s 0x11 0x92) 0x11#16 = true ∧ selRpl 0x11#16 ≠ 0#2) ∧
    (readDesc (v7s 0x10 0x90) 0x10#16 = .ok (segDesc 0x00CF90000000FFFF) ∧
      (segDesc 0x00CF90000000FFFF).isWritableData = false) ∧
    (readDesc (v7s 0x10 0x12) 0x10#16 = .ok (segDesc 0x00CF12000000FFFF) ∧
      (segDesc 0x00CF12000000FFFF).isWritableData = true ∧ (segDesc 0x00CF12000000FFFF).present = false) :=
  ⟨⟨test_gate_v7, rfl, test_code_v7, by decide⟩, ⟨test_gate_v8, test_code_v8, by decide⟩, by decide,
    ⟨.inl ⟨rfl, by decide, rfl, rfl⟩, by decide⟩, ⟨.inl ⟨rfl, by decide, rfl, rfl⟩, by decide⟩,
    ⟨.inl ⟨rfl, by decide, rfl, rfl⟩, by decide, by decide⟩, ⟨rfl, by decide⟩, rfl, by decide, by decide⟩

/-- V7 with ESP0, and byte 6 of the level-0 stack's descriptor, replaced; V8 likewise with ESP0; V7 with a small code
segment. -/
def v7p (esp : List Nat) (b6 : Nat) : State := patched v7 [(0x102004, esp), (0x101016, [b6])]
def v8p (esp : List Nat) : State := patched v8 [(0x102004, esp)]
def v7l : State := patched v7 [(0x101008, [0xFF, 0x0F, 0, 0, 0, 0x9A, 0x40])]

theorem test_hyp_NewStackNeedsRoom :
    (GateChosen (.intImm8 false 0x80) (v7p [1, 0, 1, 0] 0x40) g7 ∧ HandlerCode (v7p [1, 0, 1, 0] 0x40) g7 code0 ∧
      HigherLevel (v7p [1, 0, 1, 0] 0x40) code0 ∧ TssStack (v7p [1, 0, 1, 0] 0x40) 0 0x10001#32 0x10#16 ∧
      StackSegment (v7p [1, 0, 1, 0] 0x40) 0#2 0x10#16 (segDesc 0x004092000000FFFF) ∧
      stackRoom (segDesc 0x004092000000FFFF).hidden .w32 (0x10001 % 2 ^ 32) (5 * g7.size.bytes) = .no) ∧
    (GateChosen (.intImm8 false 0x80) (v7p [19, 0, 0, 0] 0xCF) g7 ∧ TssStack (v7p [19, 0, 0, 0] 0xCF) 0 19#32 0x10#16 ∧
      StackSegment (v7p [19, 0, 0, 0] 0xCF) 0#2 0x10#16 stack0 ∧
      stackRoom stack0.hidden .w32 (19 % 2 ^ 32) (5 * g7.size.bytes) = .ambiguous) ∧
    (GateChosen (.intImm8 false 0x21) (v8p [35, 0, 0, 0]) g8 ∧ Level0FromV86 (v8p [35, 0, 0, 0]) code0 ∧
      TssStack (v8p [35, 0, 0, 0]) 0 35#32 0x10#16 ∧
      stackRoom stack0.hidden .w32 (35 % 2 ^ 32) (9 * g8.size.bytes) = .ambiguous) ∧
    (GateChosen (.intImm8 false 0x80) v7l g7 ∧ HandlerCode v7l g7 (segDesc 0x00409A0000000FFF) ∧
      TssStack v7l 0 0x200000#32 0x10#16 ∧ StackSegment v7l 0#2 0x10#16 stack0 ∧
      stackRoom stack0.hidden .w32 (0x200000 % 2 ^ 32) (5 * g7.size.bytes) = .yes ∧
      (segDesc 0x00409A0000000FFF).effLimit.toNat < g7.off.toNat) :=
  have gate : ∀ s : State, s.lma = false → ReachesGate (.intImm8 false 0x80) s → 0x407 ≤ s.idtr.limit.toNat →
      memRead s 8 (tableAddr s.idtr.base (0x80 * 8)) = .ok 0x0040EF0000083000 → GateChosen (.intImm8 false 0x80) s g7 :=
    fun _ h1 h2 h3 h4 => ⟨h2, .inl ⟨h1, h3, ⟨_, h4, rfl⟩, by decide, Nat.le_trans (Nat.le_of_lt_succ (BitVec.isLt _)) (by decide : 3 ≤ g7.dpl.toNat), by decide⟩⟩
  ⟨⟨gate _ rfl (by decide) (by decide) rfl, ⟨by decide, by decide, nofun, rfl, by decide, by decide, nofun, by decide⟩,
      by decide, .inl ⟨rfl, by decide, rfl, rfl⟩, ⟨by decide, by decide, by decide, rfl, by decide, by decide, by decide⟩,
      by decide⟩,
    ⟨gate _ rfl (by decide) (by decide) rfl, .inl ⟨rfl, by decide, rfl, rfl⟩,
      ⟨by decide, by decide, by decide, rfl, by decide, by decide, by decide⟩, by decide⟩,
    ⟨⟨by decide, .inl ⟨rfl, by decide, ⟨0x0040EE0000084000, rfl, rfl⟩, by decide, by decide, by decide⟩⟩, by decide,
      .inl ⟨rfl, by decide, rfl, rfl⟩, by decide⟩,
    gate _ rfl (by decide) (by decide) rfl, ⟨by decide, by decide, nofun, rfl, by decide, by decide, nofun, by decide⟩,
    .inl ⟨rfl, by decide, rfl, rfl⟩, ⟨by decide, by decide, by decide, rfl, by decide, by decide, by decide⟩, by decide,
    by decide⟩

theorem test_hyp_CurrentStackNeedsRoom :
    (GateChosen (.int3 false) v5 g5 ∧ v5.lma = false ∧ HandlerCode v5 g5 code0 ∧ SameLevel v5 code0) ∧
    stackRoom { flat 0#2 false with limit := 0x9FFEF#32 } .w32 0x9FFF1 12 = .no ∧
    stackRoom v5.ss.hidden .w32 11 12 = .ambiguous ∧ stackRoom v5.ss.hidden .w32 12 12 = .yes ∧
    (segDesc 0x00409A0000000FFF).effLimit.toNat < g5.off.toNat :=
  ⟨⟨test_gate_v5, rfl, test_code_v5, by decide⟩, by decide⟩

/-- V9 with RSP0 forty bytes above a non-canonical address, and with a non-canonical handler offset. -/
def v9r : State := patched v9 [(0x103004, [0x10, 0, 0, 0, 0, 0x80, 0, 0])]
def v9o : State := patched v9 [(0x100038, [0, 0x80, 0, 0])]

theorem test_hyp_LongModeStackAndOffsetFaults :
    (LongGate v9r 3 g9 ∧ HandlerCode v9r g9 code64 ∧ HigherLevel v9r code64 ∧
      LongStack v9r g9 code64 0x0000800000000010#64 ∧
      allCanonical Config.vaBits 40 (0x0000800000000010#64 - 40#64) = false ∧
      allCanonical Config.vaBits 40 ((0x0000800000000010#64 &&& 0xFFFFFFFFFFFFFFF0#64) - 40#64) = false) ∧
    (ReachesGate (.int3 false) v9o ∧ LongGate v9o 3 (gate16 0x000080008000EE0000082000) ∧
      LongStack v9o (gate16 0x000080008000EE0000082000) code64 0xFFFF800000010000#64 ∧
      CanonicalFrame 0xFFFF800000010000#64 ∧ canonical Config.vaBits (gate16 0x000080008000EE0000082000).off = false) :=
  ⟨⟨⟨rfl, by decide, by decide, ⟨raw9 0 0xEE, rfl, rfl⟩, by decide, by decide, by decide⟩,
      ⟨by decide, by decide, by decide, rfl, by decide, by decide, by decide, by decide⟩, by decide,
      .inr (.inl ⟨by decide, by decide, by decide, by decide, rfl⟩), by decide, by decide⟩,
    by decide, ⟨rfl, by decide, by decide, ⟨0x000080008000EE0000082000, rfl, rfl⟩, by decide, by decide, by decide⟩,
    .inr (.inl ⟨by decide, by decide, by decide, by decide, rfl⟩), by decide, by decide⟩

theorem test_hyp_IntraPrivilegeDelivery :
    GateChosen (.int3 false) v5 g5 ∧ HandlerCode v5 g5 code0 ∧ SameLevel v5 code0 ∧ Unmapped v5 ∧
      ReturnFits (.int3 false) v5 ∧ stackRoom v5.ss.hidden .w32 (stackPtr v5 .w32) (3 * g5.size.bytes) = .yes ∧
      g5.off.toNat ≤ code0.effLimit.toNat ∧ stackRoom realModeStack .w16 12 12 = .yes :=
  ⟨test_gate_v5, test_code_v5, by decide, rfl, by decide, by decide, by decide, by decide⟩
theorem test_hyp_InterPrivilegeDelivery :
    GateChosen (.intImm8 false 0x80) v7 g7 ∧ HandlerCode v7 g7 code0 ∧ HigherLevel v7 code0 ∧ Unmapped v7 ∧
      ReturnFits (.intImm8 false 0x80) v7 ∧ TssStack v7 0 0x200000#32 0x10#16 ∧ StackSegment v7 0#2 0x10#16 stack0 ∧
      stackRoom stack0.hidden .w32 (0x200000 % 2 ^ 32) (5 * g7.size.bytes) = .yes ∧
      g7.off.toNat ≤ code0.effLimit.toNat :=
  ⟨test_gate_v7, test_code_v7, by decide, rfl, by decide, test_tss_v7, test_stack_v7, by decide, by decide⟩
theorem test_hyp_FromVirtual8086Delivery :
    GateChosen (.intImm8 false 0x21) v8 g8 ∧ HandlerCode v8 g8 code0 ∧ Level0FromV86 v8 code0 ∧ Unmapped v8 ∧
      ReturnFits (.intImm8 false 0x21) v8 ∧ TssStack v8 0 0x200000#32 0x10#16 ∧ StackSegment v8 0#2 0x10#16 stack0 ∧
      stackRoom stack0.hidden .w32 (0x200000 % 2 ^ 32) (9 * g8.size.bytes) = .yes ∧
      g8.off.toNat ≤ code0.effLimit.toNat :=
  ⟨test_gate_v8, test_code_v8, by decide, rfl, by decide, .inl ⟨rfl, by decide, rfl, rfl⟩,
    ⟨by decide, by decide, by decide, rfl, by decide, by decide, by decide⟩, by decide, by decide⟩

/-- V9 and V10 with IST7; V9 from compatibility mode. -/
def v9x : State := patched (v9g 7 0xEE) [(0x103054, [0, 0, 2, 0, 0, 0x80, 0xFF, 0xFF])]
def v10x : State := patched v10 [(0x100034, [7]), (0x103054, [0, 0, 2, 0, 0, 0x80, 0xFF, 0xFF])]
def v9k : State := { v9 with cs := ⟨0x33#16, flat 3#2 true⟩ }

/-- V14's gate. -/
def g14 : Gate := gate16 0xFFFFFFFF80008E0000085000

theorem test_hyp_LongModeIntraPrivilegeDelivery :
    (ReachesGate (.int3 false) v10 ∧ LongGate v10 3 g9 ∧ HandlerCode v10 g9 code64 ∧ SameLevel v10 code64 ∧
      Unmapped v10 ∧ ReturnFits (.int3 false) v10 ∧ LongStack v10 g9 code64 (rsp v10) ∧ CanonicalFrame (rsp v10) ∧
      canonical Config.vaBits g9.off = true) ∧
    (opMode v14 = .compat ∧ ReachesGate (.into false) v14 ∧ LongGate v14 4 g14 ∧ HandlerCode v14 g14 code64 ∧
      SameLevel v14 code64 ∧ Unmapped v14 ∧ ReturnFits (.into false) v14 ∧ LongStack v14 g14 code64 (rsp v14) ∧
      CanonicalFrame (rsp v14) ∧ canonical Config.vaBits g14.off = true) ∧
    (ReachesGate (.int3 false) v10x ∧ LongGate v10x 3 (gate16 (raw9 7 0xEE)) ∧
      HandlerCode v10x (gate16 (raw9 7 0xEE)) code64 ∧ SameLevel v10x code64 ∧ ReturnFits (.int3 false) v10x ∧
      LongStack v10x (gate16 (raw9 7 0xEE)) code64 0xFFFF800000020000#64 ∧ CanonicalFrame 0xFFFF800000020000#64) :=
  ⟨⟨by decide, ⟨rfl, by decide, by decide, ⟨raw9 0 0xEE, rfl, rfl⟩, by decide, by decide, by decide⟩,
      ⟨by decide, by decide, by decide, rfl, by decide, by decide, by decide, by decide⟩, by decide, rfl, by decide,
      .inr (.inr ⟨rfl, by decide, rfl⟩), by decide, by decide⟩,
    ⟨by decide, by decide,
      ⟨rfl, by decide, by decide, ⟨0xFFFFFFFF80008E0000085000, rfl, rfl⟩, by decide, by decide, by decide⟩,
      ⟨by decide, by decide, by decide, rfl, by decide, by decide, by decide, by decide⟩, by decide, rfl, by decide,
      .inr (.inr ⟨rfl, by decide, rfl⟩), by decide, by decide⟩,
    by decide, ⟨rfl, by decide, by decide, ⟨raw9 7 0xEE, rfl, rfl⟩, by decide, by decide, by decide⟩,
    ⟨by decide, by decide, by decide, rfl, by decide, by decide, by decide, by decide⟩, by decide, by decide,
    .inl ⟨by decide, by decide, by decide, rfl⟩, by decide⟩
theorem test_hyp_LongModeInterPrivilegeDelivery :
    (ReachesGate (.int3 false) v9 ∧ LongGate v9 3 g9 ∧ HandlerCode v9 g9 code64 ∧ HigherLevel v9 code64 ∧
      Unmapped v9 ∧ ReturnFits (.int3 false) v9 ∧ LongStack v9 g9 code64 0xFFFF800000010000#64 ∧
      CanonicalFrame 0xFFFF800000010000#64 ∧ canonical Config.vaBits g9.off = true) ∧
    LongStack v9x (gate16 (raw9 7 0xEE)) code64 0xFFFF800000020000#64 ∧
    (opMode v9k = .compat ∧ ReachesGate (.int3 false) v9k ∧ LongGate v9k 3 g9 ∧ HandlerCode v9k g9 code64 ∧
      HigherLevel v9k code64 ∧ ReturnFits (.int3 false) v9k ∧ LongStack v9k g9 code64 0xFFFF800000010000#64) :=
  ⟨⟨by decide, test_gate_v9, test_code_v9, by decide, rfl, by decide,
      .inr (.inl ⟨rfl, by decide, by decide, by decide, rfl⟩), by decide, by decide⟩,
    .inl ⟨by decide, by decide, by decide, rfl⟩,
    by decide, by decide, test_gate_v9, test_code_v9, by decide, by decide,
    .inr (.inl ⟨rfl, by decide, by decide, by decide, rfl⟩)⟩

theorem test_hyp_StepKeepsTheInvariant : Inv v1 ∧ ∃ t, step v1 = .next t := ⟨by decide, _, rfl⟩
theorem test_hyp_FlagsAreClearedNeverSet :
    (¬ Delivers (.into false) v3 ∧ ∃ t, exec (.into false) v3 = .next t) ∧
    (Delivers (.intImm8 false 0x21) v1 ∧ v1.pe = false ∧ ∃ t, exec (.intImm8 false 0x21) v1 = .next t) ∧
    (Delivers (.int3 false) v5 ∧ v5.pe = true ∧ ∃ t, exec (.int3 false) v5 = .next t) :=
  ⟨⟨by decide, _, rfl⟩, ⟨by decide, rfl, _, rfl⟩, by decide, rfl, _, rfl⟩
theorem test_hyp_PrivilegeNeverDrops :
    (∃ t, exec (.intImm8 false 0x80) v7 = .next t) ∧ ∃ t, exec (.int3 false) v1 = .next t := ⟨⟨_, rfl⟩, _, rfl⟩
theorem test_hyp_SystemRegistersAreNeverWritten :
    (∃ t, exec (.intImm8 false 0x80) v7 = .next t) ∧ flagVM v7.eflags = false := ⟨⟨_, rfl⟩, rfl⟩
theorem test_hyp_MemoryChangesOnlyInTheFrame :
    (¬ Delivers (.into false) v3 ∧ ∃ t, exec (.into false) v3 = .next t) ∧
    (Delivers (.intImm8 false 0x21) v8 ∧ ∃ t, exec (.intImm8 false 0x21) v8 = .next t) :=
  ⟨⟨by decide, _, rfl⟩, by decide, _, rfl⟩
theorem test_hyp_SegmentRegistersChangeOnlyWhereSaid :
    (v8.pe = true ∧ flagVM v8.eflags = true ∧ Delivers (.intImm8 false 0x21) v8 ∧
      ∃ t, exec (.intImm8 false 0x21) v8 = .next t) ∧
    (flagVM v5.eflags = false ∧ ∃ t, exec (.int3 false) v5 = .next t ∧ t.cpl = v5.cpl) :=
  ⟨⟨rfl, rfl, by decide, _, rfl⟩, rfl, _, rfl, rfl⟩
theorem test_hyp_LongModeHandlerRunsIn64BitMode :
    Delivers (.int3 false) v9 ∧ v9.lma = true ∧ ∃ t, exec (.int3 false) v9 = .next t := by
  have hr : ReachesGate (.int3 false) v9 := by decide
  have hd := deliveryOf_eq_transfer_long hr test_gate_v9 (ist := none) rfl test_code_v9
  rw [transfer_eq_interLong rfl (by decide)] at hd
  have hs : interStack Config.params (advanced (.int3 false) v9) none code64.dpl = .ok (0xFFFF800000010000#64, 0#16) := by
    simp only [advanced, advanceIp_interStack]
    rfl
  have hc : allCanonical Config.params.vaBits 40 (alignTop Config.params 0xFFFF800000010000#64 - BitVec.ofNat 64 40) = true :=
    canonicalFrame_alignTop (by decide)
  rw [interLong_eq_ok (ev := eventOf (.int3 false)) (g := g9) (d := code64) |>.mpr ⟨_, _, hs, hc, by decide, rfl⟩] at hd
  obtain ⟨t, ht, _⟩ := exec_enter (place := ⟨0#64, .w64, .g64, .supervisor⟩) hr.1 hd (.inr rfl) rfl rfl rfl
    (frameFits_w64 (BitVec.isLt _) (by decide))
  exact ⟨hr.1, rfl, t, ht⟩
theorem test_hyp_Virtual8086IsLeftForLevel0 :
    Delivers (.intImm8 false 0x21) v8 ∧ v8.pe = true ∧ flagVM v8.eflags = true ∧
      ∃ t, exec (.intImm8 false 0x21) v8 = .next t := ⟨by decide, rfl, rfl, _, rfl⟩
theorem test_hyp_ErrorCodePresence :
    (v1.pe = false ∧ exec (.intImm8 false 0x21) { v1 with idtr := ⟨0#64, 0x86#16⟩ } = .fault (.gp none)) ∧
    ((v5g 0x1E#16 0xEE).pe = true ∧ exec (.int3 false) (v5g 0x1E#16 0xEE) = .fault (.gp (some 0x1A#16)) ∧
      Fault.gp (some 0x1A#16) ≠ .ud) ∧
    exec (.int3 true) v5 = .fault .ud ∧
    exec (.int3 false) { v5 with xlat := [⟨0x10001F#64, .read, .supervisor, .pageFault 0#16⟩] } = .fault (.pf 0#16) ∧
    ∃ d, deliveryOf Config.params (eventOf (.int3 false)) (advanced (.int3 false) v5) = .ok d :=
  ⟨⟨rfl, rfl⟩, ⟨rfl, rfl, by decide⟩, rfl, rfl, _, rfl⟩
theorem test_hyp_ErrorCodesHaveExtZero :
    exec (.int3 false) (v5g 0x1E#16 0xEE) = .fault (.gp (some 0x1A#16)) ∧ (0x1A#16).getLsbD 1 = true ∧
      exec (.intImm8 false 0x80) (v7s 0x10 0x12) = .fault (.ss (some 0x10#16)) ∧
      exec (.int3 false) (v5c 0x1A) = .fault (.np 0x8#16) ∧
      exec (.intImm8 false 0x80) (v7s 0x13 0x92) = .fault (.ts 0x10#16) := ⟨rfl, rfl, rfl, rfl, rfl⟩
theorem test_hyp_RefusalsAreTheListed :
    exec (.int3 false) { v1 with lma := true } = .refused .brokenInvariant ∧
      exec (.intImm8 false 0x21) { v8 with vme := true } = .refused .vmeRedirection ∧
      exec (.int3 false) (v15 0x28 0x89 0x2F#16) = .refused .taskSwitch ∧
      exec (.int3 false) { v1 with rspLo := 5#32 } = .refused .stackWrap := ⟨rfl, rfl, rfl, rfl⟩
theorem test_hyp_ReadsAreLittleEndian : v1.pe = false ∧ v5.pe = true ∧ Unmapped v5 := ⟨rfl, rfl, rfl⟩

/-- A page fault, on reading `a` for a table or on pushing to `a`. -/
def readFault (a : Word64) : XlatEntry := ⟨a, .read, .supervisor, .pageFault 0#16⟩
def pushFault (a : Word64) : XlatEntry := ⟨a, .write, .supervisor, .pageFault 2#16⟩

/-- Page faults on the last byte of what each clause reads: the IDT entries of V5 and V9; the TSS descriptor of V15; the
handler's descriptor of V5; ESP0, SS0 and the stack's descriptor of V7; RSP0 of V9 and IST7 of V9; and on the third push
of V5. -/
def v5p : State := { v5 with xlat := [readFault 0x10001F#64] }
def v9p : State := { v9 with xlat := [readFault 0x10003F#64] }
def v15f : State := { v15 0x28 0x89 0x2F#16 with xlat := [readFault 0x10102F#64] }
def v5d : State := { v5 with xlat := [readFault 0x10100F#64] }
def v7e : State := { v7 with xlat := [readFault 0x102007#64] }
def v7f : State := { v7 with xlat := [readFault 0x102009#64] }
def v7d : State := { v7 with xlat := [readFault 0x101017#64] }
def v9f : State := { v9 with xlat := [readFault 0x10300B#64] }
def v9j : State := { v9x with xlat := [readFault 0x10305B#64] }
def v9u : State := { v9j with eflags := 0x20246#32 }
def v5w : State := { v5 with xlat := [pushFault 0x9FFE4#64] }

theorem test_hyp_PageFaultEndsTheDelivery :
    (ReachesGate (.int3 false) v5p ∧ memRead v5p 8 (tableAddr v5p.idtr.base (3 * 8)) = .error (.fault (.pf 0#16))) ∧
    (ReachesGate (.int3 false) v9p ∧ memRead v9p 16 (tableAddr v9p.idtr.base (3 * 16)) = .error (.fault (.pf 0#16))) ∧
    (ReachesGate (.int3 false) v15f ∧
      memRead v15f 8 (tableAddr v15f.idtr.base (3 * 8)) = .ok 0x0000E50000280000 ∧
      (gate8 0x0000E50000280000).kind = .task ∧ readDesc v15f 0x28#16 = .error (.fault (.pf 0#16))) ∧
    (ReachesGate (.int3 false) v5d ∧ LegacyGate v5d 3 g5 ∧ selNull g5.sel = false ∧ inTable v5d g5.sel = true ∧
      readDesc v5d g5.sel = .error (.fault (.pf 0#16))) ∧
    (ReachesGate (.intImm8 false 0x80) v7e ∧ LegacyGate v7e 0x80 g7 ∧ HandlerCode v7e g7 code0 ∧
      HigherLevel v7e code0 ∧ TssStackPageFaults v7e 0 0#16 ∧ TssStackPageFaults v7f 0 0#16) ∧
    (TssStack v7d 0 0x200000#32 0x10#16 ∧ selRpl 0x10#16 = 0#2 ∧ readDesc v7d 0x10#16 = .error (.fault (.pf 0#16))) ∧
    (ReachesGate (.int3 false) v9f ∧ LongGate v9f 3 g9 ∧ HandlerCode v9f g9 code64 ∧ HigherLevel v9f code64 ∧
      g9.ist = 0 ∧ Tss64PageFaults v9f (0 * 8 + 4) 0#16) ∧
    (LongGate v9j 3 (gate16 (raw9 7 0xEE)) ∧ HandlerCode v9j (gate16 (raw9 7 0xEE)) code64 ∧
      (gate16 (raw9 7 0xEE)).ist = 7 ∧ Tss64PageFaults v9j (7 * 8 + 28) 0#16) ∧
    (LongGate v9u 3 (gate16 (raw9 7 0xEE)) ∧ HandlerCode v9u (gate16 (raw9 7 0xEE)) code64 ∧
      ReachesGate (.int3 false) v9u ∧ Level0FromV86 v9u code64 ∧ Tss64PageFaults v9u (7 * 8 + 28) 0#16) ∧
    (Delivers (.int3 false) v5w ∧
      ∃ d, deliveryOf Config.params (eventOf (.int3 false)) (advanced (.int3 false) v5w) = .ok d ∧
        frameAddrs v5w d.place d.slots.length (stackPtr (withHandlerStack d v5w) d.place.width)
          = .error (.fault (.pf 2#16))) :=
  ⟨⟨by decide, rfl⟩, ⟨by decide, rfl⟩, ⟨by decide, rfl, by decide, rfl⟩,
    ⟨by decide, ⟨rfl, by decide, ⟨raw5 0xEE, rfl, rfl⟩, by decide, by decide, by decide⟩, by decide, by decide, rfl⟩,
    ⟨by decide, ⟨rfl, by decide, ⟨0x0040EF0000083000, rfl, rfl⟩, by decide, by decide, by decide⟩,
      ⟨by decide, by decide, nofun, rfl, by decide, by decide, nofun, by decide⟩, by decide,
      .inl ⟨rfl, by decide, .inl rfl⟩, .inl ⟨rfl, by decide, .inr ⟨⟨_, rfl⟩, rfl⟩⟩⟩,
    ⟨.inl ⟨rfl, by decide, rfl, rfl⟩, by decide, rfl⟩,
    ⟨by decide, ⟨rfl, by decide, by decide, ⟨raw9 0 0xEE, rfl, rfl⟩, by decide, by decide, by decide⟩,
      ⟨by decide, by decide, by decide, rfl, by decide, by decide, by decide, by decide⟩, by decide, by decide, by decide,
      by decide, rfl⟩,
    ⟨⟨rfl, by decide, by decide, ⟨raw9 7 0xEE, rfl, rfl⟩, by decide, by decide, by decide⟩,
      ⟨by decide, by decide, by decide, rfl, by decide, by decide, by decide, by decide⟩, by decide, by decide, by decide,
      rfl⟩,
    ⟨⟨rfl, by decide, by decide, ⟨raw9 7 0xEE, rfl, rfl⟩, by decide, by decide, by decide⟩,
      ⟨by decide, by decide, by decide, rfl, by decide, by decide, by decide, by decide⟩, by decide, by decide, by decide,
      by decide, rfl⟩,
    by decide, _, rfl, rfl⟩

theorem test_hyp_FaultLeavesTheStateBefore :
    (step v5w = .fault (.pf 2#16) ∧ step (v5g 0x1E#16 0xEE) = .fault (.gp (some 0x1A#16))) ∧
    (exec (.int3 false) v5p = .fault (.pf 0#16) ∧
      deliveryOf Config.params (eventOf (.int3 false)) (advanced (.int3 false) v5p) = .error (.fault (.pf 0#16))) ∧
    (exec (.int3 false) v5w = .fault (.pf 2#16) ∧ Memory.wf v5w.mem = true ∧ Delivers (.int3 false) v5w ∧
      ∃ d, deliveryOf Config.params (eventOf (.int3 false)) (advanced (.int3 false) v5w) = .ok d ∧
        0x9FFE4 ∉ deliveryRegion d v5w ∧ 0x9FFE5 ∈ deliveryRegion d v5w ∧ 0x9FFEF ∈ deliveryRegion d v5w) :=
  ⟨⟨rfl, rfl⟩, ⟨rfl, rfl⟩, rfl, by decide, by decide, _, rfl, by decide, by decide, by decide⟩

/-- U4: after the #PF on the third push of V5 the frame's bytes are free values, and the instruction pointer is back at the
first byte. -/
theorem test_mid_push_fault_opens_the_frame :
    let t := deliveryFaultState tp (softwareEvent .int3 3) v5w (advanceIp tp 1 v5w)
    (bytesAt 0x9FFE3 3 t, bytesAt 0x9FFEE 3 t, t.rip) = ([0, 0, 0xA8], [0xA2, 0xA3, 0], 0x401000#64) := by decide

/-- R241: past the #UD of a LOCK prefix, a reader who goes on enters the handler of vector 6 with the instruction pointer of
the LOCK byte saved. -/
theorem test_step_past_fault :
    ∃ t, stepPastFault false (patched v1 [(0x10100, [0xF0, 0xCC]), (0x18, [0, 3, 0, 0x40])]) = .next t ∧
      t.cs.sel = 0x4000#16 ∧ t.rip = 0x300#64 ∧ bytesAt 0x200FA 2 t = [0x00, 0x01] := ⟨_, rfl, rfl, rfl, rfl⟩

/-- V5 with a gate for #GP. -/
def v5e : State := patched v5 [(0x100068, [0x00, 0x20, 0x08, 0x00, 0x00, 0x8E, 0x40, 0x00])]

theorem test_hyp_RaisedExceptionPushesItsCodeLast :
    faultCode (.gp (some 0x1A#16)) = some 0x1A#16 ∧ v5e.pe = true ∧ v5e.lma = false ∧ SameLevel v5e code0 ∧
      Unmapped v5e ∧ faultVector (.gp (some 0x1A#16)) * 8 + 7 ≤ v5e.idtr.limit.toNat ∧
      memRead v5e 8 (tableAddr v5e.idtr.base (13 * 8)) = .ok (raw5 0x8E) ∧ (gate8 (raw5 0x8E)).kind = .interrupt ∧
      (gate8 (raw5 0x8E)).present = true ∧ HandlerCode v5e (gate8 (raw5 0x8E)) code0 ∧
      stackRoom v5e.ss.hidden .w32 (stackPtr v5e .w32) (4 * (gate8 (raw5 0x8E)).size.bytes) = .yes ∧
      (gate8 (raw5 0x8E)).off.toNat ≤ code0.effLimit.toNat :=
  ⟨rfl, rfl, rfl, by decide, rfl, by decide, rfl, by decide, by decide,
    ⟨by decide, by decide, nofun, rfl, by decide, by decide, nofun, by decide⟩, by decide, by decide⟩

theorem test_hyp_StackRoomFollowsTheFormula :
    (6 ≤ StackWidth.w16.modulus ∧ realModeStack.expandDown = false) ∧
      ({ realModeStack with expandDown := true } : Hidden).expandDown = true ∧ 6 ≤ 6 := by decide

end Sys2Proof.Tests
end

-- ==== The step on bytes that decode (R11, R81) ====
section

namespace Sys2Proof.Machine

/-- The decoder asks for a first byte, so bytes it answers are not none at all. -/
theorem ne_nil_of_decode_ne_more {m64 : Bool} {bs : List Byte} (hd : decode m64 bs ≠ .more) : bs ≠ [] := by
  rintro rfl
  exact hd rfl

/-- The next instruction is the decoder's answer for the bytes that stand there, within the limit of the fetch (R81). -/
theorem nextInstr_eq_decodedOutcome {vaBits : Nat} {s : State} {bs : List Byte} (hlen : bs.length ≤ fetchLimit)
    (hbytes : ∀ j b, bs[j]? = some b → fetchByte vaBits s j = .ok b) (hd : decode (inMode64 s) bs ≠ .more) :
    nextInstr vaBits s = decodedOutcome (decode (inMode64 s) bs) :=
  fetchInstr_eq vaBits s fetchLimit [] bs hlen (fun _ => rfl)
    (fun j b hj => by simpa using hbytes j b hj) hd (ne_nil_of_decode_ne_more hd)

theorem step_eq_exec_of_nextInstr {s : State} {i : Instr} (h : nextInstr Config.vaBits s = .ok i) :
    step s = exec i s := by
  simp only [step, h]

end Sys2Proof.Machine

namespace Sys2Proof.StepOnBytes

open Sys2Proof.Machine

/-- Settles O6: the fetch reads just the bytes that decode, and the step adds nothing to the meaning of what it fetched. -/
theorem stepRunsTheDecodedInstruction : Obligations.StepRunsTheDecodedInstruction := by
  intro s bs i hlen hbytes hdec _
  have hnext : nextInstr Config.vaBits s = .ok i := by
    rw [nextInstr_eq_decodedOutcome hlen hbytes (by simp [hdec]), hdec, decodedOutcome]
  exact step_eq_exec_of_nextInstr hnext

end Sys2Proof.StepOnBytes

end

-- ==== What a next state keeps (R28, R49, R251, R255, R256) ====
section

namespace Sys2Proof.Machine

/-! ## What a delivery loads -/

@[simp] theorem selRpl_withRpl (sel : Word16) (rpl : BitVec 2) : selRpl (withRpl sel rpl) = rpl := by
  unfold selRpl withRpl
  rw [BitVec.setWidth_append]
  simp

/-- A real-address-mode delivery leaves VM (R130). -/
@[simp] theorem flagVM_eflagsAfterReal (e : Word32) : flagVM (eflagsAfterReal e) = flagVM e := by
  simp [flagVM, eflagsAfterReal, clearFlags, realModeClears]

/-- A delivery through a gate clears VM (R189, R205, R226). -/
@[simp] theorem flagVM_eflagsAfterGate (k : GateKind) (e : Word32) : flagVM (eflagsAfterGate k e) = false := by
  cases k <;> simp [flagVM, eflagsAfterGate, clearFlags, interruptGateClears, trapGateClears]

/-- The levels of a delivery from `s`: in real-address mode the current one; through a gate the current one with the
current SS, a more privileged one, or level 0 out of virtual-8086 mode with the data segments nullified (R130, R165 to
R167, R208). -/
inductive EntersAt (s : State) (d : Delivery) : Prop where
  | realMode (pe : s.pe = false) (eflags : d.eflags = eflagsAfterReal s.eflags) (cpl : d.cpl = s.cpl)
      (ss : d.ss = s.ss) (data : d.nullData = false)
  | sameLevel (pe : s.pe = true) (vm : flagVM s.eflags = false) (eflags : ∃ k, d.eflags = eflagsAfterGate k s.eflags)
      (rpl : selRpl d.cs.sel = d.cpl) (cpl : d.cpl = s.cpl) (ss : d.ss = s.ss) (data : d.nullData = false)
  | higherLevel (pe : s.pe = true) (vm : flagVM s.eflags = false)
      (eflags : ∃ k, d.eflags = eflagsAfterGate k s.eflags) (rpl : selRpl d.cs.sel = d.cpl)
      (cpl : d.cpl.toNat < s.cpl.toNat) (data : d.nullData = false)
  | fromV86 (pe : s.pe = true) (vm : flagVM s.eflags = true) (eflags : ∃ k, d.eflags = eflagsAfterGate k s.eflags)
      (rpl : selRpl d.cs.sel = d.cpl) (cpl : d.cpl.toNat < s.cpl.toNat) (level0 : d.cpl = 0#2)
      (data : d.nullData = true)

/-- Every delivery is one of these. -/
theorem MadeBy.entersAt {p : Params} {ev : Event} {s : State} {d : Delivery} (h : MadeBy p ev s d) : EntersAt s d := by
  cases h with
  | real hpe h =>
    obtain ⟨_, _, _, _, rfl⟩ := realMode_eq_ok.mp h
    exact .realMode hpe rfl rfl rfl rfl
  | interLegacy hpe _ hv g c _ _ _ hd _ h =>
    obtain ⟨_, _, _, _, _, _, _, rfl⟩ := interLegacy_eq_ok.mp h
    exact .higherLevel hpe hv ⟨g.kind, rfl⟩ (selRpl_withRpl _ _) (level_ult_iff.mp hd) rfl
  | intraLegacy hpe _ hv g c _ _ _ _ h =>
    obtain ⟨_, _, rfl⟩ := intraLegacy_eq_ok.mp h
    exact .sameLevel hpe hv ⟨g.kind, rfl⟩ (selRpl_withRpl _ _) rfl rfl rfl
  | interLong hpe _ hv g ist c _ _ _ hd _ h =>
    obtain ⟨_, _, _, _, _, rfl⟩ := interLong_eq_ok.mp h
    exact .higherLevel hpe hv ⟨g.kind, rfl⟩ (selRpl_withRpl _ _) (level_ult_iff.mp hd) rfl
  | intraLong hpe _ hv g ist c _ _ _ _ h =>
    obtain ⟨_, _, rfl⟩ := intraLong_eq_ok.mp h
    exact .sameLevel hpe hv ⟨g.kind, rfl⟩ (selRpl_withRpl _ _) rfl rfl rfl
  | fromV86 hpe hv g c _ _ h0 _ hcpl h =>
    obtain ⟨_, _, _, _, _, _, _, rfl⟩ := fromV86_eq_ok.mp h
    exact .fromV86 hpe hv ⟨g.kind, rfl⟩ (selRpl_withRpl _ _) (by simpa [h0] using level_ult_iff.mp hcpl) rfl rfl

/-! ## What a next state is made of -/

/-- The advance of the instruction pointer writes RIP, and may draw a free value (R23). -/
theorem advanced_eq (i : Instr) (s : State) :
    advanced i s = { s with rip := (advanced i s).rip, draws := (advanced i s).draws } := by
  unfold advanced advanceIp
  split <;> split <;> rfl

theorem EntersAt.of_advanced {i : Instr} {s : State} {d : Delivery} (h : EntersAt (advanced i s) d) : EntersAt s d := by
  rw [advanced_eq] at h
  cases h with
  | realMode pe eflags cpl ss data => exact .realMode pe eflags cpl ss data
  | sameLevel pe vm eflags rpl cpl ss data => exact .sameLevel pe vm eflags rpl cpl ss data
  | higherLevel pe vm eflags rpl cpl data => exact .higherLevel pe vm eflags rpl cpl data
  | fromV86 pe vm eflags rpl cpl level0 data => exact .fromV86 pe vm eflags rpl cpl level0 data

theorem Entered.of_advanced {i : Instr} {s t : State} {d : Delivery} (h : Entered d (advanced i s) t) :
    Entered d s t := by
  rw [advanced_eq] at h
  exact { h with }

/-- Every next state of an instruction: the advanced one, or that of a delivery which stored cells and entered the handler
at one of the levels of `EntersAt`. -/
theorem exec_next_entered {i : Instr} {s t : State} (h : exec i s = .next t) :
    (¬ Delivers i s ∧ t = advanced i s) ∨
    (Delivers i s ∧ ∃ d cells, EntersAt s d ∧ Entered d s t ∧ t.mem = storeCells s.mem cells) := by
  rcases exec_next h with ⟨hn, _, ht⟩ | ⟨hd, d, hd', he⟩
  · exact .inl ⟨hn, ht⟩
  · obtain ⟨cells, _, hm, _, hE⟩ := enterHandler_ok he
    have hlevel : EntersAt s d := (deliveryOf_madeBy hd').entersAt.of_advanced
    exact .inr ⟨hd, d, cells, hlevel, hE.of_advanced, by simpa [advanced] using hm⟩

theorem exec_next_sameSystem {i : Instr} {s t : State} (h : exec i s = .next t) : SameSystem s t := by
  rcases exec_next_entered h with ⟨_, rfl⟩ | ⟨_, d, _, _, hE, _⟩
  · simp [SameSystem, advanced]
  · exact hE.sameSystem

/-- VM is kept where no gate is gone through, and cleared by every gate (R111, R256). -/
theorem exec_next_flagVM {i : Instr} {s t : State} (h : exec i s = .next t) :
    flagVM t.eflags = flagVM s.eflags ∧ t.cpl = s.cpl ∨ flagVM t.eflags = false := by
  rcases exec_next_entered h with ⟨_, rfl⟩ | ⟨_, d, _, hd, hE, _⟩
  · exact .inl (by simp [advanced])
  · rw [hE.eflags, hE.cpl]
    cases hd with
    | realMode _ eflags cpl => exact .inl ⟨by simp [eflags], cpl⟩
    | sameLevel _ _ eflags | higherLevel _ _ eflags | fromV86 _ _ eflags =>
      obtain ⟨k, hk⟩ := eflags
      exact .inr (by simp [hk])

/-! ## The invariant -/

theorem lawful_iff {s : State} :
    lawful s = true ↔ (s.tr.kind = .tss64 ↔ s.lma = true) ∧ (flagVM s.eflags = true → s.cpl = 3#2) ∧
      (s.lma = true → s.pe = true) := by
  unfold lawful
  cases s.lma <;> cases s.pe <;> cases flagVM s.eflags <;> simp

theorem exec_next_lawful {i : Instr} {s t : State} (h : exec i s = .next t) (hs : lawful s = true) :
    lawful t = true := by
  obtain ⟨hpe, _, hlma, _, _, _, htr, _⟩ := exec_next_sameSystem h
  obtain ⟨hkind, hvm, hlong⟩ := lawful_iff.mp hs
  rw [lawful_iff, hpe, hlma, htr]
  refine ⟨hkind, fun hv => ?_, hlong⟩
  rcases exec_next_flagVM h with ⟨hv', hcpl⟩ | hv'
  · rw [hcpl]
    exact hvm (hv' ▸ hv)
  · simp [hv'] at hv

theorem exec_next_mem_wf {i : Instr} {s t : State} (h : exec i s = .next t) (hs : Memory.wf s.mem = true) :
    Memory.wf t.mem = true := by
  rcases exec_next_entered h with ⟨_, rfl⟩ | ⟨_, _, cells, _, _, hm⟩
  · simpa [advanced] using hs
  · rw [hm]
    exact storeCells_wf cells _ hs

/-- A handler's CS.RPL is its CPL in protected and IA-32e mode (R28). -/
theorem exec_next_rpl {i : Instr} {s t : State} (h : exec i s = .next t)
    (hs : s.pe = true → flagVM s.eflags = false → selRpl s.cs.sel = s.cpl) :
    t.pe = true → flagVM t.eflags = false → selRpl t.cs.sel = t.cpl := by
  rcases exec_next_entered h with ⟨_, rfl⟩ | ⟨_, d, _, hd, hE, _⟩
  · simpa [advanced] using hs
  · rw [hE.pe, hE.cs, hE.cpl]
    intro hpe _
    cases hd with
    | realMode pe => simp [pe] at hpe
    | sameLevel _ _ _ rpl | higherLevel _ _ _ rpl | fromV86 _ _ _ rpl => exact rpl

theorem exec_keeps_inv {i : Instr} {s t : State} (h : exec i s = .next t) (hs : Inv s) : Inv t := by
  obtain ⟨hlaw, hmem, hrpl⟩ := hs
  exact ⟨exec_next_lawful h hlaw, exec_next_mem_wf h hmem, exec_next_rpl h hrpl⟩

/-- A step that completes is the instruction it fetched (R11). -/
theorem exec_of_step_next {s t : State} (h : step s = .next t) : ∃ i, exec i s = .next t := by
  unfold step at h
  split at h
  · next i _ => exact ⟨i, h⟩
  · cases h
  · cases h

/-! ## Refusals -/

/-- Where a refusal of an instruction comes from: the invariants of R49, or the delivery. -/
theorem exec_refused_cases {i : Instr} {s : State} {r : Refusal} (h : exec i s = .refused r) :
    (lawful s = false ∧ r = .brokenInvariant) ∨ (Delivers i s ∧ ListedStop (eventOf i) s (.refuse r)) := by
  rcases exec_cases i s with ⟨hs, he⟩ | ⟨_, _, he⟩ | ⟨_, _, _, _, he⟩ | ⟨hd, he⟩
  · rw [he] at h; cases h; exact .inl ⟨hs, rfl⟩
  · rw [he] at h; cases h
  · rw [he] at h; cases h
  · rw [he] at h
    exact .inr ⟨hd, stopsOnly_instruction hd _ (toOutcome_eq_refused h)⟩

end Sys2Proof.Machine

namespace Sys2Proof.NextState

open Sys2Proof.Machine

/-- Settles O38: the three parts of the invariant are kept by every instruction, and a step adds nothing to one. -/
theorem stepKeepsTheInvariant : Obligations.StepKeepsTheInvariant := by
  intro s t hs hstep
  obtain ⟨i, hi⟩ := exec_of_step_next hstep
  exact exec_keeps_inv hi hs

/-- Settles O42. -/
theorem systemRegistersAreNeverWritten : Obligations.SystemRegistersAreNeverWritten := by
  intro i s t h
  refine ⟨exec_next_sameSystem h, fun hv => ?_⟩
  rcases exec_next_flagVM h with ⟨hv', _⟩ | hv'
  · rw [hv', hv]
  · exact hv'

/-- Settles O44, by the level that the delivery enters at. -/
theorem segmentRegistersChangeOnlyWhereSaid : Obligations.SegmentRegistersChangeOnlyWhereSaid := by
  intro i s t h
  rcases exec_next_entered h with ⟨hn, rfl⟩ | ⟨hdel, d, _, hd, hE, _⟩
  · have hdata : SameDataSegments s (advanced i s) := by simp [SameDataSegments, advanced]
    exact ⟨fun _ => hdata, fun _ _ hdel => absurd hdel hn, fun _ => by simp [advanced]⟩
  · rw [SameDataSegments, hE.ds, hE.es, hE.fs, hE.gs, hE.ss, hE.cpl]
    cases hd with
    | realMode pe _ _ ss data => simp [pe, ss, data]
    | sameLevel _ vm _ _ _ ss data => simp [vm, ss, data]
    | higherLevel _ vm _ _ cpl data =>
      exact ⟨fun _ => by simp [data], by simp [vm], fun hcpl => absurd (congrArg BitVec.toNat hcpl) cpl.ne⟩
    | fromV86 pe vm _ _ cpl _ data =>
      refine ⟨?_, fun _ _ _ => by simp [data], fun hcpl => absurd (congrArg BitVec.toNat hcpl) cpl.ne⟩
      rintro (hpe | hvm | hn)
      · simp [pe] at hpe
      · simp [vm] at hvm
      · exact absurd hdel hn

/-- Settles O11: the first check of every instruction is R49's, and no delivery answers `brokenInvariant`. -/
theorem brokenInvariantIsRefused : Obligations.BrokenInvariantIsRefused := by
  intro i s
  refine ⟨fun h => ?_, exec_unlawful⟩
  rcases exec_refused_cases h with ⟨hs, _⟩ | ⟨_, hstop⟩
  · exact hs
  · simp [ListedStop] at hstop

end Sys2Proof.NextState
end

-- ==== The fields of gates and descriptors by bytes (R38 to R40, R44) ====
section

namespace Sys2Proof.Machine

/-! ## Bit fields of a list of bytes (R8, R54) -/

theorem testBit_bits (v hi lo i : Nat) :
    (bits v hi lo).testBit i = (decide (i < hi + 1 - lo) && v.testBit (lo + i)) := by
  simp [bits, Nat.testBit_mod_two_pow, Nat.testBit_shiftRight]

/-- A bit of a field. -/
theorem bitAt_bits {v hi lo i : Nat} (h : i < hi + 1 - lo) : bitAt (bits v hi lo) i = bitAt v (lo + i) := by
  rw [bitAt, testBit_bits, decide_eq_true h, Bool.true_and, bitAt]

theorem testBit_leNat_cons (b : Byte) (bs : List Byte) (i : Nat) :
    (leNat (b :: bs)).testBit i = if i < 8 then b.getLsbD i else (leNat bs).testBit (i - 8) := by
  rw [leNat, Nat.add_comm]
  exact Nat.testBit_two_pow_mul_add _ b.isLt i

/-- A field that begins past the first byte is a field of the rest. -/
theorem bits_leNat_skip (b : Byte) (bs : List Byte) {hi lo : Nat} (h : 8 ≤ lo) (hle : lo ≤ hi) :
    bits (leNat (b :: bs)) hi lo = bits (leNat bs) (hi - 8) (lo - 8) := by
  apply Nat.eq_of_testBit_eq
  intro i
  rw [testBit_bits, testBit_bits, testBit_leNat_cons, if_neg (by omega), show lo + i - 8 = lo - 8 + i by omega,
    show hi - 8 + 1 - (lo - 8) = hi + 1 - lo by omega]

/-- A field that ends in the first byte is a field of that byte. -/
theorem bits_leNat_first (b : Byte) (bs : List Byte) {hi lo : Nat} (h : hi < 8) :
    bits (leNat (b :: bs)) hi lo = (b.extractLsb' lo (hi + 1 - lo)).toNat := by
  apply Nat.eq_of_testBit_eq
  intro i
  rw [testBit_bits, testBit_leNat_cons, BitVec.testBit_toNat, BitVec.getLsbD_extractLsb']
  by_cases hi' : i < hi + 1 - lo
  · rw [if_pos (by omega)]
  · simp [hi']

/-- A field that begins with the first byte and goes past it. -/
theorem bits_leNat_cons (b : Byte) (bs : List Byte) {hi : Nat} (h : 8 ≤ hi) :
    bits (leNat (b :: bs)) hi 0 = b.toNat + 256 * bits (leNat bs) (hi - 8) 0 := by
  have hw : 2 ^ (hi + 1 - 0) = 256 * 2 ^ (hi - 8 + 1 - 0) := by
    rw [show hi + 1 - 0 = 8 + (hi - 8 + 1 - 0) by omega, Nat.pow_add]
  have hdiv : (b.toNat + 256 * leNat bs) / 256 = leNat bs := by omega
  have hmod : (b.toNat + 256 * leNat bs) % 256 = b.toNat := by omega
  simp only [bits, Nat.shiftRight_zero, leNat, hw, Nat.mod_mul, hdiv, hmod]

theorem bitAt_leNat_skip (b : Byte) (bs : List Byte) {i : Nat} (h : 8 ≤ i) :
    bitAt (leNat (b :: bs)) i = bitAt (leNat bs) (i - 8) := by
  rw [bitAt, testBit_leNat_cons, if_neg (by omega), bitAt]

theorem bitAt_leNat_first (b : Byte) (bs : List Byte) {i : Nat} (h : i < 8) :
    bitAt (leNat (b :: bs)) i = b.getLsbD i := by
  rw [bitAt, testBit_leNat_cons, if_pos h]

/-- A byte put below a word. -/
theorem toNat_append_byte {w : Nat} (x : BitVec w) (b : Byte) : (x ++ b).toNat = x.toNat * 256 + b.toNat := by
  rw [BitVec.toNat_append, ← Nat.shiftLeft_add_eq_or_of_lt b.isLt, Nat.shiftLeft_eq]

/-! ## The fields of gates and descriptors (R38 to R40) -/

section Fields

variable (b0 b1 b2 b3 b4 b5 b6 b7 : Byte) (bs : List Byte)

theorem bits_word0 : bits (leNat (b0 :: b1 :: bs)) 15 0 = (b1 ++ b0).toNat := by
  simp only [Nat.reduceLeDiff, bits_leNat_cons, Nat.reduceSub, Nat.lt_add_one, bits_leNat_first, Nat.reduceAdd,
    Nat.sub_zero, BitVec.extractLsb'_eq_self, toNat_append_byte]
  omega

theorem bits_word1 : bits (leNat (b0 :: b1 :: b2 :: b3 :: bs)) 31 16 = (b3 ++ b2).toNat := by
  simp [bits_leNat_skip, bits_word0]

theorem bits_word3 : bits (leNat (b0 :: b1 :: b2 :: b3 :: b4 :: b5 :: b6 :: b7 :: bs)) 63 48 = (b7 ++ b6).toNat := by
  simp [bits_leNat_skip, bits_word0]

/-- The type of a gate, byte 5 bits 4:0. -/
theorem bits_gateType :
    bits (leNat (b0 :: b1 :: b2 :: b3 :: b4 :: b5 :: bs)) 44 40 = (b5.extractLsb' 0 5).toNat := by
  simp [bits_leNat_skip, bits_leNat_first]

/-- DPL, byte 5 bits 6:5. -/
theorem bits_dpl : bits (leNat (b0 :: b1 :: b2 :: b3 :: b4 :: b5 :: bs)) 46 45 = (b5.extractLsb' 5 2).toNat := by
  simp [bits_leNat_skip, bits_leNat_first]

/-- P, byte 5 bit 7. -/
theorem bitAt_present : bitAt (leNat (b0 :: b1 :: b2 :: b3 :: b4 :: b5 :: bs)) 47 = b5.getLsbD 7 := by
  simp [bitAt_leNat_skip, bitAt_leNat_first]

/-- IST, byte 4 bits 2:0. -/
theorem bits_ist : bits (leNat (b0 :: b1 :: b2 :: b3 :: b4 :: bs)) 34 32 = (b4.extractLsb' 0 3).toNat := by
  simp [bits_leNat_skip, bits_leNat_first]

/-- A 32-bit gate's offset: its high word over its low word. -/
theorem offset32_toNat : (b1 ++ b0).toNat + (b7 ++ b6).toNat * 2 ^ 16 = (b7 ++ b6 ++ b1 ++ b0).toNat := by
  simp only [toNat_append_byte]
  omega

/-- A 64-bit gate's offset: the bytes from 8 on over a 32-bit offset. -/
theorem offset64_toNat (b8 b9 b10 b11 : Byte) :
    (b7 ++ b6 ++ b1 ++ b0).toNat
        + bits (leNat (b0 :: b1 :: b2 :: b3 :: b4 :: b5 :: b6 :: b7 :: b8 :: b9 :: b10 :: b11 :: bs)) 95 64 * 2 ^ 32
      = (b11 ++ b10 ++ b9 ++ b8 ++ b7 ++ b6 ++ b1 ++ b0).toNat := by
  simp only [Nat.reduceAdd, toNat_append_byte, Nat.reduceLeDiff, bits_leNat_skip, Nat.reduceSub, Std.le_refl,
    tsub_self, bits_leNat_cons, Nat.lt_add_one, bits_leNat_first, Nat.sub_zero, BitVec.extractLsb'_eq_self,
    Nat.reducePow]
  omega

/-- A descriptor's base: byte 7 over bytes 4 to 2. -/
theorem descriptorBase_toNat :
    bits (leNat (b0 :: b1 :: b2 :: b3 :: b4 :: b5 :: b6 :: b7 :: bs)) 39 16
        + bits (leNat (b0 :: b1 :: b2 :: b3 :: b4 :: b5 :: b6 :: b7 :: bs)) 63 56 * 2 ^ 24
      = (b7 ++ b4 ++ b3 ++ b2).toNat := by
  simp only [Nat.reduceLeDiff, bits_leNat_skip, Nat.reduceSub, Std.le_refl, tsub_self, bits_leNat_cons,
    Nat.lt_add_one, bits_leNat_first, Nat.reduceAdd, Nat.sub_zero, BitVec.extractLsb'_eq_self, Nat.reducePow,
    toNat_append_byte]
  omega

/-- A descriptor's limit, before its granularity: the low four bits of byte 6 over bytes 1 and 0. -/
theorem descriptorLimit_toNat :
    (b1 ++ b0).toNat + bits (leNat (b0 :: b1 :: b2 :: b3 :: b4 :: b5 :: b6 :: bs)) 51 48 * 2 ^ 16
      = (b6.extractLsb' 0 4 ++ b1 ++ b0).toNat := by
  simp only [Nat.reduceAdd, toNat_append_byte, Nat.reduceLeDiff, bits_leNat_skip, Nat.reduceSub, Std.le_refl,
    tsub_self, Nat.reduceLT, bits_leNat_first, Nat.sub_zero]
  omega

end Fields

/-- The type of a gate compared as a number or as five bits. -/
theorem gateType_eq_iff (b5 : Byte) {n : Nat} (h : n < 32) :
    (b5.extractLsb' 0 5).toNat = n ↔ b5.extractLsb' 0 5 = BitVec.ofNat 5 n := by
  rw [BitVec.toNat_eq_nat]
  exact and_iff_right h

end Sys2Proof.Machine

namespace Sys2Proof.Layouts

open Sys2Proof.Machine

/-- Settles O55. -/
theorem protectedModeGateLayout : Obligations.ProtectedModeGateLayout := by
  intro b0 b1 b2 b3 b4 b5 b6 b7
  simp only [gate8, bits_word0, bits_word1, bits_word3, bits_gateType, bits_dpl, bitAt_present, offset32_toNat,
    gateType_eq_iff, Nat.reduceLT, apply_ite (BitVec.ofNat 64), BitVec.ofNat_toNat, BitVec.setWidth_eq, and_self]

/-- Settles O56. -/
theorem longModeGateLayout : Obligations.LongModeGateLayout := by
  intro b0 b1 b2 b3 b4 b5 b6 b7 b8 b9 b10 b11 b12 b13 b14 b15
  simp only [gate16, bits_word0, bits_word1, bits_word3, bits_gateType, bits_dpl, bitAt_present, bits_ist,
    offset32_toNat, offset64_toNat, gateType_eq_iff, Nat.reduceLT, BitVec.ofNat_toNat, BitVec.setWidth_eq, and_self]

/-- Settles O57: the limit of a descriptor is below 2^20, so a granularity of 4096 bytes keeps it within 32 bits. -/
theorem segmentDescriptorLayout : Obligations.SegmentDescriptorLayout := by
  intro b0 b1 b2 b3 b4 b5 b6 b7
  have hlimit : (b6.extractLsb' 0 4 ++ b1 ++ b0).toNat < 2 ^ 20 := BitVec.isLt _
  refine ⟨?_, ?_, ?_, ?_, ?_, ?_, ?_, ?_, ?_, ?_⟩
  · exact bitAt_present ..
  · simp only [segDesc, bits_dpl, BitVec.ofNat_toNat, BitVec.setWidth_eq]
  · simp [segDesc, SegDesc.isCode, bitAt_bits, bitAt_leNat_skip, bitAt_leNat_first]
  · simp [segDesc, SegDesc.isConforming, SegDesc.isCode, bitAt_bits, bitAt_leNat_skip, bitAt_leNat_first]
  · simp [segDesc, SegDesc.isWritableData, bitAt_bits, bitAt_leNat_skip, bitAt_leNat_first]
  · simp [segDesc, SegDesc.isExpandDown, bitAt_bits, bitAt_leNat_skip, bitAt_leNat_first]
  · simp only [segDesc, descriptorBase_toNat, BitVec.ofNat_toNat, BitVec.setWidth_eq]
  · have hg : bitAt (leNat [b0, b1, b2, b3, b4, b5, b6, b7]) 55 = b6.getLsbD 7 := by
      simp [bitAt_leNat_skip, bitAt_leNat_first]
    simp only [segDesc, bits_word0, descriptorLimit_toNat, hg, BitVec.toNat_ofNat]
    split <;> omega
  · simp [segDesc, bitAt_leNat_skip, bitAt_leNat_first]
  · simp [segDesc, bitAt_leNat_skip, bitAt_leNat_first]

end Sys2Proof.Layouts
end

-- ==== What of EFLAGS and VME decides anything (R26, R106 to R108, R250, R257) ====
section

namespace Sys2Proof.Machine

/-! ## A state with other VME and EFLAGS

No table, descriptor or stack read looks at VME or EFLAGS: from here on a procedure's answer depends on them only where it
names them. -/

/-- `s` with VME and EFLAGS replaced. -/
def reflagged (v : Bool) (e : Word32) (s : State) : State := { s with vme := v, eflags := e }

/-! The field lemmas are proved by `simp`, not by `rfl`: rewriting with a `rfl` lemma leaves the old state in the
decidability proof that a check carries, and the two sides of a check would no longer be the same term. -/

section Reads

variable (v : Bool) (e : Word32) (s : State)

@[simp] theorem reflagged_rip : (reflagged v e s).rip = s.rip := by simp only [reflagged]
@[simp] theorem reflagged_eflags : (reflagged v e s).eflags = e := by simp only [reflagged]
@[simp] theorem reflagged_cpl : (reflagged v e s).cpl = s.cpl := by simp only [reflagged]
@[simp] theorem reflagged_pe : (reflagged v e s).pe = s.pe := by simp only [reflagged]
@[simp] theorem reflagged_vme : (reflagged v e s).vme = v := by simp only [reflagged]
@[simp] theorem reflagged_lma : (reflagged v e s).lma = s.lma := by simp only [reflagged]
@[simp] theorem reflagged_idtr : (reflagged v e s).idtr = s.idtr := by simp only [reflagged]
@[simp] theorem reflagged_gdtr : (reflagged v e s).gdtr = s.gdtr := by simp only [reflagged]
@[simp] theorem reflagged_tr : (reflagged v e s).tr = s.tr := by simp only [reflagged]
@[simp] theorem reflagged_cs : (reflagged v e s).cs = s.cs := by simp only [reflagged]
@[simp] theorem reflagged_ss : (reflagged v e s).ss = s.ss := by simp only [reflagged]
@[simp] theorem reflagged_mem : (reflagged v e s).mem = s.mem := by simp only [reflagged]
@[simp] theorem reflagged_draws : (reflagged v e s).draws = s.draws := by simp only [reflagged]
@[simp] theorem reflagged_xlat : (reflagged v e s).xlat = s.xlat := by simp only [reflagged]

@[simp] theorem reflagged_rsp : rsp (reflagged v e s) = rsp s := rfl

@[simp] theorem reflagged_eip : eip (reflagged v e s) = eip s := by simp [eip]

@[simp] theorem reflagged_stackPtr (w : StackWidth) : stackPtr (reflagged v e s) w = stackPtr s w := by
  cases w <;> rfl

@[simp] theorem reflagged_memRead (n : Nat) (a : Word64) : memRead (reflagged v e s) n a = memRead s n a := by
  unfold memRead
  rw [physAddrs_congr (t := reflagged v e s) (s := s) (by simp) (by simp) (by simp), reflagged_mem]

@[simp] theorem reflagged_inTable (sel : Word16) : inTable (reflagged v e s) sel = inTable s sel := rfl

@[simp] theorem reflagged_descAddr (sel : Word16) : descAddr (reflagged v e s) sel = descAddr s sel := rfl

@[simp] theorem reflagged_readDesc (sel : Word16) : readDesc (reflagged v e s) sel = readDesc s sel := by
  simp [readDesc]

@[simp] theorem reflagged_tssFault : tssFault (reflagged v e s) = tssFault s := rfl

@[simp] theorem reflagged_readTss64 (p : Params) (off : Nat) :
    readTss64 p (reflagged v e s) off = readTss64 p s off := by
  simp [readTss64]

@[simp] theorem reflagged_readTss32Stack (n : BitVec 2) :
    readTss32Stack (reflagged v e s) n = readTss32Stack s n := by
  simp [readTss32Stack]

@[simp] theorem reflagged_readTss16Stack (n : BitVec 2) :
    readTss16Stack (reflagged v e s) n = readTss16Stack s n := by
  simp [readTss16Stack]

@[simp] theorem reflagged_interStack (p : Params) (ist : Option Word64) (n : BitVec 2) :
    interStack p (reflagged v e s) ist n = interStack p s ist n := by
  simp [interStack]

@[simp] theorem reflagged_v86Stack (n : BitVec 2) : v86Stack (reflagged v e s) n = v86Stack s n := by
  simp [v86Stack]

@[simp] theorem reflagged_newStackSegment (ext : Bool) (n : BitVec 2) (sel : Word16) :
    newStackSegment (reflagged v e s) ext n sel = newStackSegment s ext n sel := by
  simp [newStackSegment]

@[simp] theorem reflagged_protectedGate (ev : Event) : protectedGate ev (reflagged v e s) = protectedGate ev s := by
  simp [protectedGate]

@[simp] theorem reflagged_longGate (p : Params) (ev : Event) :
    longGate p ev (reflagged v e s) = longGate p ev s := by
  simp [longGate]

@[simp] theorem reflagged_istPointer (p : Params) (g : Gate) :
    istPointer p (reflagged v e s) g = istPointer p s g := by
  simp [istPointer]

@[simp] theorem reflagged_taskGate (ev : Event) (g : Gate) : taskGate ev (reflagged v e s) g = taskGate ev s g := by
  simp [taskGate]

@[simp] theorem reflagged_handlerSegment (p : Params) (ev : Event) (g : Gate) :
    handlerSegment p ev (reflagged v e s) g = handlerSegment p ev s g := by
  simp [handlerSegment]

/-! The mode reads VM, and no other bit of EFLAGS (R45). -/

variable {v e s}

theorem reflagged_opMode (h : flagVM e = flagVM s.eflags) : opMode (reflagged v e s) = opMode s := by
  simp [opMode, h]

theorem reflagged_inMode64 (h : flagVM e = flagVM s.eflags) : inMode64 (reflagged v e s) = inMode64 s := by
  rw [inMode64, reflagged_opMode h, inMode64]

theorem reflagged_lawful (h : flagVM e = flagVM s.eflags) : lawful (reflagged v e s) = lawful s := by
  simp [lawful, h]

theorem reflagged_advanced (i : Instr) (h : flagVM e = flagVM s.eflags) :
    advanced i (reflagged v e s) = reflagged v e (advanced i s) := by
  unfold advanced advanceIp
  simp only [reflagged_inMode64 h, reflagged_rip, reflagged_eip]
  split <;> split <;> rfl

end Reads

/-! ## Answers that agree -/

/-- Two answers agree: the same stop, or two values that `R` relates. -/
def AgreeRes {α : Type} (R : α → α → Prop) : Res α → Res α → Prop
  | .ok a, .ok b => R a b
  | .error d, .error e => d = e
  | _, _ => False

section Agreeing

variable {α β : Type} {R : α → α → Prop}

theorem agreeRes_ok {a b : α} (h : R a b) : AgreeRes R (.ok a) (.ok b) := h

theorem agreeRes_error (d : Stop) : AgreeRes R (.error d) (.error d) := rfl

/-- After the same answer, two continuations that agree on it. -/
theorem agreeRes_bind (x : Res β) {f g : β → Res α} (h : ∀ b, AgreeRes R (f b) (g b)) :
    AgreeRes R (x >>= f) (x >>= g) := by
  cases x with
  | error d => exact agreeRes_error d
  | ok b => exact h b

theorem agreeRes_iff {x y : Res α} :
    AgreeRes R x y ↔ (∃ d, x = .error d ∧ y = .error d) ∨ ∃ a b, x = .ok a ∧ y = .ok b ∧ R a b := by
  cases x <;> cases y <;> simp [AgreeRes, eq_comm]

theorem agree_toOutcome {R : State → State → Prop} {x y : Res State} (h : AgreeRes R x y) :
    Agree R (toOutcome x) (toOutcome y) := by
  obtain ⟨d, rfl, rfl⟩ | ⟨a, b, rfl, rfl, hR⟩ := agreeRes_iff.mp h
  · cases d <;> rfl
  · exact hR

/-- What is known of the two next states may be used to relate them. -/
theorem agree_mono {R R' : State → State → Prop} {x y : Host.Outcome State Fault Refusal} (h : Agree R x y)
    (hR : ∀ t u, x = .next t → y = .next u → R t u → R' t u) : Agree R' x y := by
  cases x <;> cases y
  case next.next t u => exact hR t u rfl rfl h
  all_goals exact h

end Agreeing

/-! ## The checks of a delivery -/

/-- Two deliveries that differ in EFLAGS and in the values of the frame, the image of EFLAGS among them, at most. -/
def SameButFlagImage (d d' : Delivery) : Prop :=
  ∃ vs f, vs.length = d.slots.length ∧ d' = { d with slots := vs, eflags := f }

section Checks

variable {p : Params} {ev : Event} {v : Bool} {e : Word32} {s : State}

theorem realMode_reflagged : AgreeRes SameButFlagImage (realMode ev s) (realMode ev (reflagged v e s)) := by
  unfold realMode
  simp only [reflagged_idtr, reflagged_stackPtr, reflagged_memRead]
  exact agreeRes_bind _ fun _ => agreeRes_bind _ fun _ => agreeRes_bind _ fun _ =>
    ⟨realModeSlots (reflagged v e s), eflagsAfterReal e, rfl, rfl⟩

theorem interLegacy_reflagged (g : Gate) (c : SegDesc) :
    AgreeRes SameButFlagImage (interLegacy p ev s g c) (interLegacy p ev (reflagged v e s) g c) := by
  unfold interLegacy
  simp only [reflagged_interStack, reflagged_newStackSegment]
  exact agreeRes_bind _ fun _ => agreeRes_bind _ fun _ => agreeRes_bind _ fun _ => agreeRes_bind _ fun _ =>
    ⟨interSlots ev (reflagged v e s), eflagsAfterGate g.kind e, rfl, rfl⟩

theorem interLong_reflagged (g : Gate) (ist : Option Word64) (c : SegDesc) :
    AgreeRes SameButFlagImage (interLong p ev s g ist c) (interLong p ev (reflagged v e s) g ist c) := by
  unfold interLong
  simp only [reflagged_interStack]
  exact agreeRes_bind _ fun _ => agreeRes_bind _ fun _ => agreeRes_bind _ fun _ =>
    ⟨interSlots ev (reflagged v e s), eflagsAfterGate g.kind e, rfl, rfl⟩

theorem intraLegacy_reflagged (g : Gate) (c : SegDesc) :
    AgreeRes SameButFlagImage (intraLegacy ev s g c) (intraLegacy ev (reflagged v e s) g c) := by
  unfold intraLegacy
  simp only [reflagged_ss, reflagged_stackPtr]
  exact agreeRes_bind _ fun _ => agreeRes_bind _ fun _ =>
    ⟨intraLegacySlots ev (reflagged v e s), eflagsAfterGate g.kind e, rfl, rfl⟩

theorem intraLong_reflagged (g : Gate) (ist : Option Word64) (c : SegDesc) :
    AgreeRes SameButFlagImage (intraLong p ev s g ist c) (intraLong p ev (reflagged v e s) g ist c) := by
  unfold intraLong
  simp only [reflagged_rsp]
  exact agreeRes_bind _ fun _ => agreeRes_bind _ fun _ =>
    ⟨intraLongSlots ev (reflagged v e s), eflagsAfterGate g.kind e, rfl, rfl⟩

theorem fromV86_reflagged (g : Gate) (c : SegDesc) :
    AgreeRes SameButFlagImage (fromV86 p ev s g c) (fromV86 p ev (reflagged v e s) g c) := by
  unfold fromV86
  simp only [reflagged_v86Stack, reflagged_newStackSegment, reflagged_draws]
  exact agreeRes_bind _ fun _ => agreeRes_bind _ fun _ => agreeRes_bind _ fun _ => agreeRes_bind _ fun _ =>
    ⟨v86Slots ev (reflagged v e s), eflagsAfterGate g.kind e, rfl, rfl⟩

/-- The choice of transfer reads VM alone (R165 to R167). -/
theorem transfer_reflagged (hv : flagVM e = flagVM s.eflags) (g : Gate) (ist : Res (Option Word64)) (c : SegDesc) :
    AgreeRes SameButFlagImage (transfer p ev s g ist c) (transfer p ev (reflagged v e s) g ist c) := by
  unfold transfer
  simp only [reflagged_cpl, reflagged_eflags, reflagged_lma, hv]
  split
  · split
    · split
      · exact agreeRes_bind _ fun top => interLong_reflagged g top c
      · exact interLegacy_reflagged g c
    · split
      · exact agreeRes_error _
      · exact agreeRes_bind _ fun _ => fromV86_reflagged g c
  · split
    · exact agreeRes_error _
    · split
      · exact agreeRes_bind _ fun top => intraLong_reflagged g top c
      · exact intraLegacy_reflagged g c

theorem trapOrInterruptGate_reflagged (hv : flagVM e = flagVM s.eflags) (g : Gate) (ist : Res (Option Word64)) :
    AgreeRes SameButFlagImage (trapOrInterruptGate p ev s g ist)
      (trapOrInterruptGate p ev (reflagged v e s) g ist) := by
  unfold trapOrInterruptGate
  rw [reflagged_handlerSegment]
  cases handlerSegment p ev s g with
  | error d => exact agreeRes_error d
  | ok c => exact transfer_reflagged hv g ist c

/-- DELIVER's checks read VM, and beside it, in virtual-8086 mode only, VME for an event that it may redirect and IOPL for
an event that is sensitive to it (R105 to R108). -/
theorem deliveryOf_reflagged (hv : flagVM e = flagVM s.eflags)
    (hvme : flagVM s.eflags = true → redirectable ev.source = true → v = s.vme)
    (hiopl : flagVM s.eflags = true → ioplSensitive p ev.source = true → flagIOPL e = flagIOPL s.eflags) :
    AgreeRes SameButFlagImage (deliveryOf p ev s) (deliveryOf p ev (reflagged v e s)) := by
  have hredirect : (flagVM e && v && redirectable ev.source) = (flagVM s.eflags && s.vme && redirectable ev.source) := by
    rw [hv]
    cases h1 : flagVM s.eflags with
    | false => rfl
    | true =>
      cases h2 : redirectable ev.source with
      | false => simp
      | true => rw [hvme h1 h2]
  have hsensitive : (flagVM e && (flagIOPL e).ult 3#2 && ioplSensitive p ev.source)
      = (flagVM s.eflags && (flagIOPL s.eflags).ult 3#2 && ioplSensitive p ev.source) := by
    rw [hv]
    cases h1 : flagVM s.eflags with
    | false => rfl
    | true =>
      cases h2 : ioplSensitive p ev.source with
      | false => simp
      | true => rw [hiopl h1 h2]
  unfold deliveryOf
  simp only [reflagged_pe, reflagged_eflags, reflagged_vme, reflagged_lma, hredirect, hsensitive]
  split
  · exact realMode_reflagged
  split
  · exact agreeRes_error _
  split
  · exact agreeRes_error _
  split
  · unfold protectedMode
    rw [reflagged_protectedGate]
    cases protectedGate ev s with
    | error d => exact agreeRes_error d
    | ok g =>
      simp only
      split
      · rw [reflagged_taskGate]
        cases h : taskGate ev s g with
        | error d => exact agreeRes_error d
        | ok d => exact absurd h taskGate_ne_ok
      · exact trapOrInterruptGate_reflagged hv g _
  · unfold longMode
    simp only [reflagged_longGate, reflagged_istPointer]
    exact agreeRes_bind _ fun g => agreeRes_bind _ fun _ => trapOrInterruptGate_reflagged hv g _

end Checks

/-! ## The entry of the handler -/

/-- Two states that differ in memory, VME and EFLAGS, at most. -/
def SameButMemoryVmeAndFlags (t u : State) : Prop := ∃ m v e, u = { t with mem := m, vme := v, eflags := e }

theorem SameButMemoryVmeAndFlags.setStackPtr {s u : State} (h : SameButMemoryVmeAndFlags s u) (p : Params) (sp : Nat)
    (w : StackWidth) : SameButMemoryVmeAndFlags (setStackPtr p s sp w) (setStackPtr p u sp w) := by
  obtain ⟨m, v, e, rfl⟩ := h
  refine ⟨m, v, e, ?_⟩
  cases w <;> rfl

theorem push_agree {p : Params} {c : PushPlace} (x x' : Slot) {s u : State} (h : SameButMemoryVmeAndFlags s u) :
    AgreeRes SameButMemoryVmeAndFlags (push p c x s) (push p c x' u) := by
  obtain ⟨m, v, e, rfl⟩ := h
  have hsp : stackPtr { s with mem := m, vme := v, eflags := e } c.width = stackPtr s c.width := by
    cases c.width <;> rfl
  have has (sp : Nat) : slotAddrs { s with mem := m, vme := v, eflags := e } c sp = slotAddrs s c sp := by
    apply slotAddrs_congr <;> rfl
  simp only [push, hsp, has]
  cases slotAddrs s c (pushedPtr c (stackPtr s c.width)) with
  | error d => exact agreeRes_error d
  | ok as => exact agreeRes_ok (.setStackPtr ⟨storeCells m _, v, e, rfl⟩ p _ _)

theorem pushAll_agree {p : Params} {c : PushPlace} {vs vs' : List Slot} (hl : vs'.length = vs.length) {s u : State}
    (h : SameButMemoryVmeAndFlags s u) : AgreeRes SameButMemoryVmeAndFlags (pushAll p c vs s) (pushAll p c vs' u) := by
  induction vs generalizing vs' s u with
  | nil =>
    obtain rfl := List.length_eq_zero_iff.mp hl
    exact h
  | cons x vs ih =>
    obtain ⟨x', vs', rfl⟩ := List.exists_cons_of_length_eq_add_one hl
    have hpush := push_agree (p := p) (c := c) x x' h
    obtain ⟨d, hs, hu⟩ | ⟨s', u', hs, hu, h'⟩ := agreeRes_iff.mp hpush
    · simp only [pushAll, hs, hu, agreeRes_error]
    · simp only [pushAll, hs, hu]
      exact ih (by simpa using hl) h'

theorem enterHandler_agree {p : Params} {d d' : Delivery} (hd : SameButFlagImage d d') (v : Bool) (e : Word32)
    (s : State) :
    AgreeRes SameButMemoryVmeAndFlags (enterHandler p d s) (enterHandler p d' (reflagged v e s)) := by
  obtain ⟨vs, f, hl, rfl⟩ := hd
  have h := pushAll_agree (p := p) (c := d.place) hl (s := withHandlerStack d s)
    (u := withHandlerStack { d with slots := vs, eflags := f } (reflagged v e s)) ⟨s.mem, v, e, rfl⟩
  obtain ⟨k, ht, hu⟩ | ⟨t, u, ht, hu, m, w, _, rfl⟩ := agreeRes_iff.mp h
  · simp only [enterHandler, ht, hu, agreeRes_error]
  · simp only [enterHandler, ht, hu]
    exact ⟨m, w, f, rfl⟩

theorem deliver_reflagged {p : Params} {ev : Event} {v : Bool} {e : Word32} {s : State}
    (hv : flagVM e = flagVM s.eflags)
    (hvme : flagVM s.eflags = true → redirectable ev.source = true → v = s.vme)
    (hiopl : flagVM s.eflags = true → ioplSensitive p ev.source = true → flagIOPL e = flagIOPL s.eflags) :
    AgreeRes SameButMemoryVmeAndFlags (deliver p ev s) (deliver p ev (reflagged v e s)) := by
  obtain ⟨k, hd, hd'⟩ | ⟨d, d', hd, hd', h⟩ := agreeRes_iff.mp (deliveryOf_reflagged hv hvme hiopl)
  · simp only [deliver, hd, hd', agreeRes_error]
  · simp only [deliver, hd, hd']
    exact enterHandler_agree h v e s

/-! ## The instructions -/

theorem reflagged_delivers {i : Instr} {v : Bool} {e : Word32} {s : State} (hv : flagVM e = flagVM s.eflags)
    (hof : sourceOf i = .into → flagOF e = flagOF s.eflags) (h : Delivers i s) : Delivers i (reflagged v e s) := by
  obtain ⟨hs, hl, hinto⟩ := h
  refine ⟨by rwa [reflagged_lawful hv], hl, ?_⟩
  rintro rfl
  rw [reflagged_eflags, hof rfl, reflagged_opMode hv]
  exact hinto rfl

/-- An instruction reads VM; INTO reads OF; and in virtual-8086 mode the instructions that VME and IOPL concern read these
(R26, R104, R106 to R108). -/
theorem exec_reflagged {i : Instr} {v : Bool} {e : Word32} {s : State} (hv : flagVM e = flagVM s.eflags)
    (hof : sourceOf i = .into → flagOF e = flagOF s.eflags)
    (hvme : flagVM s.eflags = true → redirectable (sourceOf i) = true → v = s.vme)
    (hiopl : flagVM s.eflags = true → ioplSensitive Config.params (sourceOf i) = true →
      flagIOPL e = flagIOPL s.eflags) :
    Agree SameButMemoryVmeAndFlags (exec i s) (exec i (reflagged v e s)) := by
  rcases exec_cases i s with ⟨hs, he⟩ | ⟨hs, hud, he⟩ | ⟨hs, rfl, hm, ho, he⟩ | ⟨hd, he⟩
  · rw [he, exec_unlawful (by rwa [reflagged_lawful hv])]
    rfl
  · have hs' : lawful (reflagged v e s) = true := by rwa [reflagged_lawful hv]
    rw [he]
    rcases hud with hl | ⟨hi, hm⟩
    · rw [exec_lock hs' hl]
      rfl
    · cases i with
      | into l =>
        rw [exec_into_mode64 hs' (by rwa [reflagged_opMode hv])]
        rfl
      | int3 | intImm8 => simp [sourceOf] at hi
  · rw [he, exec_into_noOverflow (by rwa [reflagged_lawful hv]) (by rwa [reflagged_opMode hv])
      (by rw [reflagged_eflags, hof rfl, ho]), reflagged_advanced _ hv]
    exact ⟨_, v, e, rfl⟩
  · rw [he, exec_delivers (reflagged_delivers hv hof hd), reflagged_advanced _ hv]
    refine agree_toOutcome (deliver_reflagged ?_ ?_ ?_) <;> simpa [advanced, eventOf, softwareEvent]

end Sys2Proof.Machine

namespace Sys2Proof.FlagReads

open Sys2Proof.Machine

/-- Settles O22: VME is the same in both states, and stays so. -/
theorem onlyVmIoplAndOfAreRead : Obligations.OnlyVmIoplAndOfAreRead := by
  intro i s e hv hof hiopl
  have h := exec_reflagged (i := i) (v := s.vme) hv hof (fun _ _ => rfl) (fun hvm _ => hiopl hvm)
  refine agree_mono h fun t u ht hu => ?_
  obtain ⟨_, htvme, _⟩ := exec_next_sameSystem ht
  obtain ⟨_, huvme, _⟩ := exec_next_sameSystem hu
  have hvme : u.vme = t.vme := huvme.trans htvme.symm
  rintro ⟨m, v, f, rfl⟩
  obtain rfl : v = t.vme := hvme
  rfl

end Sys2Proof.FlagReads
end

-- ==== Memory byte by byte, and the limits of segments and addresses (R52, R54, R58, R61, R63, R65) ====
section

namespace Sys2Proof.Machine

/-! ## Little-endian numbers (R52, R54) -/

/-- A number of `n` bytes in place-value form: byte `k` weighs `256 ^ k`. -/
theorem leNat_map_range (f : Nat → Byte) (n : Nat) :
    leNat ((List.range n).map f) = ((List.range n).map fun k => (f k).toNat * 256 ^ k).sum := by
  induction n generalizing f with
  | zero => rfl
  | succ n ih =>
    have hweight : (fun k => (f (k + 1)).toNat * 256 ^ (k + 1)) = fun k => 256 * ((f (k + 1)).toNat * 256 ^ k) := by
      funext k
      rw [Nat.pow_succ]
      ac_rfl
    rw [List.range_succ_eq_map, List.map_cons, List.map_cons, List.map_map, List.map_map, leNat, List.sum_cons]
    have hrest := ih (fun k => f (k + 1))
    simp only [Function.comp_def, Nat.succ_eq_add_one, hweight, List.sum_map_mul_left]
    rw [hrest, Nat.pow_zero, Nat.mul_one]

/-! ## Canonical addresses (R58) -/

/-- The bits of an address from `n` up are all `b`. -/
theorem shiftRight_eq_ite_iff (a : Word64) (n : Nat) (b : Bool) :
    a.toNat >>> n = (if b then 2 ^ (64 - n) - 1 else 0) ↔ ∀ k, n ≤ k → k < 64 → a.getLsbD k = b := by
  have hbit (i : Nat) : (if b then 2 ^ (64 - n) - 1 else 0).testBit i = (decide (n + i < 64) && b) := by
    cases b
    · simp
    · simp only [if_true, Nat.testBit_two_pow_sub_one, Bool.and_true, decide_eq_decide]
      omega
  constructor
  · intro h k hn hk
    have hk' := hbit (k - n)
    rw [← h, Nat.testBit_shiftRight, Nat.add_sub_cancel' hn, BitVec.testBit_toNat] at hk'
    rw [hk', decide_eq_true hk, Bool.true_and]
  · intro h
    apply Nat.eq_of_testBit_eq
    intro i
    rw [hbit, Nat.testBit_shiftRight, BitVec.testBit_toNat]
    by_cases hi : n + i < 64
    · rw [h (n + i) (by omega) hi, decide_eq_true hi, Bool.true_and]
    · simp [hi, BitVec.getLsbD_of_ge a (n + i) (by omega)]

/-- An address is canonical when its bits from `vaBits - 1` up are the top one (R58). -/
theorem canonical_iff (vaBits : Nat) (a : Word64) :
    canonical vaBits a = true ↔ ∀ k, vaBits - 1 ≤ k → k < 64 → a.getLsbD k = a.getLsbD 63 := by
  have hzero := shiftRight_eq_ite_iff a (vaBits - 1) false
  have hones := shiftRight_eq_ite_iff a (vaBits - 1) true
  simp only [if_true, if_false, Bool.false_eq_true] at hzero hones
  simp only [canonical, Bool.or_eq_true, beq_iff_eq, hzero, hones]
  constructor
  · rintro (hall | hall) k hn hk <;> rw [hall k hn hk, hall 63 (by omega) (by omega)]
  · intro hall
    cases htop : a.getLsbD 63 with
    | false => exact .inl fun k hn hk => htop ▸ hall k hn hk
    | true => exact .inr fun k hn hk => htop ▸ hall k hn hk

/-! ## Limits and room (R61, R63) -/

theorem inLimit_expandUp {h : Hidden} (he : h.expandDown = false) (lo hi : Nat) :
    inLimit h lo hi = true ↔ hi ≤ h.limit.toNat := by
  simp [inLimit, he]

theorem inLimit_expandDown {h : Hidden} (he : h.expandDown = true) (lo hi : Nat) :
    inLimit h lo hi = true ↔ h.limit.toNat < lo ∧ hi ≤ if h.db then 0xFFFFFFFF else 0xFFFF := by
  simp [inLimit, he]

/-- `StackRoom` is ambiguous where the frame is larger than what lies below the stack pointer (R61). -/
theorem stackRoom_eq_ambiguous {h : Hidden} {w : StackWidth} {sp n : Nat} :
    stackRoom h w sp n = .ambiguous ↔ (if sp = 0 then w.modulus else sp) < n := by
  unfold stackRoom
  generalize (if sp = 0 then w.modulus else sp) = top
  by_cases hroom : top < n
  · simp [hroom]
  · cases hlim : inLimit h (top - n) (top - 1) <;> simp [hroom, hlim]

end Sys2Proof.Machine

namespace Sys2Proof.MemoryBytes

open Sys2Proof.Machine

/-- Settles O51. -/
theorem byteReadsAsLastWritten : Obligations.ByteReadsAsLastWritten := by
  intro m a b
  exact ⟨readByte_writeByte_same m a b, fun x hx => readByte_writeByte_other m a x b hx⟩

/-- Settles O52: under the identity translation a read finds the bytes of consecutive linear addresses, and any number
of them makes a little-endian number. -/
theorem readsAreLittleEndian : Obligations.ReadsAreLittleEndian := by
  intro s a hid b n _
  rw [memRead_identity hid, linearRange, List.map_map, leNat_map_range]
  rfl

/-- Settles O58. -/
theorem canonicalMeansEqualTopBits : Obligations.CanonicalMeansEqualTopBits :=
  canonical_iff Config.vaBits

/-- Settles O59, by what each kind of segment holds within its limit. -/
theorem stackRoomFollowsTheFormula : Obligations.StackRoomFollowsTheFormula := by
  intro h w sp n top
  refine ⟨stackRoom_eq_ambiguous, fun hn he => ?_, fun hn he => ?_⟩
  · rw [stackRoom_eq_yes, inLimit_expandUp he]
    exact and_iff_right hn
  · rw [stackRoom_eq_yes, inLimit_expandDown he]
    exact and_iff_right hn

end Sys2Proof.MemoryBytes
end

-- ==== The frame's bytes, and the page faults of a delivery (R51 to R53, R57, R60, R66, R298) ====
section

namespace Sys2Proof.Machine

/-! ## The bytes of a frame (R60) -/

theorem frameAddrs_length {s : State} {c : PushPlace} {n sp : Nat} {as : List Nat}
    (h : frameAddrs s c n sp = .ok as) : as.length = n * c.size.bytes := by
  induction n generalizing sp as with
  | zero => obtain rfl := Except.ok.inj h; simp
  | succ n ih =>
    simp only [frameAddrs] at h
    split at h
    · cases h
    · next slot hslot =>
      split at h
      · cases h
      · next rest hrest =>
        obtain rfl := Except.ok.inj h
        have hlen : slot.length = c.size.bytes := physAddrs_length hslot
        rw [List.length_append, hlen, ih hrest, Nat.add_mul, Nat.one_mul, Nat.add_comm]

/-- A frame of which a byte does not translate is not pushed: the pushes end as its addresses do (R53, R298). -/
theorem pushAll_of_frameAddrs_error {p : Params} {c : PushPlace} {vs : List Slot} {s : State} {e : Stop}
    (h : frameAddrs s c vs.length (stackPtr s c.width) = .error e) : pushAll p c vs s = .error e := by
  induction vs generalizing s with
  | nil => cases h
  | cons v vs ih =>
    simp only [List.length_cons, frameAddrs] at h
    split at h
    · next e' hslot =>
      obtain rfl := Except.error.inj h
      simp only [pushAll, push, hslot]
    · next as hslot =>
      split at h
      · next e' hrest =>
        obtain rfl := Except.error.inj h
        simp only [pushAll, push_eq_ok.mpr ⟨as, hslot, rfl⟩]
        apply ih
        rw [stackPtr_setStackPtr _ _ _ _ (pushedPtr_lt _ _),
          frameAddrs_congr (s := s) (by simp) (by simp) (by simp)]
        exact hrest
      · cases h

theorem enterHandler_of_frameAddrs_error {p : Params} {d : Delivery} {s : State} {e : Stop}
    (h : frameAddrs s d.place d.slots.length (stackPtr (withHandlerStack d s) d.place.width) = .error e) :
    enterHandler p d s = .error e := by
  rw [← frameAddrs_congr (s := s) (t := withHandlerStack d s) rfl rfl rfl] at h
  simp only [enterHandler, pushAll_of_frameAddrs_error h]

/-- The advance of the instruction pointer does not move the frame. -/
theorem advanced_frameAddrs (i : Instr) (s : State) (d : Delivery) :
    frameAddrs (advanced i s) d.place d.slots.length
        (stackPtr (withHandlerStack d (advanced i s)) d.place.width)
      = frameAddrs s d.place d.slots.length (stackPtr (withHandlerStack d s) d.place.width) := by
  rw [advanced, advanceIp_frameAddrs]
  cases d.place.width <;> rfl

/-- A delivery stores to the bytes of its frame and to no other (R51, R66). -/
theorem readByte_enterHandler_outside {p : Params} {d : Delivery} {s t : State} (h : enterHandler p d s = .ok t) :
    ∃ as, frameAddrs s d.place d.slots.length (stackPtr (withHandlerStack d s) d.place.width) = .ok as ∧
      ∀ x, x ∉ as → readByte t.mem x = readByte s.mem x := by
  obtain ⟨cells, haddrs, hmem, _, _⟩ := enterHandler_ok h
  refine ⟨cells.map Prod.fst, haddrs, fun x hx => ?_⟩
  rw [hmem]
  exact readByte_storeCells_other cells s.mem x hx

/-! ## A read that stops ends the procedure that makes it (R52, R298)

Each lemma takes the checks in front of the read as passed. -/

/-- A check that passes is no part of what follows it. -/
theorem stopIf_bind_of_pass {c : Bool} {e : Stop} {β : Type} {f : Unit → Res β} (h : c = false) :
    (stopIf c e >>= f) = f () := by
  subst h
  rfl

section Reads

variable {ev : Event} {s : State} {e : Stop}

theorem protectedGate_of_memRead_error (hlim : ev.vector * 8 + 7 ≤ s.idtr.limit.toNat)
    (h : memRead s 8 (tableAddr s.idtr.base (ev.vector * 8)) = .error e) : protectedGate ev s = .error e := by
  simp only [protectedGate]
  rw [stopIf_bind_of_pass (decide_eq_false (by omega)), h, error_bind]

theorem longGate_of_memRead_error {p : Params} (hlim : ev.vector * 16 + 15 ≤ s.idtr.limit.toNat)
    (hcan : allCanonical p.vaBits 16 (tableAddr s.idtr.base (ev.vector * 16)) = true)
    (h : memRead s 16 (tableAddr s.idtr.base (ev.vector * 16)) = .error e) : longGate p ev s = .error e := by
  simp only [longGate]
  rw [stopIf_bind_of_pass (decide_eq_false (by omega)), stopIf_bind_of_pass (by rw [hcan]; rfl), h, error_bind]

/-- A descriptor read stops as the read of its 8 bytes does. -/
theorem readDesc_eq_error {sel : Word16} : readDesc s sel = .error e ↔ memRead s 8 (descAddr s sel) = .error e := by
  unfold readDesc
  cases memRead s 8 (descAddr s sel) <;> simp

theorem taskGate_of_readDesc_error {g : Gate} (hnull : selNull g.sel = false) (hglobal : selLocal g.sel = false)
    (hlim : selOffset g.sel + 7 ≤ s.gdtr.limit.toNat) (h : readDesc s g.sel = .error e) :
    taskGate ev s g = .error e := by
  have hread : memRead s 8 (tableAddr s.gdtr.base (selOffset g.sel)) = .error e := by
    simpa [descAddr, tableBase, hglobal] using readDesc_eq_error.mp h
  have htable : (selLocal g.sel || decide (s.gdtr.limit.toNat < selOffset g.sel + 7)) = false := by
    rw [hglobal, Bool.false_or, decide_eq_false (by omega)]
  simp only [taskGate]
  rw [stopIf_bind_of_pass hnull, stopIf_bind_of_pass htable, hread, error_bind]

theorem handlerSegment_of_readDesc_error {p : Params} {g : Gate} (hnull : selNull g.sel = false)
    (htable : inTable s g.sel = true) (hcan : s.lma = true → allCanonical p.vaBits 8 (descAddr s g.sel) = true)
    (h : readDesc s g.sel = .error e) : handlerSegment p ev s g = .error e := by
  have hcan' : (s.lma && !allCanonical p.vaBits 8 (descAddr s g.sel)) = false := by
    cases hl : s.lma with
    | false => rfl
    | true => rw [hcan hl]; rfl
  simp only [handlerSegment]
  rw [stopIf_bind_of_pass hnull, stopIf_bind_of_pass (by rw [htable]; rfl), stopIf_bind_of_pass hcan', h, error_bind]

theorem newStackSegment_of_readDesc_error {ext : Bool} {n : BitVec 2} {sel : Word16} (hnull : selNull sel = false)
    (htable : inTable s sel = true) (hrpl : selRpl sel = n) (h : readDesc s sel = .error e) :
    newStackSegment s ext n sel = .error e := by
  have hsel : (!inTable s sel || selRpl sel != n) = false := by simp [htable, hrpl]
  simp only [newStackSegment]
  rw [stopIf_bind_of_pass hnull, stopIf_bind_of_pass hsel, h, error_bind]

end Reads

/-! ## Page faults in the task-state segment (R42, R43, R149, R181, R182) -/

section Tss

variable {s : State} {n : BitVec 2} {c : Word16} {e : Stop}

/-- Two reads one after the other stop where the first does, or the second once the first has answered. -/
theorem memRead_pair_error {k m : Nat} {a b : Word64} {β : Type} {f : Nat → Nat → Res β}
    (h : memRead s k a = .error e ∨ (∃ v, memRead s k a = .ok v) ∧ memRead s m b = .error e) :
    (memRead s k a >>= fun v => memRead s m b >>= f v) = .error e := by
  obtain h | ⟨⟨v, hv⟩, h⟩ := h
  · rw [h, error_bind]
  · rw [hv, ok_bind, h, error_bind]

theorem readTss32Stack_error (hlim : n.toNat * 8 + 11 ≤ s.tr.limit.toNat)
    (h : memRead s 4 (tableAddr s.tr.base (n.toNat * 8 + 4)) = .error e ∨
      (∃ sp, memRead s 4 (tableAddr s.tr.base (n.toNat * 8 + 4)) = .ok sp) ∧
        memRead s 2 (tableAddr s.tr.base (n.toNat * 8 + 8)) = .error e) : readTss32Stack s n = .error e := by
  simp only [readTss32Stack, tss32Offset, Nat.add_assoc, Nat.reduceAdd]
  rw [stopIf_bind_of_pass (decide_eq_false (by omega))]
  exact memRead_pair_error h

theorem readTss16Stack_error (hlim : n.toNat * 4 + 6 ≤ s.tr.limit.toNat)
    (h : memRead s 2 (tableAddr s.tr.base (n.toNat * 4 + 2)) = .error e ∨
      (∃ sp, memRead s 2 (tableAddr s.tr.base (n.toNat * 4 + 2)) = .ok sp) ∧
        memRead s 2 (tableAddr s.tr.base (n.toNat * 4 + 4)) = .error e) : readTss16Stack s n = .error e := by
  simp only [readTss16Stack, tss16Offset, Nat.add_assoc, Nat.reduceAdd]
  rw [stopIf_bind_of_pass (decide_eq_false (by omega))]
  exact memRead_pair_error h

/-- The stack of an inter-privilege transfer, where its read page-faults. -/
theorem interStack_of_pageFault {p : Params} (h : TssStackPageFaults s n.toNat c) :
    interStack p s none n = .error (.fault (.pf c)) := by
  rcases h with ⟨hk, hlim, h⟩ | ⟨hk, hlim, h⟩
  · simp only [interStack, hk, readTss32Stack_error hlim h, error_bind]
  · simp only [interStack, hk, readTss16Stack_error hlim h, error_bind]

/-- The stack of a transfer from virtual-8086 mode, where its read page-faults. -/
theorem v86Stack_of_pageFault (h : TssStackPageFaults s n.toNat c) : v86Stack s n = .error (.fault (.pf c)) := by
  rcases h with ⟨hk, hlim, h⟩ | ⟨hk, hlim, h⟩
  · simp only [v86Stack, hk, readTss32Stack_error hlim h]
  · simp only [v86Stack, hk, readTss16Stack_error hlim h]

theorem readTss64_of_pageFault {off : Nat} (h : Tss64PageFaults s off c) :
    readTss64 Config.params s off = .error (.fault (.pf c)) := by
  obtain ⟨hlim, hcan, hread⟩ := h
  have hpass : (decide (s.tr.limit.toNat < off + 7) ||
      !allCanonical Config.params.vaBits 8 (tableAddr s.tr.base off)) = false := by
    rw [decide_eq_false (by omega), Bool.false_or, show Config.params.vaBits = Config.vaBits from rfl, hcan]
    rfl
  rw [readTss64, stopIf_bind_of_pass hpass, hread, error_bind]

theorem istPointer_of_pageFault {g : Gate} (hist : g.ist ≠ 0) (h : Tss64PageFaults s (g.ist * 8 + 28) c) :
    istPointer Config.params s g = .error (.fault (.pf c)) := by
  simp only [istPointer, if_neg hist, tss64IstOffset, readTss64_of_pageFault h]

end Tss

/-! ## A page fault ends the instruction (R298) -/

section PageFaults

variable {i : Instr} {s : State} {c : Word16}

theorem exec_of_idt_pageFault (h : ReachesGate i s) (hl : s.lma = false)
    (hlim : vectorOf i * 8 + 7 ≤ s.idtr.limit.toNat)
    (hread : memRead s 8 (tableAddr s.idtr.base (vectorOf i * 8)) = .error (.fault (.pf c))) :
    exec i s = .fault (.pf c) := by
  have hgate : protectedGate (eventOf i) s = .error (.fault (.pf c)) := protectedGate_of_memRead_error hlim hread
  refine exec_of_deliveryOf_error (e := .fault (.pf c)) h.1 ?_
  rw [deliveryOf_of_reachesGate h]
  simp [hl, protectedMode, advanced, hgate]

theorem exec_of_longIdt_pageFault (h : ReachesGate i s) (hl : s.lma = true)
    (hlim : vectorOf i * 16 + 15 ≤ s.idtr.limit.toNat)
    (hcan : allCanonical Config.vaBits 16 (tableAddr s.idtr.base (vectorOf i * 16)) = true)
    (hread : memRead s 16 (tableAddr s.idtr.base (vectorOf i * 16)) = .error (.fault (.pf c))) :
    exec i s = .fault (.pf c) := by
  have hgate : longGate Config.params (eventOf i) s = .error (.fault (.pf c)) :=
    longGate_of_memRead_error hlim hcan hread
  refine exec_of_deliveryOf_error (e := .fault (.pf c)) h.1 ?_
  rw [deliveryOf_of_reachesGate h]
  simp [hl, longMode, advanced, hgate]

/-- PROTECTED-MODE lets a present task gate through for a level that may use it (R141 to R143). -/
theorem protectedGate_of_taskGate {raw : Nat} (hlim : vectorOf i * 8 + 7 ≤ s.idtr.limit.toNat)
    (hread : memRead s 8 (tableAddr s.idtr.base (vectorOf i * 8)) = .ok raw) (hk : (gate8 raw).kind = .task)
    (hdpl : s.cpl.toNat ≤ (gate8 raw).dpl.toNat) (hp : (gate8 raw).present = true) :
    protectedGate (eventOf i) s = .ok (gate8 raw) :=
  protectedGate_eq_ok.mpr ⟨hlim, raw, hread, rfl, by simp [hk],
    by rw [level_ult_eq_false_iff.mpr hdpl, Bool.and_false], hp⟩

theorem exec_of_taskGate_error {g : Gate} {e : Stop} (h : ReachesGate i s) (hl : s.lma = false)
    (hg : protectedGate (eventOf i) s = .ok g) (hk : g.kind = .task) (he : taskGate (eventOf i) s g = .error e) :
    exec i s = toOutcome (.error e) := by
  refine exec_of_deliveryOf_error h.1 ?_
  rw [deliveryOf_of_reachesGate h]
  simp [hl, protectedMode, advanced, hg, hk, he]

theorem exec_of_tssStack_pageFault {g : Gate} {d : SegDesc} (h : GateChosen i s g) (hl : s.lma = false)
    (hc : HandlerCode s g d) (hh : HigherLevel s d ∨ Level0FromV86 s d) (hpf : TssStackPageFaults s d.dpl.toNat c) :
    exec i s = .fault (.pf c) := by
  refine exec_of_deliveryOf_error (e := .fault (.pf c)) h.1.1 ?_
  rcases hh with hh | hh
  · rw [deliveryOf_eq_interLegacy h hl hc hh, interLegacy, advanced, advanceIp_interStack,
      interStack_of_pageFault hpf, error_bind]
  · rw [deliveryOf_eq_fromV86 h hc hh, fromV86, advanced, advanceIp_v86Stack, v86Stack_of_pageFault hpf, error_bind]

/-- With LMA = 1 and no IST pointer the stack of a more privileged level is read from the TSS (R183). -/
theorem exec_of_rspn_pageFault {g : Gate} {d : SegDesc} (h : ReachesGate i s) (hg : LongGate s (vectorOf i) g)
    (hc : HandlerCode s g d) (hist : g.ist = 0) (hh : HigherLevel s d)
    (hpf : Tss64PageFaults s (d.dpl.toNat * 8 + 4) c) : exec i s = .fault (.pf c) := by
  have hl : s.lma = true := hg.1
  have hnone : istPointer Config.params s g = .ok none := by rw [istPointer, if_pos hist]
  have hstack : interStack Config.params s none d.dpl = .error (.fault (.pf c)) := by
    simp only [interStack, tr_kind_of_lma h hl, tss64RspOffset, readTss64_of_pageFault hpf, error_bind]
  refine exec_of_deliveryOf_error (e := .fault (.pf c)) h.1 ?_
  rw [deliveryOf_eq_transfer_long h hg hnone hc, transfer_eq_interLong hl hh, interLong, advanced,
    advanceIp_interStack, hstack, error_bind]

theorem exec_of_frame_error {d : Delivery} {e : Stop} (h : Delivers i s)
    (hd : deliveryOf Config.params (eventOf i) (advanced i s) = .ok d)
    (hframe : frameAddrs s d.place d.slots.length (stackPtr (withHandlerStack d s) d.place.width) = .error e) :
    exec i s = toOutcome (.error e) := by
  rw [← advanced_frameAddrs i] at hframe
  rw [exec_delivers h, deliver, hd]
  exact congrArg toOutcome (enterHandler_of_frameAddrs_error hframe)

end PageFaults

end Sys2Proof.Machine

namespace Sys2Proof.MemoryOfDelivery

open Sys2Proof.Machine

/-- Settles O43: the cells that entering the handler stores are the bytes of the frame. -/
theorem memoryChangesOnlyInTheFrame : Obligations.MemoryChangesOnlyInTheFrame := by
  intro i s t h
  rcases exec_next h with ⟨hn, _, rfl⟩ | ⟨hdel, d, hd, he⟩
  · exact ⟨fun _ => by simp [advanced], fun hdel => absurd hdel hn⟩
  · obtain ⟨as, haddrs, hout⟩ := readByte_enterHandler_outside he
    rw [advanced_frameAddrs] at haddrs
    have hmem : (advanced i s).mem = s.mem := advanceIp_mem _ _ _
    exact ⟨fun hn => absurd hdel hn, fun _ => ⟨d, as, hd, haddrs, frameAddrs_length haddrs, hmem ▸ hout⟩⟩

/-- Settles O53, one clause for each access that a delivery makes. -/
theorem pageFaultEndsTheDelivery : Obligations.PageFaultEndsTheDelivery := by
  intro i s c
  refine ⟨exec_of_idt_pageFault, exec_of_longIdt_pageFault, ?taskDescriptor, ?handlerDescriptor, ?legacyStack,
    ?longStack, ?frame⟩
  case taskDescriptor =>
    intro raw h hl hlim hread hk hdpl hp hnull hglobal htable hdesc
    exact exec_of_taskGate_error h hl (protectedGate_of_taskGate hlim hread hk hdpl hp) hk
      (taskGate_of_readDesc_error hnull hglobal htable hdesc)
  case handlerDescriptor =>
    intro g h hnull htable hcan hdesc
    exact exec_of_handlerSegment_error h (handlerSegment_of_readDesc_error hnull htable hcan hdesc)
  case legacyStack =>
    intro g d h hl hc hh
    refine ⟨exec_of_tssStack_pageFault h hl hc hh, fun sp sel hstack hnull htable hrpl hdesc => ?_⟩
    exact exec_of_newStackSegment_error h hl hc hh hstack (newStackSegment_of_readDesc_error hnull htable hrpl hdesc)
  case longStack =>
    intro g d h hg hc
    refine ⟨fun hist hh hpf => ?_, fun hist hh hpf => exec_of_rspn_pageFault h hg hc hist hh hpf⟩
    exact exec_of_istPointer_error h hg (istPointer_of_pageFault hist hpf)
      (.inr ⟨d, handlerSegment_of_handlerCode hc, hh⟩)
  case frame =>
    intro d h hd hframe
    exact exec_of_frame_error h hd hframe

end Sys2Proof.MemoryOfDelivery
end

-- ==== The bytes that decode: a run of prefixes, then an opcode (R80, R82, R83, R88, R89, R101) ====
section

namespace Sys2Proof

open Sys2Proof.Machine

/-! ## The forms of an opcode -/

/-- The same opcode and immediate, with LOCK before them or not (R88). -/
def Instr.withLock (lock : Bool) : Instr → Instr
  | .int3 _ => .int3 lock
  | .intImm8 _ ib => .intImm8 lock ib
  | .into _ => .into lock

theorem withLock_of_lock_eq {i : Instr} {lock : Bool} (h : i.lock = lock) : i.withLock lock = i := by
  subst h
  cases i <;> rfl

@[simp] theorem sourceOf_withLock (lock : Bool) (i : Instr) : sourceOf (i.withLock lock) = sourceOf i := by
  cases i <;> rfl

@[simp] theorem wellFormed_withLock (lock : Bool) (i : Instr) : (i.withLock lock).wellFormed = i.wellFormed := by
  cases i <;> rfl

theorem eq_into_false_iff {i : Instr} : i = .into false ↔ sourceOf i = .into ∧ i.lock = false := by
  cases i <;> simp [sourceOf, Instr.lock]

/-- INTO alone has no valid form in 64-bit mode (R84, R87). -/
theorem validIn_mode64_eq_false_iff {i : Instr} : i.validIn .mode64 = false ↔ sourceOf i = .into := by
  cases i <;> simp [Instr.validIn, sourceOf]

/-- Behind LOCK alone, or no prefixes, the opcode is its instruction. -/
@[simp] theorem asForm_of_no_other (m64 lock : Bool) (i : Instr) : asForm m64 lock false i = .instr i := by
  simp [asForm]

@[simp] theorem asForm_of_lock (m64 other : Bool) (i : Instr) : asForm m64 true other i = .instr i := by
  simp [asForm]

/-- Behind other prefixes alone only INTO in 64-bit mode is an instruction, the one that raises #UD (R89, R101). -/
theorem asForm_of_other_without_lock (m64 : Bool) (i : Instr) :
    asForm m64 false true i = if m64 = true ∧ sourceOf i = .into then .instr i else .otherPrefix := by
  simp [asForm, validIn_mode64_eq_false_iff]

/-- When an opcode behind prefixes is an instruction, and which. -/
theorem asForm_eq_instr_iff {m64 lock other : Bool} {i j : Instr} :
    asForm m64 lock other i = .instr j ↔
      i = j ∧ (other = true → lock = true ∨ m64 = true ∧ sourceOf i = .into) := by
  cases other with
  | false => simp
  | true =>
    cases lock with
    | true => simp
    | false =>
      rw [asForm_of_other_without_lock]
      split <;> simp [*]

/-! ## The decoder on a run of prefixes -/

/-- LOCK and the other prefixes together (R88, R89). -/
def isPrefixByte (m64 : Bool) (b : Byte) : Bool := isLockByte b || isOtherPrefixByte m64 b

theorem isPrefixByte_iff {m64 : Bool} {b : Byte} :
    isPrefixByte m64 b = true ↔ isLockByte b = true ∨ isOtherPrefixByte m64 b = true := by
  simp [isPrefixByte]

theorem isPrefixByte_eq_false_iff {m64 : Bool} {b : Byte} :
    isPrefixByte m64 b = false ↔ isLockByte b = false ∧ isOtherPrefixByte m64 b = false := by
  simp [isPrefixByte]

theorem decodeFrom_cons_prefix {m64 lock other : Bool} {b : Byte} {bs : List Byte} (h : isPrefixByte m64 b = true) :
    decodeFrom m64 lock other (b :: bs) = decodeFrom m64 (lock || isLockByte b) (other || !isLockByte b) bs := by
  cases hlock : isLockByte b with
  | true => simp [decodeFrom, hlock]
  | false =>
    have hother : isOtherPrefixByte m64 b = true := by simpa [hlock] using isPrefixByte_iff.mp h
    simp [decodeFrom, hlock, hother]

/-- Of a run of prefixes the decoder keeps whether a LOCK stood in it, and whether one of the others did. -/
theorem decodeFrom_run {m64 lock other : Bool} {run bs : List Byte} (h : ∀ b ∈ run, isPrefixByte m64 b = true) :
    decodeFrom m64 lock other (run ++ bs)
      = decodeFrom m64 (lock || run.any isLockByte) (other || run.any fun b => !isLockByte b) bs := by
  induction run generalizing lock other with
  | nil => simp
  | cons b run ih =>
    obtain ⟨hb, hrun⟩ := List.forall_mem_cons.mp h
    rw [List.cons_append, decodeFrom_cons_prefix hb, ih hrun, List.any_cons, List.any_cons, Bool.or_assoc,
      Bool.or_assoc]

/-- After the prefixes the opcode and its immediate are read back, with the LOCK that the run held (R80, R82, R83). -/
theorem decodeFrom_opcodeBytes {i : Instr} (m64 lock other : Bool) (rest : List Byte) (h : i.wellFormed = true) :
    decodeFrom m64 lock other (opcodeBytes i ++ rest) = asForm m64 lock other (i.withLock lock) := by
  cases i with
  | int3 _ => cases m64 <;> rfl
  | into _ => cases m64 <;> rfl
  | intImm8 _ ib =>
    have hib : (BitVec.ofNat 8 ib).toNat = ib := Nat.mod_eq_of_lt (by simpa [Instr.wellFormed] using h)
    have hread : decodeFrom m64 lock other (opcodeBytes (.intImm8 lock ib) ++ rest)
        = asForm m64 lock other (.intImm8 lock (BitVec.ofNat 8 ib).toNat) := by cases m64 <;> rfl
    rw [hib] at hread
    exact hread

theorem decode_run_opcodeBytes {m64 : Bool} {i : Instr} {run : List Byte} (rest : List Byte)
    (h : i.wellFormed = true) (hrun : ∀ b ∈ run, isPrefixByte m64 b = true) :
    decode m64 (run ++ (opcodeBytes i ++ rest))
      = asForm m64 (run.any isLockByte) (run.any fun b => !isLockByte b) (i.withLock (run.any isLockByte)) := by
  rw [decode, decodeFrom_run hrun, decodeFrom_opcodeBytes _ _ _ _ h, Bool.false_or, Bool.false_or]

/-- With no prefixes an opcode and its immediate are the form without LOCK. -/
theorem decode_opcodeBytes {i : Instr} (m64 : Bool) (h : i.wellFormed = true) :
    decode m64 (opcodeBytes i) = .instr (i.withLock false) := by
  simpa using decode_run_opcodeBytes (m64 := m64) (run := []) [] h (by simp)

/-- A first byte that is none of the prefixes and none of the three opcodes (R83). -/
theorem decodeFrom_notInScope {m64 lock other : Bool} {b : Byte} (bs : List Byte) (hb : isPrefixByte m64 b = false)
    (hint3 : b ≠ 0xCC#8) (hint : b ≠ 0xCD#8) (hinto : b ≠ 0xCE#8) :
    decodeFrom m64 lock other (b :: bs) = .notInScope := by
  obtain ⟨hlock, hother⟩ := isPrefixByte_eq_false_iff.mp hb
  simp [decodeFrom, hlock, hother, hint3, hint, hinto]

/-- Where the run of prefixes ends and an instruction is read stands one of the three opcodes with its immediate
(R83). -/
theorem exists_opcodeBytes_of_decodeFrom_instr {m64 lock other : Bool} {bs : List Byte} {i : Instr}
    (hhead : ∀ b ∈ bs.head?, isPrefixByte m64 b = false) (h : decodeFrom m64 lock other bs = .instr i) :
    ∃ (j : Instr) (rest : List Byte), j.wellFormed = true ∧ j.lock = lock ∧ bs = opcodeBytes j ++ rest := by
  cases bs with
  | nil => simp [decodeFrom] at h
  | cons b bs =>
    by_cases hint3 : b = 0xCC#8
    · exact ⟨.int3 lock, bs, rfl, rfl, by rw [hint3]; rfl⟩
    by_cases hinto : b = 0xCE#8
    · exact ⟨.into lock, bs, rfl, rfl, by rw [hinto]; rfl⟩
    by_cases hint : b = 0xCD#8
    · cases bs with
      | nil => simp [decodeFrom, hint] at h
      | cons ib bs =>
        exact ⟨.intImm8 lock ib.toNat, bs, by simp [Instr.wellFormed, ib.isLt], rfl, by simp [opcodeBytes, hint]⟩
    · rw [decodeFrom_notInScope bs (hhead b rfl) hint3 hint hinto] at h
      cases h

/-- Every byte list is a run of prefixes and a rest that begins with none. -/
theorem exists_prefixRun (m64 : Bool) (bs : List Byte) :
    ∃ run tail, bs = run ++ tail ∧ (∀ b ∈ run, isPrefixByte m64 b = true) ∧
      ∀ b ∈ tail.head?, isPrefixByte m64 b = false := by
  refine ⟨bs.takeWhile (isPrefixByte m64), bs.dropWhile (isPrefixByte m64), List.takeWhile_append_dropWhile.symm,
    fun b hb => List.mem_takeWhile_imp hb, fun b hb => ?_⟩
  have hnot := List.head?_dropWhile_not (isPrefixByte m64) bs
  rw [Option.mem_def.mp hb] at hnot
  simpa using hnot

/-- The instruction that bytes decode to, in terms of a run of prefixes that they begin with (R88, R89, R101). -/
theorem decode_eq_instr_iff {m64 : Bool} {bs : List Byte} {i : Instr} :
    decode m64 bs = .instr i ↔
      i.wellFormed = true ∧ ∃ run rest : List Byte,
        bs = run ++ (opcodeBytes i ++ rest) ∧ (∀ b ∈ run, isPrefixByte m64 b = true) ∧
        i.lock = run.any isLockByte ∧
        asForm m64 i.lock (run.any fun b => !isLockByte b) i = .instr i := by
  constructor
  · intro h
    obtain ⟨run, tail, rfl, hrun, hhead⟩ := exists_prefixRun m64 bs
    rw [decode, decodeFrom_run hrun, Bool.false_or, Bool.false_or] at h
    obtain ⟨j, rest, hwf, hlock, rfl⟩ := exists_opcodeBytes_of_decodeFrom_instr hhead h
    rw [decodeFrom_opcodeBytes _ _ _ _ hwf, withLock_of_lock_eq hlock, ← hlock] at h
    obtain ⟨rfl, _⟩ := asForm_eq_instr_iff.mp h
    exact ⟨hwf, run, rest, rfl, hrun, hlock, h⟩
  · rintro ⟨hwf, run, rest, rfl, hrun, hlock, hform⟩
    rw [decode_run_opcodeBytes rest hwf hrun, ← hlock, withLock_of_lock_eq rfl, hform]

/-- One of the three opcodes behind a run of prefixes none of which is LOCK (R89, R101). -/
theorem decode_other_run {m64 : Bool} {i : Instr} {run : List Byte} (rest : List Byte) (h : i.wellFormed = true)
    (hne : run ≠ []) (hrun : ∀ b ∈ run, isLockByte b = false ∧ isOtherPrefixByte m64 b = true) :
    decode m64 (run ++ (opcodeBytes i ++ rest))
      = if m64 = true ∧ sourceOf i = .into then .instr (.into false) else .otherPrefix := by
  have hnoLock : run.any isLockByte = false := List.any_eq_false.mpr fun b hb => by simp [(hrun b hb).1]
  have hother : (run.any fun b => !isLockByte b) = true := by
    obtain ⟨b, hb⟩ := List.exists_mem_of_ne_nil run hne
    exact List.any_eq_true.mpr ⟨b, hb, by simp [(hrun b hb).1]⟩
  rw [decode_run_opcodeBytes rest h fun b hb => isPrefixByte_iff.mpr (.inr (hrun b hb).2), hnoLock, hother,
    asForm_of_other_without_lock, sourceOf_withLock]
  cases i <;> simp [sourceOf, Instr.withLock]

end Sys2Proof

namespace Sys2Proof.DecodedBytes

open Sys2Proof.Machine

/-- Settles O2: the decoder's answer by the run of prefixes, with `asForm` read as the two forms that raise #UD. -/
theorem decodedBytesAreExactlyTheForms : Obligations.DecodedBytesAreExactlyTheForms := by
  intro m64 bs i
  have hform (run : List Byte) : asForm m64 i.lock (run.any fun b => !isLockByte b) i = .instr i ↔
      ((∃ b ∈ run, isLockByte b = false) → i.lock = true ∨ m64 = true ∧ i = .into false) := by
    rw [asForm_eq_instr_iff, eq_into_false_iff]
    cases i.lock <;> simp
  simp only [decode_eq_instr_iff, hform, isPrefixByte_iff]

/-- Settles O1, by the instruction: each one's encoding is read back as it. -/
theorem decodeOfEncodeIsTheInstruction : Obligations.DecodeOfEncodeIsTheInstruction := by
  intro m64 i rest hwf
  have hround : Laws.Encoding.Statement i := by
    cases i with
    | int3 lock => exact Laws.Encoding.int3 lock
    | intImm8 lock ib => exact Laws.Encoding.intImm8 lock ib
    | into lock => exact Laws.Encoding.into lock
  obtain ⟨_, hdecode⟩ := hround hwf
  exact hdecode m64 rest

/-- Settles O4: the words are encodings, so each decodes by the round trip. -/
theorem writtenOutWordsDecode : Obligations.WrittenOutWordsDecode :=
  have word (m64 : Bool) (i : Instr) (hwf : i.wellFormed = true) : decode m64 (encode i) = .instr i := by
    simpa using decodeOfEncodeIsTheInstruction m64 i [] hwf
  ⟨word false (.int3 false) rfl, word true (.int3 false) rfl, word false (.intImm8 false 0x21) rfl,
    word false (.intImm8 false 3) rfl, word true (.intImm8 false 255) rfl, word false (.into false) rfl,
    word false (.intImm8 true 128) rfl⟩

/-- Settles O3: the decoder's answer behind such a run; at the step it is INTO, which 64-bit mode does not have. -/
theorem otherPrefixesAreRefused : Obligations.OtherPrefixesAreRefused := by
  refine ⟨fun m64 i run rest hwf hne hrun => decode_other_run rest hwf hne hrun,
    fun s run hne hlen hlaw hm64 hrun hbytes => ?_⟩
  have hdec : decode (inMode64 s) (run ++ [0xCE#8]) = .instr (.into false) := by
    rw [hm64]
    exact decode_other_run (i := .into false) [] rfl hne hrun
  have hstep : step s = exec (.into false) s :=
    StepOnBytes.stepRunsTheDecodedInstruction s _ _ (by simpa using hlen) hbytes hdec rfl
  rw [hstep, exec_into_mode64 hlaw (by simpa [inMode64] using hm64)]

end Sys2Proof.DecodedBytes
end

-- ==== The step on its first byte, and where nothing decodes (R81, R83, R89, R243) ====
section

namespace Sys2Proof.Machine

/-! ## The fetch -/

/-- Bytes that do not yet answer the decoder are read, and the fetch goes on behind them (R81). -/
theorem fetchInstr_of_more {vaBits : Nat} {s : State} (fuel : Nat) {pre bs : List Byte}
    (hbytes : ∀ j b, bs[j]? = some b → fetchByte vaBits s (pre.length + j) = .ok b)
    (hmore : decode (inMode64 s) (pre ++ bs) = .more) :
    fetchInstr vaBits s (bs.length + fuel) pre = fetchInstr vaBits s fuel (pre ++ bs) := by
  induction bs generalizing pre with
  | nil => simp
  | cons b bs ih =>
    have hsplit : pre ++ b :: bs = (pre ++ [b]) ++ bs := by simp
    have hfirst : fetchByte vaBits s pre.length = .ok b := hbytes 0 b rfl
    have hpre : decode (inMode64 s) (pre ++ [b]) = .more := by
      by_contra hne
      exact hne (by rw [← decode_append _ _ bs hne, ← hsplit, hmore])
    have hrest (j : Nat) (c : Byte) (hj : bs[j]? = some c) :
        fetchByte vaBits s ((pre ++ [b]).length + j) = .ok c := by
      have := hbytes (j + 1) c (by simpa using hj)
      rwa [List.length_append, List.length_singleton, Nat.add_assoc, Nat.add_comm 1 j]
    calc fetchInstr vaBits s ((b :: bs).length + fuel) pre
        = fetchInstr vaBits s (bs.length + fuel) (pre ++ [b]) := by
          rw [List.length_cons, Nat.add_right_comm, fetchInstr, hfirst]
          simp only [hpre]
      _ = fetchInstr vaBits s fuel (pre ++ b :: bs) := by rw [hsplit, ih hrest (hsplit ▸ hmore)]

/-- Where the decoder asks for a byte that stops, the fetch stops as that byte does (R81). -/
theorem nextInstr_of_more_of_fetchByte_error {vaBits : Nat} {s : State} {bs : List Byte} {e : Stop}
    (hlen : bs.length < fetchLimit) (hbytes : ∀ j b, bs[j]? = some b → fetchByte vaBits s j = .ok b)
    (hmore : decode (inMode64 s) bs = .more) (he : fetchByte vaBits s bs.length = .error e) :
    nextInstr vaBits s = .error e := by
  obtain ⟨fuel, hfuel⟩ : ∃ fuel, fetchLimit = bs.length + (fuel + 1) := Nat.exists_eq_add_of_lt hlen
  rw [nextInstr, hfuel, fetchInstr_of_more (pre := []) (fuel + 1) (by simpa using hbytes) hmore, List.nil_append,
    fetchInstr, he]

theorem fetchByte_of_not_fetchable {vaBits : Nat} {s : State} {i : Nat} (h : fetchable vaBits s i = false) :
    fetchByte vaBits s i = refuse .unfetchable := by
  simp [fetchByte, h]

theorem fetchByte_of_pageFault {vaBits : Nat} {s : State} {i : Nat} {c : Word16} (h : fetchable vaBits s i = true)
    (hpf : translateAddr s (linear s (fetchAddr s i)) .fetch (cplPriv s) = .pageFault c) :
    fetchByte vaBits s i = raise (.pf c) := by
  simp [fetchByte, h, hpf]

/-! ## The step -/

theorem step_of_nextInstr_refuse {s : State} {r : Refusal} (h : nextInstr Config.vaBits s = refuse r) :
    step s = .refused r := by
  simp only [step, h, refuse]

theorem step_of_nextInstr_raise {s : State} {f : Fault} (h : nextInstr Config.vaBits s = raise f) :
    step s = .fault f := by
  simp only [step, h, raise]

/-- Bytes that the decoder refuses are refused by the step under the decoder's name. -/
theorem step_of_decode_refused {s : State} {bs : List Byte} {r : DecodeResult} {why : Refusal}
    (hlen : bs.length ≤ fetchLimit) (hbytes : ∀ j b, bs[j]? = some b → fetchByte Config.vaBits s j = .ok b)
    (hdec : decode (inMode64 s) bs = r) (hr : r ≠ .more) (hwhy : decodedOutcome r = refuse why) :
    step s = .refused why := by
  subst hdec
  exact step_of_nextInstr_refuse ((nextInstr_eq_decodedOutcome hlen hbytes hr).trans hwhy)

theorem fetchByte_of_getElem?_singleton {vaBits : Nat} {s : State} {b : Byte} (h : fetchByte vaBits s 0 = .ok b)
    (j : Nat) (c : Byte) (hj : [b][j]? = some c) : fetchByte vaBits s j = .ok c := by
  obtain ⟨rfl, rfl⟩ : j = 0 ∧ b = c := by simpa [List.getElem?_singleton] using hj
  exact h

theorem fetchByte_of_getElem?_pair {vaBits : Nat} {s : State} {b b' : Byte} (h : fetchByte vaBits s 0 = .ok b)
    (h' : fetchByte vaBits s 1 = .ok b') (j : Nat) (c : Byte) (hj : [b, b'][j]? = some c) :
    fetchByte vaBits s j = .ok c := by
  match j with
  | 0 => exact h.trans (by simpa using hj)
  | 1 => exact h'.trans (by simpa using hj)
  | j + 2 => simp at hj

/-- An opcode and its immediate at the instruction pointer, with no prefixes before them, are run (R83). -/
theorem step_of_opcodeBytes {s : State} {i : Instr} (hwf : i.wellFormed = true)
    (hbytes : ∀ j b, (opcodeBytes i)[j]? = some b → fetchByte Config.vaBits s j = .ok b) :
    step s = exec (i.withLock false) s := by
  have hlen : (opcodeBytes i).length ≤ fetchLimit := by cases i <;> simp [opcodeBytes, fetchLimit]
  exact StepOnBytes.stepRunsTheDecodedInstruction s _ _ hlen hbytes (decode_opcodeBytes _ hwf)
    (by simpa using hwf)

end Sys2Proof.Machine

namespace Sys2Proof.StepOnBytes

open Sys2Proof.Machine

/-- Settles O5, by the first byte: each opcode with its immediate is one of the model's forms. -/
theorem firstByteSelectsTheInstruction : Obligations.FirstByteSelectsTheInstruction := by
  intro s b hb
  refine ⟨?int3, ?into, ?int, ?other⟩
  case int3 =>
    rintro rfl
    exact step_of_opcodeBytes (i := .int3 false) rfl (fetchByte_of_getElem?_singleton hb)
  case into =>
    rintro rfl
    exact step_of_opcodeBytes (i := .into false) rfl (fetchByte_of_getElem?_singleton hb)
  case int =>
    rintro rfl ib hib
    refine step_of_opcodeBytes (i := .intImm8 false ib.toNat) (by simp [Instr.wellFormed, ib.isLt]) ?_
    rw [opcodeBytes, BitVec.ofNat_toNat, BitVec.setWidth_eq]
    exact fetchByte_of_getElem?_pair hb hib
  case other =>
    intro hint3 hint hinto hlock hother
    exact step_of_decode_refused (by simp [fetchLimit]) (fetchByte_of_getElem?_singleton hb)
      (decodeFrom_notInScope [] (isPrefixByte_eq_false_iff.mpr ⟨hlock, hother⟩) hint3 hint hinto) nofun rfl

/-- Settles O7: the first two clauses are the decoder's answers, the last two the stop of the byte it asks for. -/
theorem stepStopsWhereNothingDecodes : Obligations.StepStopsWhereNothingDecodes := by
  intro s bs hbytes
  refine ⟨?otherPrefix, ?notInScope, ?unfetchable, ?pageFault⟩
  case otherPrefix => exact fun hlen hdec => step_of_decode_refused hlen hbytes hdec nofun rfl
  case notInScope => exact fun hlen hdec => step_of_decode_refused hlen hbytes hdec nofun rfl
  case unfetchable =>
    intro hlen hmore hnot
    exact step_of_nextInstr_refuse
      (nextInstr_of_more_of_fetchByte_error hlen hbytes hmore (fetchByte_of_not_fetchable hnot))
  case pageFault =>
    intro c hlen hmore hfetch hpf
    exact step_of_nextInstr_raise
      (nextInstr_of_more_of_fetchByte_error hlen hbytes hmore (fetchByte_of_pageFault hfetch hpf))

end Sys2Proof.StepOnBytes
end

-- ==== When an instruction raises #UD (R84, R87, R88, R246) ====
section

namespace Sys2Proof.Machine

/-- #UD comes from LOCK or from INTO in 64-bit mode: the delivery raises none (R87, R88, R246). -/
theorem exec_eq_ud_iff {i : Instr} {s : State} (hlaw : lawful s = true) :
    exec i s = .fault .ud ↔ i.lock = true ∨ sourceOf i = .into ∧ opMode s = .mode64 := by
  constructor
  · intro h
    rcases exec_fault_cases h with ⟨_, hcause, _⟩ | ⟨_, hstop⟩
    · exact hcause
    · simp [ListedStop] at hstop
  · rintro (hlock | ⟨hinto, hmode⟩)
    · exact exec_lock hlaw hlock
    · cases i with
      | into lock => exact exec_into_mode64 hlaw hmode
      | int3 | intImm8 => simp [sourceOf] at hinto

end Sys2Proof.Machine

namespace Sys2Proof.InvalidOpcode

open Sys2Proof.Machine

/-- Settles O9: INTO without LOCK has the one cause left. -/
theorem intoInvalidExactlyIn64BitMode : Obligations.IntoInvalidExactlyIn64BitMode := by
  intro s hlaw
  rw [exec_eq_ud_iff hlaw]
  simp [Instr.lock, sourceOf]

/-- Settles O8. -/
theorem lockRaisesInvalidOpcode : Obligations.LockRaisesInvalidOpcode :=
  fun _ _ hlaw hlock => exec_lock hlaw hlock

end Sys2Proof.InvalidOpcode
end

-- ==== INT 3, INT imm8 and INTO by the mode and the flags (R23, R26, R102 to R108, R111) ====
section

namespace Sys2Proof.Machine

/-! ## The advance where the sum fits (R23) -/

/-- Outside 64-bit mode the advance writes EIP alone, where the sum fits the register (log 12). -/
theorem advanced_eq_writeEip {i : Instr} {s : State} (hm : opMode s ≠ .mode64)
    (hfits : (eip s).toNat + lengthOf i < 2 ^ 32) :
    advanced i s = { s with rip := writeEip s.rip (eip s + BitVec.ofNat 32 (lengthOf i)) } := by
  have hmode : ¬ inMode64 s = true := by simpa [inMode64] using hm
  rw [advanced, advanceIp, if_neg hmode, if_pos hfits]

/-! ## Virtual-8086 mode before any table is read (R105 to R108) -/

section Virtual8086

variable {p : Params} {ev : Event} {s : State}

theorem deliveryOf_eq_vmeRedirection (hpe : s.pe = true) (hvm : flagVM s.eflags = true) (hvme : s.vme = true)
    (hr : redirectable ev.source = true) : deliveryOf p ev s = .error (.refuse .vmeRedirection) := by
  simp [deliveryOf, hpe, hvm, hvme, hr, refuse]

theorem deliveryOf_eq_ioplFault (hpe : s.pe = true) (hvm : flagVM s.eflags = true) (hvme : s.vme = false)
    (hiopl : (flagIOPL s.eflags).toNat < 3) (hsens : ioplSensitive p ev.source = true) :
    deliveryOf p ev s = .error (.fault (.gp (some 0#16))) := by
  have hbelow : (flagIOPL s.eflags).ult 3#2 = true := level_ult_iff.mpr hiopl
  simp [deliveryOf, hpe, hvm, hvme, hbelow, hsens, raise]

end Virtual8086

theorem redirectable_of_ne_int3 {i : Instr} (h : sourceOf i ≠ .int3) : redirectable (sourceOf i) = true := by
  cases i with
  | int3 => exact absurd rfl h
  | intImm8 | into => rfl

/-- An instruction that the virtual-8086 check concerns faults below IOPL 3 (R106, R107). -/
theorem exec_eq_ioplFault {i : Instr} {s : State} (hd : Delivers i s) (hpe : s.pe = true)
    (hvm : flagVM s.eflags = true) (hvme : s.vme = false) (hiopl : (flagIOPL s.eflags).toNat < 3)
    (hsens : ioplSensitive Config.params (sourceOf i) = true) : exec i s = .fault (.gp (some 0#16)) := by
  have hstop : deliveryOf Config.params (eventOf i) (advanced i s) = .error (.fault (.gp (some 0#16))) := by
    apply deliveryOf_eq_ioplFault <;> simpa [advanced, eventOf, softwareEvent]
  rw [exec_of_deliveryOf_error hd hstop, toOutcome]

/-- Virtual-8086 mode is not 64-bit mode (R45). -/
theorem opMode_ne_mode64_of_flagVM {s : State} (hvm : flagVM s.eflags = true) : opMode s ≠ .mode64 := by
  cases hpe : s.pe <;> simp [opMode, hpe, hvm]

/-! ## Other EFLAGS -/

/-- Other EFLAGS that agree in what the instruction reads give the same outcome, but for memory and EFLAGS: no instruction
writes VME, so it stays the same in both next states. -/
theorem exec_agree_withFlags {i : Instr} {s : State} {e : Word32} (hv : flagVM e = flagVM s.eflags)
    (hof : sourceOf i = .into → flagOF e = flagOF s.eflags)
    (hiopl : flagVM s.eflags = true → ioplSensitive Config.params (sourceOf i) = true →
      flagIOPL e = flagIOPL s.eflags) :
    Agree SameButMemoryAndFlags (exec i s) (exec i { s with eflags := e }) := by
  have h := exec_reflagged (i := i) (v := s.vme) hv hof (fun _ _ => rfl) hiopl
  refine agree_mono h fun t u ht hu => ?_
  obtain ⟨_, htvme, _⟩ := exec_next_sameSystem ht
  obtain ⟨_, huvme, _⟩ := exec_next_sameSystem hu
  have hvme : u.vme = t.vme := huvme.trans htvme.symm
  rintro ⟨m, v, f, rfl⟩
  obtain rfl : v = t.vme := hvme
  rfl

/-! ## The flags that a delivery clears (R26, R111) -/

/-- `f` is `e` with flags cleared, OF and IOPL not among them. -/
structure OnlyClears (e f : Word32) : Prop where
  neverSet : ∀ k, f.getLsbD k = true → e.getLsbD k = true
  overflow : flagOF f = flagOF e
  iopl : flagIOPL f = flagIOPL e

theorem onlyClears_refl (e : Word32) : OnlyClears e e := ⟨fun _ h => h, rfl, rfl⟩

theorem onlyClears_clearFlags {mask : Word32} (hof : flagOF mask = false) (hiopl : flagIOPL mask = 0#2) (e : Word32) :
    OnlyClears e (clearFlags mask e) where
  neverSet k h := by
    rw [clearFlags, BitVec.getLsbD_and, Bool.and_eq_true] at h
    exact h.1
  overflow := by
    rw [flagOF] at hof
    rw [flagOF, flagOF, clearFlags, BitVec.getLsbD_and, BitVec.getLsbD_not, hof]
    simp
  iopl := by
    refine BitVec.eq_of_getLsbD_eq fun k hk => ?_
    have hmask : mask.getLsbD (12 + k) = false := by
      simpa [flagIOPL, BitVec.getLsbD_extractLsb', hk] using congrArg (BitVec.getLsbD · k) hiopl
    have hword : 12 + k < 32 := by omega
    simp only [flagIOPL, clearFlags, BitVec.getLsbD_extractLsb', BitVec.getLsbD_and, BitVec.getLsbD_not, hmask, hword]
    simp

theorem onlyClears_eflagsAfterReal (e : Word32) : OnlyClears e (eflagsAfterReal e) :=
  onlyClears_clearFlags (by decide) (by decide) e

theorem onlyClears_eflagsAfterGate (k : GateKind) (e : Word32) : OnlyClears e (eflagsAfterGate k e) := by
  unfold eflagsAfterGate
  split
  · exact onlyClears_clearFlags (by decide) (by decide) e
  · exact onlyClears_clearFlags (by decide) (by decide) e

theorem exec_next_onlyClears {i : Instr} {s t : State} (h : exec i s = .next t) : OnlyClears s.eflags t.eflags := by
  rcases exec_next_entered h with ⟨_, rfl⟩ | ⟨_, d, _, hd, hE, _⟩
  · simpa [advanced] using onlyClears_refl s.eflags
  · rw [hE.eflags]
    cases hd with
    | realMode _ eflags => exact eflags ▸ onlyClears_eflagsAfterReal _
    | sameLevel _ _ eflags | higherLevel _ _ eflags | fromV86 _ _ eflags =>
      obtain ⟨k, hk⟩ := eflags
      exact hk ▸ onlyClears_eflagsAfterGate k _

/-! ## The gate whose type decides IF (R189, R205, R226) -/

/-- Outside real-address mode a delivery went through a checked gate, and its EFLAGS are those of that gate. -/
theorem MadeBy.eflags_of_gate {p : Params} {ev : Event} {s : State} {d : Delivery} (h : MadeBy p ev s d)
    (hpe : s.pe = true) :
    ∃ g, (s.lma = false ∧ protectedGate ev s = .ok g ∧ g.kind ≠ .task ∨ s.lma = true ∧ longGate p ev s = .ok g) ∧
      d.eflags = eflagsAfterGate g.kind s.eflags := by
  cases h with
  | real hreal => simp [hpe] at hreal
  | interLegacy _ hl _ g c hg hk _ _ _ h =>
    obtain ⟨_, _, _, _, _, _, _, rfl⟩ := interLegacy_eq_ok.mp h
    exact ⟨g, .inl ⟨hl, hg, hk⟩, rfl⟩
  | intraLegacy _ hl _ g c hg hk _ _ h =>
    obtain ⟨_, _, rfl⟩ := intraLegacy_eq_ok.mp h
    exact ⟨g, .inl ⟨hl, hg, hk⟩, rfl⟩
  | interLong _ hl _ g ist c hg _ _ _ _ h =>
    obtain ⟨_, _, _, _, _, rfl⟩ := interLong_eq_ok.mp h
    exact ⟨g, .inr ⟨hl, hg⟩, rfl⟩
  | intraLong _ hl _ g ist c hg _ _ _ h =>
    obtain ⟨_, _, rfl⟩ := intraLong_eq_ok.mp h
    exact ⟨g, .inr ⟨hl, hg⟩, rfl⟩
  | fromV86 _ _ g c hg _ _ _ _ h =>
    obtain ⟨_, _, _, _, _, _, _, rfl⟩ := fromV86_eq_ok.mp h
    refine ⟨g, ?_, rfl⟩
    rcases hg with hlegacy | ⟨hl, hg, _⟩
    · exact .inl hlegacy
    · exact .inr ⟨hl, hg⟩

/-- The vector of an instruction's event (R100). -/
theorem eventOf_vector (i : Instr) : (eventOf i).vector = vectorOf i := rfl

theorem exec_next_eflags_of_gate {i : Instr} {s t : State} (h : exec i s = .next t) (hdel : Delivers i s)
    (hpe : s.pe = true) :
    ∃ g, (LegacyGate s (vectorOf i) g ∨ LongGate s (vectorOf i) g) ∧ t.eflags = eflagsAfterGate g.kind s.eflags := by
  rcases exec_next h with ⟨hn, _⟩ | ⟨_, d, hd, he⟩
  · exact absurd hdel hn
  · obtain ⟨_, _, _, _, hE⟩ := enterHandler_ok he
    have hpe' : (advanced i s).pe = true := by simpa [advanced] using hpe
    obtain ⟨g, hg, hflags⟩ := (deliveryOf_madeBy hd).eflags_of_gate hpe'
    simp only [advanced, advanceIp_lma, advanceIp_protectedGate, advanceIp_longGate, advanceIp_eflags] at hg hflags
    refine ⟨g, ?_, hE.eflags.trans hflags⟩
    rcases hg with ⟨hl, hg, hk⟩ | ⟨hl, hg⟩
    · exact .inl (eventOf_vector i ▸ legacyGate_of_protectedGate hl (eventOf_software i) hg hk)
    · exact .inr (eventOf_vector i ▸ longGate_of_longGate_ok hl (eventOf_software i) hg)

theorem exec_next_eflags_of_realMode {i : Instr} {s t : State} (h : exec i s = .next t) (hdel : Delivers i s)
    (hpe : s.pe = false) : t.eflags = eflagsAfterReal s.eflags := by
  rcases exec_next_entered h with ⟨hn, _⟩ | ⟨_, d, _, hd, hE, _⟩
  · exact absurd hdel hn
  · rw [hE.eflags]
    cases hd with
    | realMode _ eflags => exact eflags
    | sameLevel pe | higherLevel pe | fromV86 pe => simp [hpe] at pe

end Sys2Proof.Machine

namespace Sys2Proof.IntInstructions

open Sys2Proof.Machine

/-- Settles O40: real-address mode clears one set of flags, and a gate the set of its type. -/
theorem flagsAreClearedNeverSet : Obligations.FlagsAreClearedNeverSet := by
  intro i s t h
  obtain ⟨hset, hof, hiopl⟩ := exec_next_onlyClears h
  refine ⟨fun hn => ?_, exec_next_eflags_of_realMode h, fun hdel hpe => ?_, hset, hof, hiopl⟩
  · rcases exec_next_entered h with ⟨_, rfl⟩ | ⟨hdel, _⟩
    · simp [advanced]
    · exact absurd hdel hn
  · obtain ⟨g, hg, hflags⟩ := exec_next_eflags_of_gate h hdel hpe
    exact ⟨g, hg, hflags.trans (eflagsAfterGate_eq g.kind s.eflags)⟩

/-- Settles O19: the parameter says whether INTO takes the check of IOPL; where it does not, IOPL is not read. -/
theorem virtual8086IntoFollowsTheParameter : Obligations.Virtual8086IntoFollowsTheParameter := by
  intro s e hlaw hpe hvm hvme hof hiopl hvm' hof' _
  have hsens : ioplSensitive Config.params (sourceOf (.into false)) = Config.v86IntoIoplSensitive := rfl
  split
  · next hopen =>
    have hdel : Delivers (.into false) s := ⟨hlaw, rfl, fun _ => ⟨hof, opMode_ne_mode64_of_flagVM hvm⟩⟩
    exact exec_eq_ioplFault hdel hpe hvm hvme hiopl (hsens.trans hopen)
  · next hopen =>
    exact exec_agree_withFlags (hvm'.trans hvm.symm) (fun _ => hof'.trans hof.symm)
      (fun _ hread => absurd (hsens.symm.trans hread) hopen)

/-- Settles O21: INT 3 is neither redirected nor sensitive to IOPL. -/
theorem int3IgnoresVmeAndIopl : Obligations.Int3IgnoresVmeAndIopl := by
  intro l s v e hv
  have hnotInto : sourceOf (.int3 l) ≠ .into := by simp [sourceOf]
  have hnotRedirected : redirectable (sourceOf (.int3 l)) ≠ true := by simp [sourceOf, redirectable]
  have hnotSensitive : ioplSensitive Config.params (sourceOf (.int3 l)) ≠ true := by simp [sourceOf, ioplSensitive]
  have h := exec_reflagged (i := .int3 l) (v := v) hv (fun hi => absurd hi hnotInto)
    (fun _ hr => absurd hr hnotRedirected) (fun _ hs => absurd hs hnotSensitive)
  refine agree_mono h fun t u _ _ => ?_
  rintro ⟨m, w, f, rfl⟩
  rfl

/-- Settles O12. -/
theorem intoWithoutOverflowOnlyAdvances : Obligations.IntoWithoutOverflowOnlyAdvances := by
  intro s hlaw hm hof hfits
  rw [exec_into_noOverflow hlaw hm hof, advanced_eq_writeEip (i := .into false) hm hfits, lengthOf]

/-- Settles O18: INT imm8 always takes the check of IOPL. -/
theorem virtual8086IoplFault : Obligations.Virtual8086IoplFault := by
  intro ib s hlaw hpe hvm hvme hiopl
  have hdel : Delivers (.intImm8 false ib) s := ⟨hlaw, rfl, by simp⟩
  exact exec_eq_ioplFault hdel hpe hvm hvme hiopl rfl

/-- Settles O20: the redirection is looked for before IOPL. -/
theorem vmeRedirectionIsRefused : Obligations.VmeRedirectionIsRefused := by
  intro i s hdel hsrc hpe hvm hvme
  have hr := redirectable_of_ne_int3 hsrc
  have hstop : deliveryOf Config.params (eventOf i) (advanced i s) = .error (.refuse .vmeRedirection) := by
    apply deliveryOf_eq_vmeRedirection <;> simpa [advanced, eventOf, softwareEvent]
  rw [exec_of_deliveryOf_error hdel hstop, toOutcome]

end Sys2Proof.IntInstructions
end

-- ==== Real-address mode: the limit, the room, the handler entered, and what is not read (R57, R61, R130 to R136) ====
section

namespace Sys2Proof.Machine

/-! ## The checks of REAL-ADDRESS-MODE (R61, R130 to R132) -/

/-- R61's real-mode stack has room for the three words exactly where they do not wrap. -/
theorem stackRoom_realMode_eq_yes {s : State} :
    stackRoom realModeStack .w16 (stackPtr s .w16) 6 = .yes ↔ stackPtr s .w16 = 0 ∨ 6 ≤ stackPtr s .w16 := by
  have hsp : stackPtr s .w16 < 65536 := stackPtr_lt_modulus s .w16
  have hmod : StackWidth.w16.modulus = 65536 := rfl
  have hlimit : realModeStack.limit.toNat = 65535 := rfl
  rw [stackRoom_eq_yes, inLimit_expandUp rfl, hlimit, hmod]
  split <;> omega

/-- On R61's real-mode stack the answer that is not yes is ambiguous: SP from 1 to 5. -/
theorem stackRoom_realMode_eq_ambiguous {s : State} (hlow : 1 ≤ stackPtr s .w16) (hhigh : stackPtr s .w16 ≤ 5) :
    stackRoom realModeStack .w16 (stackPtr s .w16) 6 = .ambiguous := by
  rw [stackRoom_eq_ambiguous, if_neg (by omega)]
  omega

section Checks

variable {ev : Event} {s : State}

theorem realMode_of_beyond_limit (h : s.idtr.limit.toNat < ev.vector * 4 + 3) :
    realMode ev s = .error (.fault (.gp none)) := by
  rw [realMode, decide_eq_true h, stopIf_true, error_bind]

theorem realMode_of_wrap (hlim : ev.vector * 4 + 3 ≤ s.idtr.limit.toNat)
    (hroom : stackRoom realModeStack .w16 (stackPtr s .w16) 6 = .ambiguous) :
    realMode ev s = .error (.refuse .stackWrap) := by
  rw [realMode, stopIf_bind_of_pass (decide_eq_false (by omega)), requireRoom, hroom]
  rfl

end Checks

/-! ## How a real-address-mode delivery ends -/

section Outcomes

variable {i : Instr} {s : State}

theorem exec_realMode_of_beyond_limit (hdel : Delivers i s) (hpe : s.pe = false)
    (hlim : s.idtr.limit.toNat < vectorOf i * 4 + 3) : exec i s = .fault (.gp none) := by
  have hstop : realMode (eventOf i) (advanced i s) = .error (.fault (.gp none)) :=
    realMode_of_beyond_limit (by simpa [advanced, eventOf_vector] using hlim)
  rw [exec_of_deliveryOf_error hdel ((deliveryOf_eq_realMode hpe).trans hstop), toOutcome]

theorem exec_realMode_of_wrap (hdel : Delivers i s) (hpe : s.pe = false)
    (hlim : vectorOf i * 4 + 3 ≤ s.idtr.limit.toNat) (hlow : 1 ≤ stackPtr s .w16) (hhigh : stackPtr s .w16 ≤ 5) :
    exec i s = .refused .stackWrap := by
  have hstop : realMode (eventOf i) (advanced i s) = .error (.refuse .stackWrap) :=
    realMode_of_wrap (by simpa [advanced, eventOf_vector] using hlim)
      (by simpa [advanced] using stackRoom_realMode_eq_ambiguous hlow hhigh)
  rw [exec_of_deliveryOf_error hdel ((deliveryOf_eq_realMode hpe).trans hstop), toOutcome]

/-- The delivery that a far pointer of the vector table gives: the offset in its low word, the selector in its high one
(R130, R134). -/
def farPointerDelivery (i : Instr) (s : State) (entry : Nat) : Delivery where
  ss := s.ss
  rspLo := s.rspLo
  rspHi := s.rspHi
  place := realModePlace s
  slots := realModeSlots (advanced i s)
  cs :=
    { sel := BitVec.ofNat 16 (entry / 2 ^ 16)
      hidden := { s.cs.hidden with base := BitVec.ofNat 32 (entry / 2 ^ 16 * 16), limit := 0xFFFF#32 } }
  rip := writeEip s.rip (BitVec.ofNat 32 (entry % 2 ^ 16))
  cpl := s.cpl
  eflags := eflagsAfterReal s.eflags
  nullData := false
  draws := (advanced i s).draws

/-- The two words of a far pointer. -/
theorem bits_farPointer {entry : Nat} (h : entry < 2 ^ 32) :
    bits entry 31 16 = entry / 2 ^ 16 ∧ bits entry 15 0 = entry % 2 ^ 16 := by
  refine ⟨?_, rfl⟩
  rw [bits, Nat.shiftRight_eq_div_pow]
  exact Nat.mod_eq_of_lt (by omega)

theorem inMode64_of_realMode (hpe : s.pe = false) : inMode64 s = false := by simp [inMode64, opMode, hpe]

/-- Where both checks pass, REAL-ADDRESS-MODE answers this delivery (R130). -/
theorem deliveryOf_realMode_of_fits {entry : Nat} (hpe : s.pe = false)
    (hlim : vectorOf i * 4 + 3 ≤ s.idtr.limit.toNat) (hfits : stackPtr s .w16 = 0 ∨ 6 ≤ stackPtr s .w16)
    (hentry : memRead s 4 (tableAddr s.idtr.base (vectorOf i * 4)) = .ok entry) :
    deliveryOf Config.params (eventOf i) (advanced i s) = .ok (farPointerDelivery i s entry) := by
  obtain ⟨hsel, hoff⟩ := bits_farPointer (memRead_lt hentry)
  have hword : entry / 2 ^ 16 < 2 ^ 16 := by have := memRead_lt hentry; omega
  have hcs : realModeCs (advanced i s) (BitVec.ofNat 16 (bits entry 31 16)) = (farPointerDelivery i s entry).cs := by
    rw [hsel, realModeCs, BitVec.toNat_ofNat, Nat.mod_eq_of_lt hword, advanced, advanceIp_cs, farPointerDelivery]
  have hplace : realModePlace (advanced i s) = realModePlace s := by simp [realModePlace, advanced]
  rw [deliveryOf_eq_realMode hpe, realMode_eq_ok]
  refine ⟨by simpa [advanced, eventOf_vector] using hlim,
    by simpa [advanced] using stackRoom_realMode_eq_yes.mpr hfits, entry,
    by simpa [advanced, eventOf_vector] using hentry, ?_⟩
  rw [hcs, hplace, hoff, writeEip_advanced (inMode64_of_realMode hpe)]
  simp [farPointerDelivery, advanced]

/-- Where both checks pass the handler is entered (R130, R133): real-address mode has no translation that could stop a
push. -/
theorem exec_realMode_of_fits {entry : Nat} (hdel : Delivers i s) (hpe : s.pe = false)
    (hlim : vectorOf i * 4 + 3 ≤ s.idtr.limit.toNat) (hfits : stackPtr s .w16 = 0 ∨ 6 ≤ stackPtr s .w16)
    (hentry : memRead s 4 (tableAddr s.idtr.base (vectorOf i * 4)) = .ok entry) :
    ∃ t, exec i s = .next t ∧ Entered (farPointerDelivery i s entry) s t ∧
      FramePushed s t (realModePlace s) 3 (stackPtr s .w16) ∧
      enterHandler Config.params (farPointerDelivery i s entry) (advanced i s) = .ok t ∧
      SlotsRead t (realModePlace s) (advanced i s).draws (realModeSlots (advanced i s)) :=
  exec_enter hdel (deliveryOf_realMode_of_fits hpe hlim hfits hentry) (.inl hpe) rfl rfl rfl
    (frameFits_of_stackRoom (stackRoom_realMode_eq_yes.mpr hfits) rfl (stackPtr_lt_modulus s .w16)
      (frame_bytes_le (by omega) _))

end Outcomes

/-! ## What real-address mode does not read (R57, R135) -/

/-- GDTR, LDTR, TR but for its kind, VME and the translation. -/
structure TableInputs where
  gdtr : TableReg
  ldtr : LdtReg
  trSel : Word16
  trBase : Word64
  trLimit : Word32
  vme : Bool
  xlat : List XlatEntry

/-- `s` with these inputs in place of its own. -/
def withTables (x : TableInputs) (s : State) : State :=
  { s with
    gdtr := x.gdtr
    ldtr := x.ldtr
    tr := { s.tr with sel := x.trSel, base := x.trBase, limit := x.trLimit }
    vme := x.vme
    xlat := x.xlat }

section Unread

variable {p : Params} {x : TableInputs} {s : State}

/-- With PE = 0 addresses are linear ones, whatever the translation (R57). -/
theorem withTables_physAddrs (hpe : s.pe = false) (k : Access) (pr : Priv) (n : Nat) (a : Word64) :
    physAddrs (withTables x s) k pr n a = physAddrs s k pr n a := by
  rw [physAddrs_identity (.inl hpe), physAddrs_identity (s := withTables x s) (.inl hpe)]
  rfl

theorem withTables_memRead (hpe : s.pe = false) (n : Nat) (a : Word64) :
    memRead (withTables x s) n a = memRead s n a := by
  rw [memRead, withTables_physAddrs hpe, memRead]
  rfl

theorem withTables_stackPtr (w : StackWidth) : stackPtr (withTables x s) w = stackPtr s w := by
  cases w <;> rfl

theorem withTables_realMode {ev : Event} (hpe : s.pe = false) : realMode ev (withTables x s) = realMode ev s := by
  rw [realMode, withTables_stackPtr, withTables_memRead hpe, realMode]
  rfl

theorem withTables_advanced (i : Instr) : advanced i (withTables x s) = withTables x (advanced i s) := by
  have hmode : inMode64 (withTables x s) = inMode64 s := rfl
  have heip : eip (withTables x s) = eip s := rfl
  have hrip : (withTables x s).rip = s.rip := rfl
  unfold advanced advanceIp
  rw [hmode, heip, hrip]
  split <;> split <;> rfl

theorem withTables_setStackPtr (sp : Nat) (w : StackWidth) :
    setStackPtr p (withTables x s) sp w = withTables x (setStackPtr p s sp w) := by
  cases w <;> rfl

theorem withTables_push (hpe : s.pe = false) (c : PushPlace) (v : Slot) :
    push p c v (withTables x s) = (push p c v s).map (withTables x) := by
  have haddrs (sp : Nat) : slotAddrs (withTables x s) c sp = slotAddrs s c sp := withTables_physAddrs hpe _ _ _ _
  simp only [push, withTables_stackPtr, haddrs]
  cases slotAddrs s c (pushedPtr c (stackPtr s c.width)) with
  | error e => rfl
  | ok as =>
    have hset := withTables_setStackPtr (p := p) (x := x)
      (s := { s with mem := storeCells s.mem (as.zip (slotBytes p s.draws c.size.bytes v)) })
      (pushedPtr c (stackPtr s c.width)) c.width
    exact congrArg Except.ok hset

theorem withTables_pushAll (hpe : s.pe = false) (c : PushPlace) (vs : List Slot) :
    pushAll p c vs (withTables x s) = (pushAll p c vs s).map (withTables x) := by
  induction vs generalizing s with
  | nil => rfl
  | cons v vs ih =>
    rw [pushAll, withTables_push hpe, pushAll]
    cases hpush : push p c v s with
    | error e => rfl
    | ok s' =>
      obtain ⟨_, _, rfl⟩ := push_eq_ok.mp hpush
      exact ih (by simpa using hpe)

theorem withTables_enterHandler (hpe : s.pe = false) (d : Delivery) :
    enterHandler p d (withTables x s) = (enterHandler p d s).map (withTables x) := by
  have hpush := withTables_pushAll (p := p) (x := x) (s := withHandlerStack d s) hpe d.place d.slots
  have hstack : withHandlerStack d (withTables x s) = withTables x (withHandlerStack d s) := rfl
  rw [enterHandler, hstack, hpush, enterHandler]
  cases pushAll p d.place d.slots (withHandlerStack d s) <;> rfl

/-- With PE = 0 every event goes to REAL-ADDRESS-MODE (R105). -/
theorem deliveryOf_of_pe_eq_false {ev : Event} (hpe : s.pe = false) : deliveryOf p ev s = realMode ev s := by
  simp [deliveryOf, hpe]

/-- A real-address-mode delivery from other tables is the same, with these tables in the next state. -/
theorem withTables_deliver {ev : Event} (hpe : s.pe = false) :
    deliver p ev (withTables x s) = (deliver p ev s).map (withTables x) := by
  have hpe' : (withTables x s).pe = false := hpe
  rw [deliver, deliveryOf_of_pe_eq_false hpe', withTables_realMode hpe, deliver, deliveryOf_of_pe_eq_false hpe]
  cases realMode ev s with
  | error e => rfl
  | ok d => exact withTables_enterHandler hpe d

/-- A function of the answer agrees with it in every relation that the function keeps. -/
theorem agreeRes_map {α : Type} {R : α → α → Prop} {f : α → α} (h : ∀ a, R a (f a)) (r : Res α) :
    AgreeRes R r (r.map f) := by
  cases r with
  | error e => exact agreeRes_error e
  | ok a => exact h a

/-- In real-address mode an instruction carries other tables along and reads none of them (R57, R135). -/
theorem exec_withTables (i : Instr) (x : TableInputs) (hpe : s.pe = false) :
    Agree (fun t u => u = withTables x t) (exec i s) (exec i (withTables x s)) := by
  rcases exec_cases i s with ⟨hs, he⟩ | ⟨hs, hud, he⟩ | ⟨hs, rfl, hm, ho, he⟩ | ⟨hd, he⟩
  · rw [he, exec_unlawful (s := withTables x s) hs]
    rfl
  · rw [he, (exec_eq_ud_iff (s := withTables x s) hs).mpr hud]
    rfl
  · rw [he, exec_into_noOverflow (s := withTables x s) hs hm ho]
    exact withTables_advanced _
  · have hpe' : (advanced i s).pe = false := by simpa [advanced] using hpe
    rw [he, exec_delivers (s := withTables x s) hd, withTables_advanced, withTables_deliver hpe']
    exact agree_toOutcome (agreeRes_map (R := fun t u => u = withTables x t) (fun _ => rfl) _)

end Unread

end Sys2Proof.Machine

namespace Sys2Proof.RealAddressMode

open Sys2Proof.Machine

/-- Settles O13: the delivery of the far pointer, on a frame that does not wrap. -/
theorem realModeDelivery : Obligations.RealModeDelivery := by
  intro i s entry hdel hpe hret hlim hfits hentry
  obtain ⟨t, ht, hE, hframe, henter, hslots⟩ := exec_realMode_of_fits hdel hpe hlim hfits hentry
  have hupper := enterHandler_rspLo_upper henter rfl
  refine ⟨t, ht, ⟨hE.cs, hE.rip, hE.cpl, hE.eflags, hE.sameSystem⟩, ⟨hE.ds, hE.es, hE.fs, hE.gs⟩, hE.ss, hupper,
    hframe, ?_⟩
  have hword : 256 ^ (realModePlace s).size.bytes = 2 ^ 16 := rfl
  have himage := returnImage_plain hslots
  rw [savedIp_advanced hret, rflags_toNat, hword, advanced, advanceIp_cs, advanceIp_eflags] at himage
  exact himage

/-- Settles O16: every other fault of R246 needs PE = 1. -/
theorem realModeFaultsAreTheListed : Obligations.RealModeFaultsAreTheListed := by
  intro i s f hpe h
  rcases exec_fault_cases h with ⟨_, _, rfl⟩ | ⟨_, hstop⟩
  · exact .inl rfl
  · have hprot : ¬ s.pe = true := by simp [hpe]
    cases f with
    | ud => exact .inl rfl
    | gp code =>
      cases code with
      | none => exact .inr rfl
      | some c => exact absurd hstop.1 hprot
    | ss code =>
      cases code with
      | none => exact absurd hstop id
      | some c => exact absurd hstop.1 hprot
    | np c | ts c | pf c => exact absurd hstop.1 hprot

/-- Settles O17. -/
theorem realModeReadsNoTables : Obligations.RealModeReadsNoTables := by
  intro i s g l q b m v x hpe
  have h := exec_withTables i ⟨g, l, q, b, m, v, x⟩ hpe
  refine agree_mono h fun t u _ _ => ?_
  rintro rfl
  rfl

/-- Settles O14: within the limit a delivery is refused or completes. -/
theorem realModeVectorMustBeWithinTheLimit : Obligations.RealModeVectorMustBeWithinTheLimit := by
  intro i s hwf hdel hpe
  refine ⟨exec_realMode_of_beyond_limit hdel hpe, fun hlim => ?_, fun hfull => ?_⟩
  · by_cases hfits : stackPtr s .w16 = 0 ∨ 6 ≤ stackPtr s .w16
    · obtain ⟨t, ht, _⟩ := exec_realMode_of_fits hdel hpe hlim hfits (memRead_identity (.inl hpe) 4 _)
      simp [ht]
    · rw [exec_realMode_of_wrap hdel hpe hlim (by omega) (by omega)]
      simp
  · have hvector : vectorOf i < 256 := by
      cases i with
      | intImm8 lock ib => simpa [Instr.wellFormed, vectorOf] using hwf
      | int3 | into => simp [vectorOf]
    omega

/-- Settles O15. -/
theorem realModeWrappingFrameIsRefused : Obligations.RealModeWrappingFrameIsRefused :=
  fun _ _ hdel hpe hlim hlow hhigh => exec_realMode_of_wrap hdel hpe hlim hlow hhigh

end Sys2Proof.RealAddressMode
end

-- ==== Gate selection: the checks of the gate, the task gate and the handler's segment (R141 to R168, R183) ====
section

namespace Sys2Proof.Machine

/-- A check that fails ends the procedure. -/
theorem stopIf_bind_of_fail {c : Bool} {e : Stop} {β : Type} {f : Unit → Res β} (h : c = true) :
    (stopIf c e >>= f) = .error e := by
  subst h
  rfl

/-! ## The checks of an IDT entry that has been read (R142, R143, R146, R148) -/

/-- What PROTECTED-MODE and IA-32e-MODE answer of a gate they have read, for the software interrupt `v`: the gate's
type, the privilege check and the present bit, in this order, `k` the scale of the error code. -/
def checkedGate (k v : Nat) (s : State) (g : Gate) : Res Gate :=
  if g.kind = .other then raise (.gp (some (BitVec.ofNat 16 (v * k + 2))))
  else if g.dpl.toNat < s.cpl.toNat then raise (.gp (some (BitVec.ofNat 16 (v * k + 2))))
  else if g.present = false then raise (.np (BitVec.ofNat 16 (v * k + 2)))
  else .ok g

theorem isSoftware_eventOf (i : Instr) : IsSoftware (eventOf i) := ⟨eventOf_software i, rfl, rfl⟩

section GateReads

variable {ev : Event} {s : State} {raw : Nat}

theorem protectedGate_of_beyond_limit (hev : IsSoftware ev) (h : s.idtr.limit.toNat < ev.vector * 8 + 7) :
    protectedGate ev s = raise (.gp (some (BitVec.ofNat 16 (ev.vector * 8 + 2)))) := by
  rw [← idtCode_software, ← hev.2.1]
  exact stopIf_bind_of_fail (decide_eq_true h)

theorem protectedGate_of_memRead (hev : IsSoftware ev) (hlim : ev.vector * 8 + 7 ≤ s.idtr.limit.toNat)
    (hread : memRead s 8 (tableAddr s.idtr.base (ev.vector * 8)) = .ok raw) :
    protectedGate ev s = checkedGate 8 ev.vector s (gate8 raw) := by
  obtain ⟨hsw, hext, _⟩ := hev
  simp only [protectedGate]
  rw [stopIf_bind_of_pass (decide_eq_false (by omega)), hread, ok_bind]
  simp [checkedGate, stopIf_bind, hext, hsw, idtCode_software, level_ult_iff, raise, pure, Except.pure]

theorem longGate_of_beyond_limit {p : Params} (hev : IsSoftware ev) (h : s.idtr.limit.toNat < ev.vector * 16 + 15) :
    longGate p ev s = raise (.gp (some (BitVec.ofNat 16 (ev.vector * p.errScale64 + 2)))) := by
  rw [← idtCode_software, ← hev.2.1]
  exact stopIf_bind_of_fail (decide_eq_true h)

theorem longGate_of_not_canonical {p : Params} (hev : IsSoftware ev)
    (hlim : ev.vector * 16 + 15 ≤ s.idtr.limit.toNat)
    (hcan : allCanonical p.vaBits 16 (tableAddr s.idtr.base (ev.vector * 16)) = false) :
    longGate p ev s = raise (.gp (some (BitVec.ofNat 16 (ev.vector * p.errScale64 + 2)))) := by
  rw [← idtCode_software, ← hev.2.1, longGate, stopIf_bind_of_pass (decide_eq_false (by omega))]
  exact stopIf_bind_of_fail (congrArg not hcan)

theorem longGate_of_memRead {p : Params} (hev : IsSoftware ev) (hlim : ev.vector * 16 + 15 ≤ s.idtr.limit.toNat)
    (hcan : allCanonical p.vaBits 16 (tableAddr s.idtr.base (ev.vector * 16)) = true)
    (hread : memRead s 16 (tableAddr s.idtr.base (ev.vector * 16)) = .ok raw) :
    longGate p ev s = checkedGate p.errScale64 ev.vector s (gate16 raw) := by
  obtain ⟨hsw, hext, _⟩ := hev
  simp only [longGate]
  rw [stopIf_bind_of_pass (decide_eq_false (by omega)), stopIf_bind_of_pass (congrArg not hcan), hread, ok_bind]
  simp [checkedGate, stopIf_bind, hext, hsw, idtCode_software, level_ult_iff, raise, pure, Except.pure]

end GateReads

section Gates

variable {i : Instr} {s : State}

theorem exec_of_protectedGate_error {e : Stop} (h : ReachesGate i s) (hl : s.lma = false)
    (he : protectedGate (eventOf i) s = .error e) : exec i s = toOutcome (.error e) := by
  refine exec_of_deliveryOf_error h.1 ?_
  rw [deliveryOf_of_reachesGate h]
  simp [hl, protectedMode, advanced, he]

theorem exec_of_longGate_error {e : Stop} (h : ReachesGate i s) (hl : s.lma = true)
    (he : longGate Config.params (eventOf i) s = .error e) : exec i s = toOutcome (.error e) := by
  refine exec_of_deliveryOf_error h.1 ?_
  rw [deliveryOf_of_reachesGate h]
  simp [hl, longMode, advanced, he]

/-- An instruction that ends as `checkedGate` does raises the exception of the first check that fails. -/
theorem exec_of_checkedGate {k v : Nat} {g : Gate}
    (h : ∀ e, checkedGate k v s g = .error e → exec i s = toOutcome (.error e)) :
    (g.kind = .other → exec i s = .fault (.gp (some (BitVec.ofNat 16 (v * k + 2))))) ∧
    (g.kind ≠ .other → g.dpl.toNat < s.cpl.toNat →
      exec i s = .fault (.gp (some (BitVec.ofNat 16 (v * k + 2))))) ∧
    (g.kind ≠ .other → s.cpl.toNat ≤ g.dpl.toNat → g.present = false →
      exec i s = .fault (.np (BitVec.ofNat 16 (v * k + 2)))) := by
  refine ⟨fun hkind => ?_, fun hkind hdpl => ?_, fun hkind hdpl habsent => ?_⟩
  · exact h _ (by rw [checkedGate, if_pos hkind, raise])
  · exact h _ (by rw [checkedGate, if_neg hkind, if_pos hdpl, raise])
  · exact h _ (by rw [checkedGate, if_neg hkind, if_neg (by omega), if_pos habsent, raise])

end Gates

/-! ## The stack pointer fields of the 64-bit TSS (R149, R183) -/

section Tss64

variable {i : Instr} {s : State} {g : Gate} {e : Stop}

theorem istPointer_of_readTss64_error (hist : g.ist ≠ 0)
    (h : readTss64 Config.params s (g.ist * 8 + 28) = .error e) : istPointer Config.params s g = .error e := by
  simp only [istPointer, if_neg hist, tss64IstOffset, h]

/-- With LMA = 1 and no IST pointer the read of RSPn ends the delivery where it stops (R183). -/
theorem exec_of_rspn_error {d : SegDesc} (h : ReachesGate i s) (hg : LongGate s (vectorOf i) g)
    (hc : HandlerCode s g d) (hist : g.ist = 0) (hh : HigherLevel s d)
    (hread : readTss64 Config.params s (d.dpl.toNat * 8 + 4) = .error e) : exec i s = toOutcome (.error e) := by
  have hl : s.lma = true := hg.1
  have hnone : istPointer Config.params s g = .ok none := by rw [istPointer, if_pos hist]
  have hstack : interStack Config.params s none d.dpl = .error e := by
    simp only [interStack, tr_kind_of_lma h hl, tss64RspOffset, hread, error_bind]
  refine exec_of_deliveryOf_error h.1 ?_
  rw [deliveryOf_eq_transfer_long h hg hnone hc, transfer_eq_interLong hl hh, interLong, advanced,
    advanceIp_interStack, hstack, error_bind]

end Tss64

/-! ## The checks of a task gate (R150 to R153, R157) -/

section TaskGates

variable {i : Instr} {s : State} {g : Gate}

theorem readDesc_eq_ok {sel : Word16} {d : SegDesc} :
    readDesc s sel = .ok d ↔ ∃ raw, memRead s 8 (descAddr s sel) = .ok raw ∧ segDesc raw = d := by
  unfold readDesc
  cases memRead s 8 (descAddr s sel) <;> simp

theorem taskGate_of_null (h : selNull g.sel = true) : taskGate (eventOf i) s g = raise (.gp (some 0#16)) :=
  stopIf_bind_of_fail h

theorem taskGate_of_not_in_gdt (hnull : selNull g.sel = false)
    (h : selLocal g.sel = true ∨ s.gdtr.limit.toNat < selOffset g.sel + 7) :
    taskGate (eventOf i) s g = raise (.gp (some (g.sel &&& 0xFFFC#16))) := by
  rw [taskGate, stopIf_bind_of_pass hnull, selCode_software]
  exact stopIf_bind_of_fail (by simpa using h)

/-- TASK-GATE once it has read the TSS descriptor: its type, its present bit, then the task switch, which is refused. -/
theorem taskGate_of_readDesc {td : SegDesc} (hnull : selNull g.sel = false) (hglobal : selLocal g.sel = false)
    (hlim : selOffset g.sel + 7 ≤ s.gdtr.limit.toNat) (h : readDesc s g.sel = .ok td) :
    taskGate (eventOf i) s g =
      if td.isAvailableTss = false then raise (.gp (some (g.sel &&& 0xFFFC#16)))
      else if td.present = false then raise (.np (g.sel &&& 0xFFFC#16))
      else refuse .taskSwitch := by
  obtain ⟨raw, hread, rfl⟩ := readDesc_eq_ok.mp h
  have hread' : memRead s 8 (tableAddr s.gdtr.base (selOffset g.sel)) = .ok raw := by
    simpa [descAddr, tableBase, hglobal] using hread
  have htable : (selLocal g.sel || decide (s.gdtr.limit.toNat < selOffset g.sel + 7)) = false := by
    rw [hglobal, Bool.false_or, decide_eq_false (by omega)]
  simp only [taskGate]
  rw [stopIf_bind_of_pass hnull, stopIf_bind_of_pass htable, hread', ok_bind]
  simp [stopIf_bind, selCode_software, raise]

end TaskGates

/-! ## The checks of the handler's code segment (R161 to R164, R168) -/

section Handler

variable {i : Instr} {s : State} {g : Gate}

theorem handlerSegment_of_null (h : selNull g.sel = true) :
    handlerSegment Config.params (eventOf i) s g = raise (.gp (some 0#16)) :=
  stopIf_bind_of_fail h

theorem handlerSegment_of_not_in_table (hnull : selNull g.sel = false) (h : inTable s g.sel = false) :
    handlerSegment Config.params (eventOf i) s g = raise (.gp (some (g.sel &&& 0xFFFC#16))) := by
  rw [← selCode_software, handlerSegment, stopIf_bind_of_pass hnull]
  exact stopIf_bind_of_fail (congrArg not h)

theorem handlerSegment_of_not_canonical (hnull : selNull g.sel = false) (htable : inTable s g.sel = true)
    (hl : s.lma = true) (h : allCanonical Config.vaBits 8 (descAddr s g.sel) = false) :
    handlerSegment Config.params (eventOf i) s g = raise (.gp (some (g.sel &&& 0xFFFC#16))) := by
  rw [← selCode_software, handlerSegment, stopIf_bind_of_pass hnull, stopIf_bind_of_pass (congrArg not htable), hl,
    Bool.true_and]
  exact stopIf_bind_of_fail (congrArg not h)

/-- The checks of the handler's descriptor once it has been read: a code segment of no lower privilege, in IA-32e mode
one of 64-bit code, present. -/
theorem handlerSegment_of_readDesc {d : SegDesc} (hnull : selNull g.sel = false) (htable : inTable s g.sel = true)
    (hcan : s.lma = true → allCanonical Config.vaBits 8 (descAddr s g.sel) = true) (h : readDesc s g.sel = .ok d) :
    handlerSegment Config.params (eventOf i) s g =
      if d.isCode = false ∨ s.cpl.toNat < d.dpl.toNat then raise (.gp (some (g.sel &&& 0xFFFC#16)))
      else if s.lma = true ∧ (d.l = false ∨ d.db = true) then raise (.gp (some (g.sel &&& 0xFFFC#16)))
      else if d.present = false then raise (.np (g.sel &&& 0xFFFC#16))
      else .ok d := by
  have hcan' : (s.lma && !allCanonical Config.params.vaBits 8 (descAddr s g.sel)) = false := by
    cases hl : s.lma with
    | false => rfl
    | true => exact congrArg not (hcan hl)
  have hext : (eventOf i).ext = false := rfl
  simp only [handlerSegment]
  rw [stopIf_bind_of_pass hnull, stopIf_bind_of_pass (congrArg not htable), stopIf_bind_of_pass hcan', h, ok_bind]
  simp [stopIf_bind, hext, selCode_software, level_ult_iff, raise, pure, Except.pure]

/-- In virtual-8086 mode the transfer asks for a non-conforming segment of level 0 (R166, R167). -/
theorem transfer_of_bad_v86_target {p : Params} {ev : Event} {ist : Res (Option Word64)} {d : SegDesc}
    (hvm : flagVM s.eflags = true) (h : d.isConforming = true ∨ d.dpl ≠ 0#2) :
    transfer p ev s g ist d = raise (.gp (some (g.sel &&& 0xFFFC#16))) := by
  rw [← selCode_software, transfer]
  by_cases hc : d.isConforming = true
  · simp [hc, hvm]
  · simp [hvm, h.resolve_left hc]

end Handler

/-! ## The segment a handler runs in (R168) -/

/-- Outside real-address mode CS is loaded from a code segment that passed its checks. -/
theorem MadeBy.cs_of_handlerSegment {p : Params} {ev : Event} {s : State} {d : Delivery} (h : MadeBy p ev s d)
    (hpe : s.pe = true) : ∃ g c, handlerSegment p ev s g = .ok c ∧ d.cs.hidden = c.hidden := by
  cases h with
  | real hreal => simp [hpe] at hreal
  | interLegacy _ _ _ g c _ _ hc _ _ h =>
    obtain ⟨_, _, _, _, _, _, _, rfl⟩ := interLegacy_eq_ok.mp h
    exact ⟨g, c, hc, rfl⟩
  | intraLegacy _ _ _ g c _ _ hc _ h =>
    obtain ⟨_, _, rfl⟩ := intraLegacy_eq_ok.mp h
    exact ⟨g, c, hc, rfl⟩
  | interLong _ _ _ g ist c _ _ hc _ _ h =>
    obtain ⟨_, _, _, _, _, rfl⟩ := interLong_eq_ok.mp h
    exact ⟨g, c, hc, rfl⟩
  | intraLong _ _ _ g ist c _ _ hc _ h =>
    obtain ⟨_, _, rfl⟩ := intraLong_eq_ok.mp h
    exact ⟨g, c, hc, rfl⟩
  | fromV86 _ _ g c _ hc _ _ _ h =>
    obtain ⟨_, _, _, _, _, _, _, rfl⟩ := fromV86_eq_ok.mp h
    exact ⟨g, c, hc, rfl⟩

theorem exec_next_cs_of_handlerCode {i : Instr} {s t : State} (h : exec i s = .next t) (hdel : Delivers i s)
    (hpe : s.pe = true) : ∃ g c, HandlerCode s g c ∧ t.cs.hidden = c.hidden := by
  rcases exec_next h with ⟨hn, _⟩ | ⟨_, d, hd, he⟩
  · exact absurd hdel hn
  · obtain ⟨_, _, _, _, hE⟩ := enterHandler_ok he
    have hpe' : (advanced i s).pe = true := by simpa [advanced] using hpe
    obtain ⟨g, c, hc, hcs⟩ := (deliveryOf_madeBy hd).cs_of_handlerSegment hpe'
    rw [advanced, advanceIp_handlerSegment] at hc
    exact ⟨g, c, handlerCode_of_handlerSegment hc, by rw [hE.cs, hcs]⟩

/-- A delivery through a gate leaves virtual-8086 mode (R189, R205, R226). -/
theorem exec_next_flagVM_of_gate {i : Instr} {s t : State} (h : exec i s = .next t) (hdel : Delivers i s)
    (hpe : s.pe = true) : flagVM t.eflags = false := by
  obtain ⟨g, _, hflags⟩ := exec_next_eflags_of_gate h hdel hpe
  rw [hflags, flagVM_eflagsAfterGate]

theorem opMode_eq_mode64 {s : State} (hpe : s.pe = true) (hvm : flagVM s.eflags = false) (hl : s.lma = true)
    (hcs : s.cs.hidden.l = true) : opMode s = .mode64 := by
  simp [opMode, hpe, hvm, hl, hcs]

end Sys2Proof.Machine

namespace Sys2Proof.GateSelection

open Sys2Proof.Machine

/-- Settles O23: PROTECTED-MODE stops at the limit, or answers `checkedGate` of the gate it reads. -/
theorem protectedModeGateFaults : Obligations.ProtectedModeGateFaults := by
  intro i s h hl
  have hev : IsSoftware (eventOf i) := isSoftware_eventOf i
  refine ⟨fun hlim => ?limit, fun raw hlim hread => ?gate⟩
  case limit => exact exec_of_protectedGate_error h hl (protectedGate_of_beyond_limit hev hlim)
  case gate =>
    exact exec_of_checkedGate fun e he =>
      exec_of_protectedGate_error h hl ((protectedGate_of_memRead hev hlim hread).trans he)

/-- Settles O24: IA-32e-MODE stops at the limit or at a non-canonical address, or answers `checkedGate`. -/
theorem longModeGateFaults : Obligations.LongModeGateFaults := by
  intro i s h hl
  have hev : IsSoftware (eventOf i) := isSoftware_eventOf i
  refine ⟨fun hlim => ?limit, fun hlim hcan => ?canonical, fun raw hlim hcan hread => ?gate⟩
  case limit => exact exec_of_longGate_error h hl (longGate_of_beyond_limit hev hlim)
  case canonical => exact exec_of_longGate_error h hl (longGate_of_not_canonical hev hlim hcan)
  case gate =>
    exact exec_of_checkedGate fun e he =>
      exec_of_longGate_error h hl ((longGate_of_memRead hev hlim hcan hread).trans he)

/-- Settles O25: the IST read stops wherever it is placed, and RSPn is read by the transfer to a higher level. -/
theorem longModeTssFaults : Obligations.LongModeTssFaults := by
  intro i s g h hg
  refine ⟨fun hist hbad hplace => ?ist, fun d hist hc hh hbad => ?rspn⟩
  case ist =>
    refine exec_of_istPointer_error h hg (istPointer_of_readTss64_error hist (readTss64_error hbad)) ?_
    exact hplace.imp_right fun ⟨d, hc, hlevel⟩ => ⟨d, handlerSegment_of_handlerCode hc, hlevel⟩
  case rspn => exact exec_of_rspn_error h hg hc hist hh (readTss64_error hbad)

/-- Settles O26, one check of TASK-GATE after the other. -/
theorem taskGateIsCheckedThenRefused : Obligations.TaskGateIsCheckedThenRefused := by
  intro i s raw h hl hlim hread hk hdpl hp
  have hexec : ∀ {e}, taskGate (eventOf i) s (gate8 raw) = .error e → exec i s = toOutcome (.error e) :=
    exec_of_taskGate_error h hl (protectedGate_of_taskGate hlim hread hk hdpl hp) hk
  refine ⟨fun hnull => hexec (taskGate_of_null hnull),
    fun hnull hgdt => hexec (taskGate_of_not_in_gdt hnull hgdt), fun td hnull hglobal hgdt hdesc => ?_⟩
  have htask := taskGate_of_readDesc (i := i) hnull hglobal hgdt hdesc
  refine ⟨fun hkind => ?_, fun hkind habsent => ?_, fun hkind hpresent => ?_⟩
  · exact hexec (htask.trans (if_pos hkind))
  · exact hexec (by rw [htask, if_neg (by simp [hkind]), if_pos habsent, raise])
  · exact hexec (by rw [htask, if_neg (by simp [hkind]), if_neg (by simp [hpresent]), refuse])

/-- Settles O27, one check of the handler's segment after the other. -/
theorem handlerSegmentFaults : Obligations.HandlerSegmentFaults := by
  intro i s g h
  have hexec : ∀ {e}, handlerSegment Config.params (eventOf i) s g = .error e → exec i s = toOutcome (.error e) :=
    exec_of_handlerSegment_error h
  refine ⟨fun hnull => hexec (handlerSegment_of_null hnull),
    fun hnull htable => hexec (handlerSegment_of_not_in_table hnull htable),
    fun hnull htable hl hcan => hexec (handlerSegment_of_not_canonical hnull htable hl hcan),
    fun d hnull htable hcan hdesc => ?_⟩
  have hchecks := handlerSegment_of_readDesc (i := i) hnull htable hcan hdesc
  refine ⟨fun hcode => ?_, fun hcode hdpl hl hlong => ?_, fun hcode hdpl hlong habsent => ?_⟩
  · exact hexec (hchecks.trans (if_pos hcode))
  · have hpass : ¬ (d.isCode = false ∨ s.cpl.toNat < d.dpl.toNat) := by simp [hcode, hdpl]
    exact hexec (by rw [hchecks, if_neg hpass, if_pos ⟨hl, hlong⟩, raise])
  · have hpass : ¬ (d.isCode = false ∨ s.cpl.toNat < d.dpl.toNat) := by simp [hcode, hdpl]
    have hpass64 : ¬ (s.lma = true ∧ (d.l = false ∨ d.db = true)) := by
      rintro ⟨hl, hbad⟩
      simp [hlong hl] at hbad
    exact hexec (by rw [hchecks, if_neg hpass, if_neg hpass64, if_pos habsent, raise])

/-- Settles O28: the handler's segment passes its own checks, and the transfer raises #GP for it as a target. -/
theorem virtual8086TargetFault : Obligations.Virtual8086TargetFault := by
  intro i s g d h hc hvm hbad
  obtain ⟨ist, hd⟩ := deliveryOf_eq_transfer h hc
  have hvm' : flagVM (advanced i s).eflags = true := by simpa [advanced] using hvm
  exact exec_of_deliveryOf_error h.1.1 (hd.trans (transfer_of_bad_v86_target hvm' hbad))

/-- Settles O45: the handler's segment passed the check of 64-bit code, and the gate cleared VM. -/
theorem longModeHandlerRunsIn64BitMode : Obligations.LongModeHandlerRunsIn64BitMode := by
  intro i s t hdel hl h
  have hpe : s.pe = true := (lawful_iff.mp hdel.1).2.2 hl
  obtain ⟨hpe', _, hl', _⟩ := exec_next_sameSystem h
  obtain ⟨g, c, ⟨_, _, _, _, _, _, hlong, _⟩, hcs⟩ := exec_next_cs_of_handlerCode h hdel hpe
  have hcsl : t.cs.hidden.l = true := by rw [hcs]; exact (hlong hl).1
  exact opMode_eq_mode64 (hpe'.trans hpe) (exec_next_flagVM_of_gate h hdel hpe) (hl'.trans hl) hcsl

end Sys2Proof.GateSelection
end

-- ==== The stack switch: its checks, and the transfer to a higher level (R149, R180 to R191, R201 to R204) ====
section

namespace Sys2Proof.Machine

/-- What ends two checks in a row ends the procedure that begins with them. -/
theorem bind_error_of_checks {β : Type} {x y : Res Unit} {f : Unit → Res β} {e : Stop}
    (h : (x >>= fun _ => y) = .error e) : (x >>= fun _ => y >>= f) = .error e := by
  cases x with
  | error e' => exact congrArg Except.error (Except.error.inj h)
  | ok =>
    rw [ok_bind] at h ⊢
    rw [h, error_bind]

theorem advanced_stackSegment {i : Instr} {s : State} {n : BitVec 2} {sel : Word16} {sd : SegDesc}
    (h : StackSegment s n sel sd) : newStackSegment (advanced i s) (eventOf i).ext n sel = .ok sd :=
  (advanceIp_newStackSegment ..).trans (newStackSegment_eq_ok.mpr h)

/-! ## The stack of the TSS is beyond its limit (R181, R182, R201) -/

section TssLimit

variable {s : State} {n : BitVec 2}

/-- The current 32- or 16-bit TSS is too short to hold the stack of level `n`: the limit tests of `TssStack`
fail. -/
def TssTooShort (s : State) (n : Nat) : Prop :=
  (s.tr.kind = .tss32 ∧ s.tr.limit.toNat < n * 8 + 11) ∨ (s.tr.kind = .tss16 ∧ s.tr.limit.toNat < n * 4 + 6)

theorem readTss32Stack_of_beyond_limit (h : s.tr.limit.toNat < n.toNat * 8 + 11) :
    readTss32Stack s n = .error (tssFault s) :=
  stopIf_bind_of_fail (decide_eq_true h)

theorem readTss16Stack_of_beyond_limit (h : s.tr.limit.toNat < n.toNat * 4 + 6) :
    readTss16Stack s n = .error (tssFault s) :=
  stopIf_bind_of_fail (decide_eq_true h)

theorem interStack_of_tssTooShort {p : Params} (h : TssTooShort s n.toNat) :
    interStack p s none n = .error (tssFault s) := by
  rcases h with ⟨hk, hlim⟩ | ⟨hk, hlim⟩
  · simp only [interStack, hk, readTss32Stack_of_beyond_limit hlim, error_bind]
  · simp only [interStack, hk, readTss16Stack_of_beyond_limit hlim, error_bind]

theorem v86Stack_of_tssTooShort (h : TssTooShort s n.toNat) : v86Stack s n = .error (tssFault s) := by
  rcases h with ⟨hk, hlim⟩ | ⟨hk, hlim⟩
  · simp only [v86Stack, hk, readTss32Stack_of_beyond_limit hlim]
  · simp only [v86Stack, hk, readTss16Stack_of_beyond_limit hlim]

theorem exec_of_tssTooShort {i : Instr} {g : Gate} {d : SegDesc} (h : GateChosen i s g) (hl : s.lma = false)
    (hc : HandlerCode s g d) (hh : HigherLevel s d ∨ Level0FromV86 s d) (hshort : TssTooShort s d.dpl.toNat) :
    exec i s = .fault (.ts (s.tr.sel &&& 0xFFFC#16)) := by
  rw [← selCode_software]
  refine exec_of_deliveryOf_error (e := tssFault s) h.1.1 ?_
  rcases hh with hh | hh
  · rw [deliveryOf_eq_interLegacy h hl hc hh, interLegacy, advanced, advanceIp_interStack,
      interStack_of_tssTooShort hshort, error_bind]
  · rw [deliveryOf_eq_fromV86 h hc hh, fromV86, advanced, advanceIp_v86Stack, v86Stack_of_tssTooShort hshort,
      error_bind]

end TssLimit

/-! ## The checks of a new stack segment (R184, R185, R202) -/

section StackSegments

variable {s : State} {n : BitVec 2} {sel : Word16}

theorem newStackSegment_of_null (h : selNull sel = true) :
    newStackSegment s false n sel = .error (.fault (.ts 0#16)) :=
  stopIf_bind_of_fail h

theorem newStackSegment_of_bad_selector (hnull : selNull sel = false) (h : inTable s sel = false ∨ selRpl sel ≠ n) :
    newStackSegment s false n sel = .error (.fault (.ts (sel &&& 0xFFFC#16))) := by
  rw [← selCode_software, newStackSegment, stopIf_bind_of_pass hnull]
  exact stopIf_bind_of_fail (by simpa using h)

/-- The checks of the new stack's descriptor once it has been read: writable data of level `n`, present. -/
theorem newStackSegment_of_readDesc {sd : SegDesc} (hnull : selNull sel = false) (htable : inTable s sel = true)
    (hrpl : selRpl sel = n) (h : readDesc s sel = .ok sd) :
    newStackSegment s false n sel =
      if sd.dpl ≠ n ∨ sd.isWritableData = false then raise (.ts (sel &&& 0xFFFC#16))
      else if sd.present = false then raise (.ss (some (sel &&& 0xFFFC#16)))
      else .ok sd := by
  have hsel : (!inTable s sel || selRpl sel != n) = false := by simp [htable, hrpl]
  simp only [newStackSegment]
  rw [stopIf_bind_of_pass hnull, stopIf_bind_of_pass hsel, h, ok_bind]
  simp [stopIf_bind, selCode_software, raise, pure, Except.pure]

end StackSegments

/-! ## Room on the new stack, and the handler's offset (R186, R188, R203, R204) -/

section NewStackRoom

variable {i : Instr} {s : State} {g : Gate} {d sd : SegDesc} {sp : Word32} {sel : Word16} {n : Nat}

/-- The room that the new stack of a 16- or 32-bit delivery has for `n` values (R61). -/
abbrev newStackRoom (g : Gate) (sd : SegDesc) (sp : Word32) (n : Nat) : Room :=
  stackRoom sd.hidden (stackWidthOf sd.hidden) (sp.toNat % (stackWidthOf sd.hidden).modulus) (n * g.size.bytes)

/-- The last checks of a 16- or 32-bit delivery to a new stack: room for the `n` values of its frame, then the handler's
offset within the code segment. -/
def newStackChecks (g : Gate) (d sd : SegDesc) (sel : Word16) (sp : Word32) (n : Nat) : Res Unit := do
  requireRoom sd.hidden (stackWidthOf sd.hidden) (sp.toNat % (stackWidthOf sd.hidden).modulus) (n * g.size.bytes)
    (.ss (some (sel &&& 0xFFFC#16)))
  stopIf (!inLimit d.hidden g.off.toNat g.off.toNat) (.fault (.gp (some 0#16)))

theorem newStackChecks_of_no (h : newStackRoom g sd sp n = .no) :
    newStackChecks g d sd sel sp n = .error (.fault (.ss (some (sel &&& 0xFFFC#16)))) := by
  simp only [newStackChecks, requireRoom, h, raise, error_bind]

theorem newStackChecks_of_ambiguous (h : newStackRoom g sd sp n = .ambiguous) :
    newStackChecks g d sd sel sp n = .error (.refuse .stackWrap) := by
  simp only [newStackChecks, requireRoom, h, refuse, error_bind]

theorem newStackChecks_of_beyond_limit (h : newStackRoom g sd sp n = .yes) (hcode : d.isCode = true)
    (hoff : d.effLimit.toNat < g.off.toNat) :
    newStackChecks g d sd sel sp n = .error (.fault (.gp (some 0#16))) := by
  have hlimit : (!inLimit d.hidden g.off.toNat g.off.toNat) = true := by
    rw [inLimit_code hcode, decide_eq_false (by omega), Bool.not_false]
  simp only [newStackChecks, requireRoom, h, ok_bind, hlimit, stopIf_true]

theorem isCode_of_handlerCode (h : HandlerCode s g d) : d.isCode = true := by
  obtain ⟨_, _, _, _, hcode, _⟩ := h
  exact hcode

theorem interLegacy_of_newStackChecks_error {e : Stop} (ht : TssStack s d.dpl.toNat sp sel)
    (hseg : StackSegment s d.dpl sel sd) (h : newStackChecks g d sd sel sp 5 = .error e) :
    interLegacy Config.params (eventOf i) (advanced i s) g d = .error e := by
  have hstack : interStack Config.params (advanced i s) none d.dpl = .ok (sp.setWidth 64, sel) :=
    (advanceIp_interStack ..).trans (interStack_of_tssStack ht)
  have hsp : (sp.setWidth 64).toNat = sp.toNat := BitVec.toNat_setWidth_of_le (by decide)
  rw [newStackChecks, ← selCode_software, ← hsp] at h
  rw [interLegacy, hstack, ok_bind]
  simp only [advanced_stackSegment hseg, ok_bind]
  exact bind_error_of_checks h

theorem fromV86_of_newStackChecks_error {e : Stop} (hsize : g.size ≠ .g64) (ht : TssStack s d.dpl.toNat sp sel)
    (hseg : StackSegment s d.dpl sel sd) (h : newStackChecks g d sd sel sp 9 = .error e) :
    fromV86 Config.params (eventOf i) (advanced i s) g d = .error e := by
  have hstack : v86Stack (advanced i s) d.dpl = .ok (sp, sel) :=
    (advanceIp_v86Stack ..).trans (v86Stack_of_tssStack ht)
  rw [newStackChecks, ← selCode_software] at h
  rw [fromV86, hstack, ok_bind]
  simp only [advanced_stackSegment hseg, ok_bind, v86Room_legacy hsize]
  exact bind_error_of_checks h

/-- The last checks of a delivery to a new stack end the instruction as they end themselves: five values, or nine from
virtual-8086 mode. -/
theorem exec_of_newStackChecks_error {e : Stop} (h : GateChosen i s g) (hl : s.lma = false) (hc : HandlerCode s g d)
    (hh : HigherLevel s d ∨ Level0FromV86 s d) (ht : TssStack s d.dpl.toNat sp sel)
    (hseg : StackSegment s d.dpl sel sd)
    (he : newStackChecks g d sd sel sp (if flagVM s.eflags then 9 else 5) = .error e) :
    exec i s = toOutcome (.error e) := by
  refine exec_of_deliveryOf_error h.1.1 ?_
  rcases hh with hh | hh
  · rw [hh.1] at he
    rw [deliveryOf_eq_interLegacy h hl hc hh]
    exact interLegacy_of_newStackChecks_error ht hseg he
  · rw [hh.1] at he
    rw [deliveryOf_eq_fromV86 h hc hh]
    exact fromV86_of_newStackChecks_error (gateChosen_size h hl).1 ht hseg he

end NewStackRoom

/-! ## The frame and the offset of a 64-bit delivery (R186, R188, R222, R224) -/

section LongChecks

variable {i : Instr} {s : State} {g : Gate} {d : SegDesc} {top : Word64}

/-- The last checks of a 64-bit delivery below `top`: the five values at canonical addresses, then the handler's
offset. -/
def longStackChecks (g : Gate) (top : Word64) : Res Unit := do
  requireCanonicalFrame Config.params (alignTop Config.params top) 40
  stopIf (!canonical Config.vaBits g.off) (.fault (.gp (some 0#16)))

/-- What holds of a stack pointer and of its aligned value holds whatever `ALIGN_RSP_16` is (R187). -/
theorem alignTop_of_both {P : Word64 → Prop} (h : P top) (haligned : P (top &&& 0xFFFFFFFFFFFFFFF0#64)) :
    P (alignTop Config.params top) := by
  rcases alignTop_cases top with he | he
  · rwa [he]
  · rwa [he]

theorem longStackChecks_of_frame (h : allCanonical Config.vaBits 40 (top - 40#64) = false)
    (haligned : allCanonical Config.vaBits 40 ((top &&& 0xFFFFFFFFFFFFFFF0#64) - 40#64) = false) :
    longStackChecks g top = .error (.fault (.ss (some 0#16))) := by
  have hframe : allCanonical Config.vaBits 40 (alignTop Config.params top - 40#64) = false :=
    alignTop_of_both (P := fun x => allCanonical Config.vaBits 40 (x - 40#64) = false) h haligned
  exact stopIf_bind_of_fail (congrArg not hframe)

theorem longStackChecks_of_offset (h : CanonicalFrame top) (hoff : canonical Config.vaBits g.off = false) :
    longStackChecks g top = .error (.fault (.gp (some 0#16))) := by
  have hframe : requireCanonicalFrame Config.params (alignTop Config.params top) 40 = .ok () :=
    requireCanonicalFrame_eq_ok.mpr (canonicalFrame_alignTop h)
  rw [longStackChecks, hframe, ok_bind, hoff, Bool.not_false, stopIf_true]

theorem interLong_of_longStackChecks_error {e : Stop} {ist : Option Word64} {sel : Word16} (hsize : g.size = .g64)
    (hstack : interStack Config.params s ist d.dpl = .ok (top, sel)) (h : longStackChecks g top = .error e) :
    interLong Config.params (eventOf i) (advanced i s) g ist d = .error e := by
  have hstack' : interStack Config.params (advanced i s) ist d.dpl = .ok (top, sel) :=
    (advanceIp_interStack ..).trans hstack
  rw [interLong, hstack', ok_bind]
  simp only [hsize]
  exact bind_error_of_checks h

theorem intraLong_of_longStackChecks_error {e : Stop} {ist : Option Word64} (hsize : g.size = .g64)
    (hstack : ist.getD (rsp s) = top) (h : longStackChecks g top = .error e) :
    intraLong Config.params (eventOf i) (advanced i s) g ist d = .error e := by
  have hstack' : ist.getD (rsp (advanced i s)) = top := by rw [advanced, advanceIp_rsp, hstack]
  rw [intraLong, hstack']
  simp only [hsize]
  exact bind_error_of_checks h

/-- The last checks of a 64-bit delivery end the instruction as they end themselves, at the same level and to a higher
one. -/
theorem exec_of_longStackChecks_error {e : Stop} (h : ReachesGate i s) (hg : LongGate s (vectorOf i) g)
    (hc : HandlerCode s g d) (hh : SameLevel s d ∨ HigherLevel s d) (hstack : LongStack s g d top)
    (he : longStackChecks g top = .error e) : exec i s = toOutcome (.error e) := by
  have hl : s.lma = true := hg.1
  obtain ⟨ist, hist, hhigher, hsame⟩ := istPointer_of_longStack hstack
  refine exec_of_deliveryOf_error h.1 ?_
  rw [deliveryOf_eq_transfer_long h hg hist hc]
  rcases hh with hh | hh
  · rw [transfer_eq_intraLong hl hh]
    exact intraLong_of_longStackChecks_error (longGate_size hg) (hsame hh) he
  · obtain ⟨sel, hsp⟩ := hhigher hh (tr_kind_of_lma h hl)
    rw [transfer_eq_interLong hl hh]
    exact interLong_of_longStackChecks_error (longGate_size hg) hsp he

end LongChecks

/-! ## The five values of the frame (R114, R189, R190) -/

section FrameValues

variable {i : Instr} {s t : State} {c : PushPlace} {draw : Nat}

theorem interSlots_advanced (i : Instr) (s : State) :
    interSlots (eventOf i) (advanced i s)
      = [.padded s.ss.sel, .exact (rsp s), .exact (rflags s.eflags), .padded s.cs.sel,
          .exact (savedIp (advanced i s))] := by
  simp [interSlots, codeSlots, eventOf, softwareEvent, advanced]

/-- What a return reads from the five values that an instruction pushes (R252). -/
theorem returnImage_interSlots (hret : ReturnFits i s)
    (h : SlotsRead t c draw (interSlots (eventOf i) (advanced i s))) :
    returnImage t c .withStack = .ok ⟨returnIp i s % 256 ^ c.size.bytes, s.cs.sel.toNat,
      s.eflags.toNat % 256 ^ c.size.bytes, some ((rsp s).toNat % 256 ^ c.size.bytes, s.ss.sel.toNat), []⟩ := by
  rw [interSlots_advanced] at h
  rw [returnImage_withStack h, savedIp_advanced hret, rflags_toNat]

/-- A return address fits 64 bits. -/
theorem returnIp_lt (hret : ReturnFits i s) : returnIp i s < 2 ^ 64 := by
  rw [← savedIp_advanced hret]
  exact BitVec.isLt _

/-- In slots of 8 bytes the five values stand whole. -/
theorem returnImage_interSlots_g64 (hret : ReturnFits i s) (hsize : c.size = .g64)
    (h : SlotsRead t c draw (interSlots (eventOf i) (advanced i s))) :
    returnImage t c .withStack
      = .ok ⟨returnIp i s, s.cs.sel.toNat, s.eflags.toNat, some ((rsp s).toNat, s.ss.sel.toNat), []⟩ := by
  have hslot : 256 ^ c.size.bytes = 2 ^ 64 := by rw [hsize]; rfl
  have hflags : s.eflags.toNat < 2 ^ 64 := by omega
  rw [returnImage_interSlots hret h, hslot, Nat.mod_eq_of_lt (returnIp_lt hret), Nat.mod_eq_of_lt hflags,
    Nat.mod_eq_of_lt (rsp s).isLt]

end FrameValues

/-! ## The transfer with LMA = 0 (R180 to R182, R184 to R190) -/

section Legacy

variable {i : Instr} {s : State} {g : Gate} {d sd : SegDesc} {sp : Word32} {sel : Word16}

/-- The delivery to a more privileged level through a 16- or 32-bit gate, on the stack `sel:sp` of segment `sd`. -/
def stackSwitchDelivery (i : Instr) (s : State) (g : Gate) (d sd : SegDesc) (sp : Word32) (sel : Word16) :
    Delivery where
  ss := { sel := sel, hidden := sd.hidden }
  rspLo := sp
  rspHi := Config.rspHigh (advanced i s).draws
  place := { base := sd.base.setWidth 64, width := stackWidthOf sd.hidden, size := g.size, priv := .supervisor }
  slots := interSlots (eventOf i) (advanced i s)
  cs := { sel := withRpl g.sel d.dpl, hidden := d.hidden }
  rip := writeEip s.rip (g.off.setWidth 32)
  cpl := d.dpl
  eflags := eflagsAfterGate g.kind s.eflags
  nullData := false
  draws := (advanced i s).draws + 1

theorem deliveryOf_stackSwitch (h : GateChosen i s g) (hl : s.lma = false) (hc : HandlerCode s g d)
    (hh : HigherLevel s d) (ht : TssStack s d.dpl.toNat sp sel) (hseg : StackSegment s d.dpl sel sd)
    (hroom : newStackRoom g sd sp 5 = .yes) (hoff : g.off.toNat ≤ d.effLimit.toNat) :
    deliveryOf Config.params (eventOf i) (advanced i s) = .ok (stackSwitchDelivery i s g d sd sp sel) := by
  rw [deliveryOf_eq_interLegacy h hl hc hh, interLegacy_eq_ok]
  refine ⟨sp.setWidth 64, sel, sd, (advanceIp_interStack ..).trans (interStack_of_tssStack ht),
    advanced_stackSegment hseg, ?room, ?limit, ?delivery⟩
  case room =>
    have hsp : (sp.setWidth 64).toNat = sp.toNat := BitVec.toNat_setWidth_of_le (by decide)
    rwa [interSlots_advanced, hsp]
  case limit => rw [inLimit_code (isCode_of_handlerCode hc), decide_eq_true hoff]
  case delivery =>
    rw [writeEip_advanced_of_lma hl]
    simp [stackSwitchDelivery, advanced, Config.params]

/-- Before the pushes the stack pointer is the low part of `sp` that the new SS uses (R21). -/
theorem stackPtr_stackSwitch (s' : State) :
    stackPtr (withHandlerStack (stackSwitchDelivery i s g d sd sp sel) s') (stackWidthOf sd.hidden)
      = sp.toNat % (stackWidthOf sd.hidden).modulus := by
  unfold stackWidthOf
  split
  · exact (Nat.mod_eq_of_lt sp.isLt).symm
  · rfl

theorem exec_stackSwitch (h : GateChosen i s g) (hl : s.lma = false) (hc : HandlerCode s g d) (hh : HigherLevel s d)
    (hid : Unmapped s) (ht : TssStack s d.dpl.toNat sp sel) (hseg : StackSegment s d.dpl sel sd)
    (hroom : newStackRoom g sd sp 5 = .yes) (hoff : g.off.toNat ≤ d.effLimit.toNat) :
    ∃ t, exec i s = .next t ∧ Entered (stackSwitchDelivery i s g d sd sp sel) s t ∧
      FramePushed s t (stackSwitchDelivery i s g d sd sp sel).place 5
        (sp.toNat % (stackWidthOf sd.hidden).modulus) ∧
      enterHandler Config.params (stackSwitchDelivery i s g d sd sp sel) (advanced i s) = .ok t ∧
      SlotsRead t (stackSwitchDelivery i s g d sd sp sel).place ((advanced i s).draws + 1)
        (interSlots (eventOf i) (advanced i s)) := by
  have hsp : sp.toNat % (stackWidthOf sd.hidden).modulus < (stackWidthOf sd.hidden).modulus := by
    rw [← stackPtr_stackSwitch (i := i) (s := s) (g := g) (d := d) (sel := sel) s]
    exact stackPtr_lt_modulus _ _
  exact exec_enter h.1.1 (deliveryOf_stackSwitch h hl hc hh ht hseg hroom hoff) (.inr hid) rfl rfl
    (stackPtr_stackSwitch s) (frameFits_of_stackRoom hroom rfl hsp (frame_bytes_le (by omega) _))

end Legacy

/-! ## The transfer with LMA = 1 (R149, R180, R183, R186 to R191) -/

section Long

variable {i : Instr} {s : State} {g : Gate} {d : SegDesc} {top : Word64}

/-- The delivery to a more privileged level through a 64-bit gate, on the stack below `top`. -/
def longStackSwitchDelivery (i : Instr) (s : State) (g : Gate) (d : SegDesc) (top : Word64) : Delivery where
  ss := nullStackSegment Config.params (advanced i s) d.dpl
  rspLo := (alignTop Config.params top).setWidth 32
  rspHi := (alignTop Config.params top).extractLsb' 32 32
  place := { base := 0#64, width := .w64, size := .g64, priv := .supervisor }
  slots := interSlots (eventOf i) (advanced i s)
  cs := { sel := withRpl g.sel d.dpl, hidden := d.hidden }
  rip := g.off
  cpl := d.dpl
  eflags := eflagsAfterGate g.kind s.eflags
  nullData := false
  draws := (advanced i s).draws + 1

theorem deliveryOf_longStackSwitch (h : ReachesGate i s) (hg : LongGate s (vectorOf i) g) (hc : HandlerCode s g d)
    (hh : HigherLevel s d) (hstack : LongStack s g d top) (hframe : CanonicalFrame top)
    (hoff : canonical Config.vaBits g.off = true) :
    deliveryOf Config.params (eventOf i) (advanced i s) = .ok (longStackSwitchDelivery i s g d top) := by
  have hl : s.lma = true := hg.1
  have hsize : g.size = .g64 := longGate_size hg
  obtain ⟨ist, hist, hhigher, _⟩ := istPointer_of_longStack hstack
  obtain ⟨sel, hsp⟩ := hhigher hh (tr_kind_of_lma h hl)
  rw [deliveryOf_eq_transfer_long h hg hist hc, transfer_eq_interLong hl hh, interLong_eq_ok]
  refine ⟨top, sel, (advanceIp_interStack ..).trans hsp, ?frame, hoff, ?delivery⟩
  case frame =>
    rw [interSlots_advanced, hsize]
    exact canonicalFrame_alignTop hframe
  case delivery =>
    rw [hsize]
    simp [longStackSwitchDelivery, advanced]

theorem exec_longStackSwitch (h : ReachesGate i s) (hg : LongGate s (vectorOf i) g) (hc : HandlerCode s g d)
    (hh : HigherLevel s d) (hid : Unmapped s) (hstack : LongStack s g d top) (hframe : CanonicalFrame top)
    (hoff : canonical Config.vaBits g.off = true) :
    ∃ t, exec i s = .next t ∧ Entered (longStackSwitchDelivery i s g d top) s t ∧
      FramePushed s t (longStackSwitchDelivery i s g d top).place 5 (alignTop Config.params top).toNat ∧
      enterHandler Config.params (longStackSwitchDelivery i s g d top) (advanced i s) = .ok t ∧
      SlotsRead t (longStackSwitchDelivery i s g d top).place ((advanced i s).draws + 1)
        (interSlots (eventOf i) (advanced i s)) :=
  exec_enter h.1 (deliveryOf_longStackSwitch h hg hc hh hstack hframe hoff) (.inr hid) rfl rfl
    (stackPtr_withHandlerStack_w64 _ _ _ rfl rfl) (frameFits_w64 (BitVec.isLt _) (by omega))

/-- SS after a 64-bit stack switch is a NULL selector, 0 for level 0 (R191). -/
theorem nullStackSegment_sel (p : Params) (s : State) (n : BitVec 2) :
    selNull (nullStackSegment p s n).sel = true ∧ (n = 0#2 → (nullStackSegment p s n).sel = 0#16) := by
  refine ⟨?_, fun hn => if_pos hn⟩
  have hnull : ∀ rpl : BitVec 2, selNull (rpl.setWidth 16) = true := by decide
  simp only [nullStackSegment]
  split
  · rfl
  · exact hnull _

end Long

end Sys2Proof.Machine

namespace Sys2Proof.InterPrivilege

open Sys2Proof.Machine

/-- Settles O29: the read of the TSS, then one check of the new stack segment after the other. -/
theorem newStackFaults : Obligations.NewStackFaults := by
  intro i s g d h hl hc hh
  have hshort := exec_of_tssTooShort h hl hc hh
  refine ⟨fun hk hlim => hshort (.inl ⟨hk, hlim⟩), fun hk hlim => hshort (.inr ⟨hk, hlim⟩),
    fun sp sel hstack => ?_⟩
  have hexec : ∀ {e}, newStackSegment s false d.dpl sel = .error e → exec i s = toOutcome (.error e) :=
    exec_of_newStackSegment_error h hl hc hh hstack
  refine ⟨fun hnull => hexec (newStackSegment_of_null hnull),
    fun hnull hbad => hexec (newStackSegment_of_bad_selector hnull hbad), fun sd hnull htable hrpl hdesc => ?_⟩
  have hchecks := newStackSegment_of_readDesc hnull htable hrpl hdesc
  refine ⟨fun hbad => hexec (hchecks.trans (if_pos hbad)), fun hdpl hdata habsent => ?_⟩
  have hpass : ¬ (sd.dpl ≠ d.dpl ∨ sd.isWritableData = false) := by simp [hdpl, hdata]
  exact hexec (by rw [hchecks, if_neg hpass, if_pos habsent, raise])

/-- Settles O30, by the answer that `StackRoom` gives. -/
theorem newStackNeedsRoom : Obligations.NewStackNeedsRoom := by
  intro i s g d sp sel sd h hl hc hh hstack hseg w room
  have hexec : ∀ {e}, newStackChecks g d sd sel sp (if flagVM s.eflags then 9 else 5) = .error e →
      exec i s = toOutcome (.error e) := exec_of_newStackChecks_error h hl hc hh hstack hseg
  exact ⟨fun hno => hexec (newStackChecks_of_no hno), fun hwrap => hexec (newStackChecks_of_ambiguous hwrap),
    fun hyes hoff => hexec (newStackChecks_of_beyond_limit hyes (isCode_of_handlerCode hc) hoff)⟩

/-- Settles O32: whichever top `ALIGN_RSP_16` chooses, its frame is checked before the offset. -/
theorem longModeStackAndOffsetFaults : Obligations.LongModeStackAndOffsetFaults := by
  intro i s g d top h hg hc hh hstack
  have hexec : ∀ {e}, longStackChecks g top = .error e → exec i s = toOutcome (.error e) :=
    exec_of_longStackChecks_error h hg hc hh hstack
  exact ⟨fun hbad haligned => hexec (longStackChecks_of_frame hbad haligned),
    fun hframe hoff => hexec (longStackChecks_of_offset hframe hoff)⟩

/-- Settles O34: the stack switch of a 16- or 32-bit gate, with its frame read back. -/
theorem interPrivilegeDelivery : Obligations.InterPrivilegeDelivery := by
  intro i s g d sp sel sd h hl hc hh hid hret hstack hseg w place hroom hoff
  obtain ⟨t, ht, hE, hframe, henter, hslots⟩ := exec_stackSwitch h hl hc hh hid hstack hseg hroom hoff
  have heflags := hE.eflags.trans (eflagsAfterGate_eq g.kind s.eflags)
  exact ⟨t, ht, ⟨hE.cs, hE.rip, hE.cpl, heflags, hE.sameSystem⟩, ⟨hE.ds, hE.es, hE.fs, hE.gs⟩, hE.ss,
    enterHandler_rspLo_upper henter, hframe, returnImage_interSlots hret hslots⟩

/-- Settles O37: the stack switch of a 64-bit gate, with its frame read back whole. -/
theorem longModeInterPrivilegeDelivery : Obligations.LongModeInterPrivilegeDelivery := by
  intro i s g d top h hg hc hh hid hret hstack hcan hoff place
  obtain ⟨t, ht, hE, hframe, _, hslots⟩ := exec_longStackSwitch h hg hc hh hid hstack hcan hoff
  have heflags := hE.eflags.trans (eflagsAfterGate_eq g.kind s.eflags)
  obtain ⟨hnull, hzero⟩ := nullStackSegment_sel Config.params (advanced i s) d.dpl
  have hss : selNull t.ss.sel = true ∧ (d.dpl = 0#2 → t.ss.sel = 0#16) ∧
      t.ss.hidden = { s.ss.hidden with usable := false } := by
    rw [hE.ss]
    refine ⟨hnull, hzero, ?_⟩
    simp [longStackSwitchDelivery, nullStackSegment, advanced]
  exact ⟨t, ht, ⟨hE.cs, hE.rip, hE.cpl, heflags, hE.sameSystem⟩, ⟨hE.ds, hE.es, hE.fs, hE.gs⟩, hss, hframe,
    returnImage_interSlots_g64 hret rfl hslots⟩

end Sys2Proof.InterPrivilege
end

-- ==== The transfer from virtual-8086 mode to level 0 (R200 to R208, R256) ====
section

namespace Sys2Proof.Machine

/-- A 16-bit gate's offset has no more than 16 bits, so a 16- or 32-bit gate's offset is loaded whole (R208). -/
theorem v86Ip_of_gateChosen {i : Instr} {s : State} {g : Gate} (h : GateChosen i s g) (hl : s.lma = false) :
    v86Ip g = g.off.setWidth 32 := by
  rcases h.2 with ⟨_, _, ⟨raw, _, rfl⟩, _⟩ | ⟨⟨hlma, _⟩, _⟩
  · exact v86Ip_gate8 raw
  · simp [hl] at hlma

/-! ## The nine values of the frame (R206, R207) -/

section FrameValues

variable {i : Instr} {s t : State} {c : PushPlace} {draw : Nat}

theorem v86Slots_advanced (i : Instr) (s : State) :
    v86Slots (eventOf i) (advanced i s)
      = [.padded s.gs.sel, .padded s.fs.sel, .padded s.ds.sel, .padded s.es.sel, .padded s.ss.sel,
          .exact (s.rspLo.setWidth 64), .exact (rflags s.eflags), .padded s.cs.sel,
          .exact (savedIp (advanced i s))] := by
  simp [v86Slots, codeSlots, eventOf, softwareEvent, advanced]

/-- What a return reads from the nine values that an instruction pushes (R252). -/
theorem returnImage_v86Slots (hret : ReturnFits i s)
    (h : SlotsRead t c draw (v86Slots (eventOf i) (advanced i s))) :
    returnImage t c .withData = .ok ⟨returnIp i s % 256 ^ c.size.bytes, s.cs.sel.toNat,
      s.eflags.toNat % 256 ^ c.size.bytes, some (s.rspLo.toNat % 256 ^ c.size.bytes, s.ss.sel.toNat),
      [s.es.sel.toNat, s.ds.sel.toNat, s.fs.sel.toNat, s.gs.sel.toNat]⟩ := by
  have hesp : (s.rspLo.setWidth 64).toNat = s.rspLo.toNat := BitVec.toNat_setWidth_of_le (by decide)
  rw [v86Slots_advanced] at h
  rw [returnImage_withData h, savedIp_advanced hret, rflags_toNat, hesp]

end FrameValues

/-! ## The transfer through a 16- or 32-bit gate -/

section Transfer

variable {i : Instr} {s : State} {g : Gate} {d sd : SegDesc} {sp : Word32} {sel : Word16}

/-- The delivery from virtual-8086 mode through a 16- or 32-bit gate to the handler segment `d` of level 0: the stack
switch, with the nine values in place of the five, and the data segments nullified. -/
def v86Delivery (i : Instr) (s : State) (g : Gate) (d sd : SegDesc) (sp : Word32) (sel : Word16) : Delivery :=
  { stackSwitchDelivery i s g d sd sp sel with
    slots := v86Slots (eventOf i) (advanced i s)
    nullData := true }

theorem deliveryOf_v86 (h : GateChosen i s g) (hl : s.lma = false) (hc : HandlerCode s g d)
    (hh : Level0FromV86 s d) (ht : TssStack s d.dpl.toNat sp sel) (hseg : StackSegment s d.dpl sel sd)
    (hroom : newStackRoom g sd sp 9 = .yes) (hoff : g.off.toNat ≤ d.effLimit.toNat) :
    deliveryOf Config.params (eventOf i) (advanced i s) = .ok (v86Delivery i s g d sd sp sel) := by
  have hsize : g.size ≠ .g64 := (gateChosen_size h hl).1
  rw [deliveryOf_eq_fromV86 h hc hh, fromV86_eq_ok]
  refine ⟨sp, sel, sd, (advanceIp_v86Stack ..).trans (v86Stack_of_tssStack ht), advanced_stackSegment hseg,
    ?room, ?limit, ?delivery⟩
  case room => rwa [v86Room_legacy hsize, requireRoom_eq_ok, v86Slots_advanced]
  case limit => rw [inLimit_code (isCode_of_handlerCode hc), decide_eq_true hoff]
  case delivery =>
    rw [writeEip_advanced_of_lma hl, v86Ip_of_gateChosen h hl, v86Base, if_neg hsize, v86Width, if_neg hsize]
    simp [v86Delivery, stackSwitchDelivery, hh.2.2, advanced, Config.params]

theorem exec_v86 (h : GateChosen i s g) (hl : s.lma = false) (hc : HandlerCode s g d) (hh : Level0FromV86 s d)
    (hid : Unmapped s) (ht : TssStack s d.dpl.toNat sp sel) (hseg : StackSegment s d.dpl sel sd)
    (hroom : newStackRoom g sd sp 9 = .yes) (hoff : g.off.toNat ≤ d.effLimit.toNat) :
    ∃ t, exec i s = .next t ∧ Entered (v86Delivery i s g d sd sp sel) s t ∧
      FramePushed s t (v86Delivery i s g d sd sp sel).place 9 (sp.toNat % (stackWidthOf sd.hidden).modulus) ∧
      enterHandler Config.params (v86Delivery i s g d sd sp sel) (advanced i s) = .ok t ∧
      SlotsRead t (v86Delivery i s g d sd sp sel).place (v86Delivery i s g d sd sp sel).draws
        (v86Slots (eventOf i) (advanced i s)) := by
  have hptr : ∀ s', stackPtr (withHandlerStack (v86Delivery i s g d sd sp sel) s') (stackWidthOf sd.hidden)
      = sp.toNat % (stackWidthOf sd.hidden).modulus :=
    stackPtr_stackSwitch (i := i) (s := s) (g := g) (d := d) (sel := sel)
  have hsp : sp.toNat % (stackWidthOf sd.hidden).modulus < (stackWidthOf sd.hidden).modulus := by
    rw [← hptr s]
    exact stackPtr_lt_modulus _ _
  exact exec_enter h.1.1 (deliveryOf_v86 h hl hc hh ht hseg hroom hoff) (.inr hid) rfl rfl (hptr s)
    (frameFits_of_stackRoom hroom rfl hsp (frame_bytes_le (by omega) _))

end Transfer

/-! ## Where a delivery from virtual-8086 mode arrives (R205, R208, R256) -/

/-- A delivery from a state with VM = 1 enters level 0. -/
theorem EntersAt.of_vm {s : State} {d : Delivery} (h : EntersAt s d) (hpe : s.pe = true)
    (hvm : flagVM s.eflags = true) :
    selRpl d.cs.sel = 0#2 ∧ d.cpl = 0#2 := by
  cases h with
  | realMode pe => simp [pe] at hpe
  | sameLevel _ vm | higherLevel _ vm => simp [vm] at hvm
  | fromV86 _ _ _ rpl _ level0 => exact ⟨rpl.trans level0, level0⟩

theorem opMode_eq_prot {s : State} (hpe : s.pe = true) (hvm : flagVM s.eflags = false) (hl : s.lma = false) :
    opMode s = .prot := by
  simp [opMode, hpe, hvm, hl]

end Sys2Proof.Machine

namespace Sys2Proof.FromVirtual8086

open Sys2Proof.Machine

/-- Settles O35: the stack switch to level 0 with nine values, its frame read back. -/
theorem fromVirtual8086Delivery : Obligations.FromVirtual8086Delivery := by
  intro i s g d sp sel sd h hl hc hh hid hret hstack hseg w place hroom hoff
  have hlevel0 : d.dpl = 0#2 := hh.2.2
  obtain ⟨t, ht, hE, hframe, henter, hslots⟩ :=
    exec_v86 h hl hc hh hid (by rwa [hlevel0]) (by rwa [hlevel0]) hroom hoff
  have hcs : t.cs = { sel := withRpl g.sel 0#2, hidden := d.hidden } := hlevel0 ▸ hE.cs
  have heflags := hE.eflags.trans (eflagsAfterGate_eq g.kind s.eflags)
  exact ⟨t, ht, ⟨hcs, hE.rip, hE.cpl.trans hlevel0, heflags, hE.sameSystem⟩, ⟨hE.ds, hE.es, hE.fs, hE.gs⟩, hE.ss,
    enterHandler_rspLo_upper henter, hframe, returnImage_v86Slots hret hslots⟩

/-- Settles O46: of the levels a delivery enters at, VM = 1 leaves level 0. -/
theorem virtual8086IsLeftForLevel0 : Obligations.Virtual8086IsLeftForLevel0 := by
  intro i s t hdel hpe hvm h
  rcases exec_next_entered h with ⟨hn, _⟩ | ⟨_, d, _, hd, hE, _⟩
  · exact absurd hdel hn
  · obtain ⟨hrpl, hcpl⟩ := hd.of_vm hpe hvm
    have hleft : flagVM t.eflags = false := exec_next_flagVM_of_gate h hdel hpe
    exact ⟨hleft, hE.cpl.trans hcpl, hE.cs ▸ hrpl,
      fun hl => opMode_eq_prot (hE.pe.trans hpe) hleft (hE.lma.trans hl)⟩

end Sys2Proof.FromVirtual8086
end

-- ==== The transfer at the same level: its last checks, and the current stack (R149, R220 to R227) ====
section

namespace Sys2Proof.Machine

/-! ## The three answers of the room check (R61) -/

section Room

variable {h : Hidden} {w : StackWidth} {sp n : Nat} {f : Fault}

theorem requireRoom_of_yes (hyes : stackRoom h w sp n = .yes) : requireRoom h w sp n f = .ok () :=
  requireRoom_eq_ok.mpr hyes

theorem requireRoom_of_no (hno : stackRoom h w sp n = .no) : requireRoom h w sp n f = .error (.fault f) := by
  simp only [requireRoom, hno, raise]

theorem requireRoom_of_ambiguous (hwrap : stackRoom h w sp n = .ambiguous) :
    requireRoom h w sp n f = .error (.refuse .stackWrap) := by
  simp only [requireRoom, hwrap, refuse]

end Room

/-! ## The transfer with LMA = 0 (R221, R224 to R227) -/

section SameLevelLegacy

variable {i : Instr} {s t : State} {g : Gate} {d : SegDesc}

/-- The room that the current stack has for the three values of a 16- or 32-bit delivery (R61). -/
abbrev currentStackRoom (s : State) (g : Gate) : Room :=
  stackRoom s.ss.hidden (stackWidthOf s.ss.hidden) (stackPtr s (stackWidthOf s.ss.hidden)) (3 * g.size.bytes)

theorem intraLegacySlots_advanced (i : Instr) (s : State) :
    intraLegacySlots (eventOf i) (advanced i s)
      = [.exact (rflags s.eflags), .padded s.cs.sel, .exact (savedIp (advanced i s))] := by
  simp [intraLegacySlots, codeSlots, eventOf, softwareEvent, advanced]

/-- What a return reads from the three values that an instruction pushes (R252). -/
theorem returnImage_intraLegacySlots {c : PushPlace} {draw : Nat} (hret : ReturnFits i s)
    (h : SlotsRead t c draw (intraLegacySlots (eventOf i) (advanced i s))) :
    returnImage t c .plain = .ok ⟨returnIp i s % 256 ^ c.size.bytes, s.cs.sel.toNat,
      s.eflags.toNat % 256 ^ c.size.bytes, none, []⟩ := by
  rw [intraLegacySlots_advanced] at h
  rw [returnImage_plain h, savedIp_advanced hret, rflags_toNat]

/-- The delivery at the same level through a 16- or 32-bit gate to the handler segment `d`, on the current stack. -/
def sameLevelDelivery (i : Instr) (s : State) (g : Gate) (d : SegDesc) : Delivery where
  ss := s.ss
  rspLo := s.rspLo
  rspHi := s.rspHi
  place :=
    { base := s.ss.hidden.base.setWidth 64, width := stackWidthOf s.ss.hidden, size := g.size, priv := cplPriv s }
  slots := intraLegacySlots (eventOf i) (advanced i s)
  cs := { sel := withRpl g.sel s.cpl, hidden := d.hidden }
  rip := writeEip s.rip (g.off.setWidth 32)
  cpl := s.cpl
  eflags := eflagsAfterGate g.kind s.eflags
  nullData := false
  draws := (advanced i s).draws

/-- At the same level with LMA = 0 two checks are left, the room on the current stack and then the handler's offset
(R221, R224). -/
theorem deliveryOf_sameLevel (h : GateChosen i s g) (hl : s.lma = false) (hc : HandlerCode s g d)
    (hh : SameLevel s d) :
    deliveryOf Config.params (eventOf i) (advanced i s) = (do
      requireRoom s.ss.hidden (stackWidthOf s.ss.hidden) (stackPtr s (stackWidthOf s.ss.hidden)) (3 * g.size.bytes)
        (.ss (some 0#16))
      stopIf (!decide (g.off.toNat ≤ d.effLimit.toNat)) (.fault (.gp (some 0#16)))
      pure (sameLevelDelivery i s g d)) := by
  have hlen : (intraLegacySlots (eventOf i) (advanced i s)).length = 3 := by rw [intraLegacySlots_advanced]; rfl
  rw [deliveryOf_eq_intraLegacy h hl hc hh]
  simp only [intraLegacy, hlen, inLimit_code (isCode_of_handlerCode hc), writeEip_advanced_of_lma hl]
  simp [sameLevelDelivery, advanced]

theorem exec_sameLevel (h : GateChosen i s g) (hl : s.lma = false) (hc : HandlerCode s g d) (hh : SameLevel s d)
    (hid : Unmapped s) (hroom : currentStackRoom s g = .yes) (hoff : g.off.toNat ≤ d.effLimit.toNat) :
    ∃ t, exec i s = .next t ∧ Entered (sameLevelDelivery i s g d) s t ∧
      FramePushed s t (sameLevelDelivery i s g d).place 3 (stackPtr s (stackWidthOf s.ss.hidden)) ∧
      enterHandler Config.params (sameLevelDelivery i s g d) (advanced i s) = .ok t ∧
      SlotsRead t (sameLevelDelivery i s g d).place (advanced i s).draws
        (intraLegacySlots (eventOf i) (advanced i s)) := by
  have hdelivery : deliveryOf Config.params (eventOf i) (advanced i s) = .ok (sameLevelDelivery i s g d) := by
    rw [deliveryOf_sameLevel h hl hc hh, requireRoom_of_yes hroom, ok_bind, decide_eq_true hoff]
    rfl
  have hptr : ∀ w, stackPtr (withHandlerStack (sameLevelDelivery i s g d) s) w = stackPtr s w := fun w => by
    cases w <;> rfl
  exact exec_enter h.1.1 hdelivery (.inr hid) rfl rfl (hptr _)
    (frameFits_of_stackRoom hroom rfl (stackPtr_lt_modulus _ _) (frame_bytes_le (by omega) _))

end SameLevelLegacy

/-! ## The transfer with LMA = 1 (R149, R222 to R227) -/

section SameLevelLong

variable {i : Instr} {s : State} {g : Gate} {d : SegDesc} {ist : Option Word64}

/-- A 64-bit frame holds the same five values with a change of level and without one (R190, R223). -/
theorem intraLongSlots_eq_interSlots (ev : Event) (s : State) : intraLongSlots ev s = interSlots ev s := rfl

/-- The delivery at the same level through a 64-bit gate, on the IST stack where `ist` names one, else on the current
one: the stack switch of a 64-bit gate, with SS, CPL and the RPL of CS as they are at the current level. -/
def longSameLevelDelivery (i : Instr) (s : State) (g : Gate) (d : SegDesc) (ist : Option Word64) : Delivery :=
  { longStackSwitchDelivery i s g d (ist.getD (rsp s)) with
    ss := s.ss
    place :=
      { base := 0#64, width := .w64, size := .g64, priv := if ist.isSome then .supervisor else cplPriv s }
    cs := { sel := withRpl g.sel s.cpl, hidden := d.hidden }
    cpl := s.cpl
    draws := (advanced i s).draws }

theorem deliveryOf_longSameLevel (h : ReachesGate i s) (hg : LongGate s (vectorOf i) g) (hc : HandlerCode s g d)
    (hh : SameLevel s d) (hist : istPointer Config.params s g = .ok ist)
    (hframe : CanonicalFrame (ist.getD (rsp s))) (hoff : canonical Config.vaBits g.off = true) :
    deliveryOf Config.params (eventOf i) (advanced i s) = .ok (longSameLevelDelivery i s g d ist) := by
  have hsize : g.size = .g64 := longGate_size hg
  have htop : ist.getD (rsp (advanced i s)) = ist.getD (rsp s) := by rw [advanced, advanceIp_rsp]
  rw [deliveryOf_eq_transfer_long h hg hist hc, transfer_eq_intraLong hg.1 hh, intraLong_eq_ok,
    intraLongSlots_eq_interSlots, htop, hsize]
  refine ⟨?frame, hoff, ?delivery⟩
  case frame =>
    rw [interSlots_advanced]
    exact canonicalFrame_alignTop hframe
  case delivery => simp [longSameLevelDelivery, longStackSwitchDelivery, advanced]

theorem exec_longSameLevel (h : ReachesGate i s) (hg : LongGate s (vectorOf i) g) (hc : HandlerCode s g d)
    (hh : SameLevel s d) (hid : Unmapped s) (hist : istPointer Config.params s g = .ok ist)
    (hframe : CanonicalFrame (ist.getD (rsp s))) (hoff : canonical Config.vaBits g.off = true) :
    ∃ t, exec i s = .next t ∧ Entered (longSameLevelDelivery i s g d ist) s t ∧
      FramePushed s t (longSameLevelDelivery i s g d ist).place 5
        (alignTop Config.params (ist.getD (rsp s))).toNat ∧
      enterHandler Config.params (longSameLevelDelivery i s g d ist) (advanced i s) = .ok t ∧
      SlotsRead t (longSameLevelDelivery i s g d ist).place (advanced i s).draws
        (interSlots (eventOf i) (advanced i s)) :=
  exec_enter h.1 (deliveryOf_longSameLevel h hg hc hh hist hframe hoff) (.inr hid) rfl rfl
    (stackPtr_withHandlerStack_w64 _ _ _ rfl rfl) (frameFits_w64 (BitVec.isLt _) (by omega))

end SameLevelLong

/-! ## The privilege of a push place -/

section PlacePriv

variable {s t : State} {b : Word64} {w : StackWidth} {z : GateSize} {p q : Priv} {n : Nat}

/-- Where a frame stands does not depend on the privilege it was pushed with. -/
theorem FramePushed.of_priv {sp : Nat} (h : FramePushed s t ⟨b, w, z, p⟩ n sp) :
    FramePushed s t ⟨b, w, z, q⟩ n sp :=
  ⟨h.pointer, h.outside⟩

/-- Under the identity translation slots read back with any privilege. -/
theorem slotsRead_of_priv {draw : Nat} {vs : List Slot} (hid : Unmapped t) (h : SlotsRead t ⟨b, w, z, p⟩ draw vs) :
    SlotsRead t ⟨b, w, z, q⟩ draw vs :=
  fun j m hj hm => (readSlot_priv (.inr hid) m j).trans (h j m hj hm)

end PlacePriv

end Sys2Proof.Machine

namespace Sys2Proof.IntraPrivilege

open Sys2Proof.Machine

/-- Settles O31, by the answer that `StackRoom` gives for the current stack. -/
theorem currentStackNeedsRoom : Obligations.CurrentStackNeedsRoom := by
  intro i s g d h hl hc hh w room
  have hexec : ∀ e, deliveryOf Config.params (eventOf i) (advanced i s) = .error e →
      exec i s = toOutcome (.error e) := fun _ => exec_of_deliveryOf_error h.1.1
  rw [deliveryOf_sameLevel h hl hc hh] at hexec
  refine ⟨fun hno => hexec (.fault (.ss (some 0#16))) ?no, fun hwrap => hexec (.refuse .stackWrap) ?wrap,
    fun hyes hoff => hexec (.fault (.gp (some 0#16))) ?offset⟩
  case no => rw [requireRoom_of_no hno, error_bind]
  case wrap => rw [requireRoom_of_ambiguous hwrap, error_bind]
  case offset =>
    rw [requireRoom_of_yes hyes, ok_bind, decide_eq_false (by omega), Bool.not_false, stopIf_true, error_bind]

/-- Settles O33: the delivery on the current stack through a 16- or 32-bit gate, with its frame read back. -/
theorem intraPrivilegeDelivery : Obligations.IntraPrivilegeDelivery := by
  intro i s g d h hl hc hh hid hret w place hroom hoff
  obtain ⟨t, ht, hE, hframe, henter, hslots⟩ := exec_sameLevel h hl hc hh hid hroom hoff
  have heflags := hE.eflags.trans (eflagsAfterGate_eq g.kind s.eflags)
  exact ⟨t, ht, ⟨hE.cs, hE.rip, hE.cpl, heflags, hE.sameSystem⟩, ⟨hE.ds, hE.es, hE.fs, hE.gs⟩, hE.ss,
    enterHandler_rspLo_upper henter, hframe, returnImage_intraLegacySlots hret hslots⟩

/-- Settles O36: the delivery at the same level through a 64-bit gate. Its stack pointer is the IST's or the current
one, pushed with the privilege of that stack, and under the identity translation a return reads the frame back whole
with any. -/
theorem longModeIntraPrivilegeDelivery : Obligations.LongModeIntraPrivilegeDelivery := by
  intro i s g d top h hg hc hh hid hret hstack hcan hoff place
  obtain ⟨ist, hist, _, hsame⟩ := istPointer_of_longStack hstack
  obtain rfl : ist.getD (rsp s) = top := hsame hh
  obtain ⟨t, ht, hE, hframe, _, hslots⟩ := exec_longSameLevel h hg hc hh hid hist hcan hoff
  have heflags := hE.eflags.trans (eflagsAfterGate_eq g.kind s.eflags)
  have hidt : Unmapped t := hE.xlat.trans hid
  exact ⟨t, ht, ⟨hE.cs, hE.rip, hE.cpl, heflags, hE.sameSystem⟩, ⟨hE.ds, hE.es, hE.fs, hE.gs⟩, hE.ss,
    hframe.of_priv, returnImage_interSlots_g64 hret rfl (slotsRead_of_priv hidt hslots)⟩

end Sys2Proof.IntraPrivilege
end

-- ==== What stops an instruction: its exceptions, their error codes, its refusals; and CPL (R10, R243 to R246, R255) ====
section

namespace Sys2Proof.Machine

/-! ## The level of a handler (R163, R255) -/

section Level

variable {s : State} {d : Delivery}

theorem EntersAt.cpl_le (h : EntersAt s d) : d.cpl.toNat ≤ s.cpl.toNat := by
  cases h with
  | realMode _ _ cpl | sameLevel _ _ _ _ cpl => rw [cpl]
  | higherLevel _ _ _ _ cpl | fromV86 _ _ _ _ cpl => exact cpl.le

theorem EntersAt.cpl_of_realMode (h : EntersAt s d) (hpe : s.pe = false) : d.cpl = s.cpl := by
  cases h with
  | realMode _ _ cpl => exact cpl
  | sameLevel pe | higherLevel pe | fromV86 pe => simp [hpe] at pe

end Level

/-! ## The exceptions of a delivery and the codes they carry (R244 to R246) -/

section Codes

variable {ev : Event} {i : Instr} {s : State} {f : Fault} {c : Word16}

/-- An exception of a delivery: `#GP` without a code in real-address mode; else `#PF` with a code of the translation, or
another exception with a code that R245 allows. -/
theorem listedStop_fault_cases (h : ListedStop ev s (.fault f)) :
    s.pe = false ∧ f = .gp none ∨
      s.pe = true ∧ ∃ c, faultCode f = some c ∧
        (f = .pf c ∧ (∃ a k pr, translateAddr s a k pr = .pageFault c) ∨
          (∀ c', f ≠ .pf c') ∧ ListedCode ev.vector s.lma c) := by
  match f, h with
  | .gp none, hpe => exact .inl ⟨hpe, rfl⟩
  | .pf c, ⟨hpe, hxlat⟩ => exact .inr ⟨hpe, c, rfl, .inl ⟨rfl, hxlat⟩⟩
  | .gp (some c), ⟨hpe, hcode⟩ | .ss (some c), ⟨hpe, hcode⟩ | .np c, ⟨hpe, hcode⟩ | .ts c, ⟨hpe, hcode⟩ =>
    exact .inr ⟨hpe, c, rfl, .inr ⟨nofun, hcode⟩⟩

/-- Every exception of an instruction: #UD from its own check, or one of its delivery. -/
theorem exec_fault_ud_or_listed (h : exec i s = .fault f) : f = .ud ∨ ListedStop (eventOf i) s (.fault f) := by
  rcases exec_fault_cases h with ⟨_, _, hud⟩ | ⟨_, hstop⟩
  · exact .inl hud
  · exact .inr hstop

/-- A code of any exception but `#PF` is one that R245 allows. -/
theorem listedCode_of_exec_fault (h : exec i s = .fault f) (hcode : faultCode f = some c) (hpf : ∀ c', f ≠ .pf c') :
    ListedCode (vectorOf i) s.lma c := by
  rcases exec_fault_ud_or_listed h with rfl | hstop
  · cases hcode
  · rcases listedStop_fault_cases hstop with ⟨_, rfl⟩ | ⟨_, c', hcode', ⟨rfl, _⟩ | ⟨_, hlisted⟩⟩
    · cases hcode
    · exact absurd rfl (hpf c')
    · obtain rfl : c' = c := Option.some.inj (hcode'.symm.trans hcode)
      exact hlisted

end Codes

/-! ## The number of values in a frame (R133, R190, R207, R223, R225) -/

/-- An event without a code pushes none (R244). -/
theorem codeSlots_of_none {ev : Event} (h : ev.code = none) : codeSlots ev = [] := by rw [codeSlots, h]; rfl

theorem MadeBy.slots_length {p : Params} {ev : Event} {s : State} {d : Delivery} (h : MadeBy p ev s d)
    (hcode : ev.code = none) : d.slots.length = 3 ∨ d.slots.length = 5 ∨ d.slots.length = 9 := by
  have hnone := codeSlots_of_none hcode
  cases h with
  | real _ h =>
    obtain ⟨_, _, _, _, rfl⟩ := realMode_eq_ok.mp h
    exact .inl rfl
  | intraLegacy _ _ _ _ _ _ _ _ _ h =>
    obtain ⟨_, _, rfl⟩ := intraLegacy_eq_ok.mp h
    exact .inl (by simp [intraLegacySlots, hnone])
  | interLegacy _ _ _ _ _ _ _ _ _ _ h =>
    obtain ⟨_, _, _, _, _, _, _, rfl⟩ := interLegacy_eq_ok.mp h
    exact .inr (.inl (by simp [interSlots, hnone]))
  | interLong _ _ _ _ _ _ _ _ _ _ _ h =>
    obtain ⟨_, _, _, _, _, rfl⟩ := interLong_eq_ok.mp h
    exact .inr (.inl (by simp [interSlots, hnone]))
  | intraLong _ _ _ _ _ _ _ _ _ _ h =>
    obtain ⟨_, _, rfl⟩ := intraLong_eq_ok.mp h
    exact .inr (.inl (by simp [intraLongSlots, hnone]))
  | fromV86 _ _ _ _ _ _ _ _ _ h =>
    obtain ⟨_, _, _, _, _, _, _, rfl⟩ := fromV86_eq_ok.mp h
    exact .inr (.inr (by simp [v86Slots, hnone]))

/-- VME redirection does not concern INT 3 (R108). -/
theorem ne_int3_of_redirectable {src : Source} (h : redirectable src = true) : src ≠ .int3 := by
  rintro rfl
  cases h

end Sys2Proof.Machine

namespace Sys2Proof.ExceptionsAndRefusals

open Sys2Proof.Machine

/-- Settles O10. -/
theorem invalidOpcodeHasTwoCauses : Obligations.InvalidOpcodeHasTwoCauses :=
  fun _ _ hlaw => exec_eq_ud_iff hlaw

/-- Settles O41, by the level that the delivery enters at. -/
theorem privilegeNeverDrops : Obligations.PrivilegeNeverDrops := by
  intro i s t h
  rcases exec_next_entered h with ⟨_, rfl⟩ | ⟨_, d, _, hd, hE, _⟩
  · simp [advanced]
  · rw [hE.cpl]
    exact ⟨hd.cpl_le, hd.cpl_of_realMode⟩

/-- Settles O47: the code by the exception that the delivery stops with, the slots by the procedure that made the
delivery. -/
theorem errorCodePresence : Obligations.ErrorCodePresence := by
  intro i s
  refine ⟨fun f h => ?code, fun d hd => (deliveryOf_madeBy hd).slots_length rfl⟩
  case code =>
    rcases exec_fault_ud_or_listed h with rfl | hstop
    · exact ⟨fun _ => rfl, fun _ hud => absurd rfl hud, fun _ => rfl, nofun⟩
    · rcases listedStop_fault_cases hstop with ⟨hpe, rfl⟩ | ⟨hpe, c, hcode, hkind⟩
      · exact ⟨fun _ => rfl, by simp [hpe], nofun, nofun⟩
      · refine ⟨by simp [hpe], fun _ _ => ⟨c, hcode⟩, ?_, ?_⟩
        · rintro rfl
          cases hcode
        · rintro c' rfl
          rcases hkind with ⟨hpf, hxlat⟩ | ⟨hpf, _⟩
          · cases hpf
            exact hxlat
          · exact absurd rfl (hpf c')

/-- Settles O48. -/
theorem errorCodesHaveExtZero : Obligations.ErrorCodesHaveExtZero := by
  intro i s c h
  have hlisted : ListedCode (vectorOf i) s.lma c := by
    rcases h with h | h | h | h <;> exact listedCode_of_exec_fault h rfl nofun
  exact hlisted

/-- Settles O49: the first check refuses a broken invariant, and the delivery refuses only as R243 lists. -/
theorem refusalsAreTheListed : Obligations.RefusalsAreTheListed := by
  intro i s r h
  rcases exec_refused_cases h with ⟨hlaw, rfl⟩ | ⟨_, hstop⟩
  · exact .inl ⟨rfl, hlaw⟩
  · rcases hstop with ⟨hr, hpe, hvm, hvme, hsrc⟩ | htask | hroom
    · exact .inr (.inl ⟨hr, hpe, hvm, hvme, ne_int3_of_redirectable hsrc⟩)
    · exact .inr (.inr (.inl htask))
    · exact .inr (.inr (.inr hroom))

end Sys2Proof.ExceptionsAndRefusals
end

-- ==== The state that a fault leaves (R241, U4) ====
section

namespace Sys2Proof.Machine

/-! ## The pushes stop with a page fault only (R53, R298) -/

/-- The stop is a page fault. -/
def IsPageFault (e : Stop) : Prop := ∃ c, e = .fault (.pf c)

theorem stopsOnly_isPageFault_physAddrs {s : State} {k : Access} {pr : Priv} {n : Nat} {a : Word64} :
    StopsOnly IsPageFault (physAddrs s k pr n a) := by
  induction n generalizing a with
  | zero => exact stopsOnly_ok
  | succ n ih =>
    simp only [physAddrs]
    split
    · next c _ => exact stopsOnly_raise ⟨c, rfl⟩
    · split
      · exact stopsOnly_ok
      · next e he => exact stopsOnly_error (ih e he)

theorem stopsOnly_isPageFault_frameAddrs {s : State} {c : PushPlace} {n sp : Nat} :
    StopsOnly IsPageFault (frameAddrs s c n sp) := by
  induction n generalizing sp with
  | zero => exact stopsOnly_ok
  | succ n ih =>
    simp only [frameAddrs]
    split
    · next e he => exact stopsOnly_error (stopsOnly_isPageFault_physAddrs e he)
    · split
      · next e he => exact stopsOnly_error (ih e he)
      · exact stopsOnly_ok

/-- A handler that cannot be entered has a byte of its frame that does not translate. -/
theorem stopsOnly_isPageFault_enterHandler {p : Params} {d : Delivery} {s : State} :
    StopsOnly IsPageFault (enterHandler p d s) := by
  intro e he
  cases hframe : frameAddrs s d.place d.slots.length (stackPtr (withHandlerStack d s) d.place.width) with
  | ok as =>
    obtain ⟨t, ht⟩ := enterHandler_isOk (p := p) hframe
    rw [ht] at he
    cases he
  | error e' =>
    obtain rfl : e' = e := Except.error.inj ((enterHandler_of_frameAddrs_error hframe).symm.trans he)
    exact stopsOnly_isPageFault_frameAddrs _ hframe

/-! ## Which state a fault leaves -/

section AfterFault

variable {i : Instr} {s : State} {f : Fault}

/-- The registers of the attached state are those before the instruction. -/
theorem faultState_registers (i : Instr) (s : State) : { faultState i s with mem := s.mem, draws := s.draws } = s := by
  rcases faultState_cases i s with h | ⟨_, _, _, _, h⟩
  · rw [h]
  · rw [h]; rfl

theorem faultState_wf (hwf : Memory.wf s.mem = true) : Memory.wf (faultState i s).mem = true := by
  rcases faultState_cases i s with h | ⟨d, _, _, _, h⟩
  · rwa [h]
  · rw [h]
    exact withOpenFrame_wf _ d s hwf

theorem faultState_of_deliveryOf_error {e : Stop}
    (h : deliveryOf Config.params (eventOf i) (advanced i s) = .error e) : faultState i s = s := by
  rcases faultState_cases i s with hs | ⟨_, _, hd, _⟩
  · exact hs
  · rw [h] at hd
    cases hd

/-- An instruction that delivers is one of its mode (R84). -/
theorem validIn_of_delivers (h : Delivers i s) : i.validIn (opMode s) = true := by
  obtain ⟨_, hlock, hinto⟩ := h
  cases i with
  | int3 | intImm8 => rfl
  | into lock =>
    obtain rfl : lock = false := hlock
    exact validIn_into (hinto rfl).2

theorem faultState_of_enterHandler_error {d : Delivery} {e : Stop} (h : Delivers i s)
    (hd : deliveryOf Config.params (eventOf i) (advanced i s) = .ok d)
    (he : enterHandler Config.params d (advanced i s) = .error e) :
    faultState i s = withOpenFrame Config.params d s := by
  have hvalid := validIn_of_delivers h
  obtain ⟨_, hlock, _⟩ := h
  simp [faultState, hlock, hvalid, deliveryFaultState, hd, he]

/-- The #UD of an instruction's own check leaves the state as it was (R87, R88). -/
theorem faultState_of_invalidOpcode (h : i.lock = true ∨ sourceOf i = .into ∧ opMode s = .mode64) :
    faultState i s = s := by
  have hcheck : (i.lock || !i.validIn (opMode s)) = true := by
    rcases h with hlock | ⟨hinto, hmode⟩
    · rw [hlock, Bool.true_or]
    · cases i with
      | into => simp [hmode, Instr.validIn]
      | int3 | intImm8 => cases hinto
  rw [faultState, if_pos hcheck]

/-- What a fault leaves: the state before the instruction where no handler was to be entered; else the exception is #PF
and the frame open. -/
theorem exec_fault_state (h : exec i s = .fault f) :
    faultState i s = s ∧ (Delivers i s → ∃ e, deliveryOf Config.params (eventOf i) (advanced i s) = .error e) ∨
      ∃ d c, deliveryOf Config.params (eventOf i) (advanced i s) = .ok d ∧ f = .pf c ∧
        faultState i s = withOpenFrame Config.params d s := by
  by_cases hdel : Delivers i s
  · rw [exec_delivers hdel] at h
    have hstop := toOutcome_eq_fault h
    cases hd : deliveryOf Config.params (eventOf i) (advanced i s) with
    | error e => exact .inl ⟨faultState_of_deliveryOf_error hd, fun _ => ⟨e, rfl⟩⟩
    | ok d =>
      rw [deliver, hd] at hstop
      obtain ⟨c, hc⟩ := stopsOnly_isPageFault_enterHandler _ hstop
      exact .inr ⟨d, c, rfl, Stop.fault.inj hc, faultState_of_enterHandler_error hdel hd hstop⟩
  · rcases exec_fault_cases h with ⟨_, hcause, _⟩ | ⟨hdel', _⟩
    · exact .inl ⟨faultState_of_invalidOpcode hcause, fun h => absurd h hdel⟩
    · exact absurd hdel' hdel

end AfterFault

theorem stepFaultState_registers (s : State) : { stepFaultState s with mem := s.mem, draws := s.draws } = s := by
  unfold stepFaultState
  split
  · exact faultState_registers _ s
  · rfl

end Sys2Proof.Machine

namespace Sys2Proof.StateAfterFault

open Sys2Proof.Machine

/-- Settles O60. -/
theorem faultLeavesTheStateBefore : Obligations.FaultLeavesTheStateBefore := by
  refine ⟨fun s _ _ => stepFaultState_registers s, fun i s f h => ?_⟩
  refine ⟨fun hpf => ?notPageFault, fun e => faultState_of_deliveryOf_error, faultState_wf, fun d hdel hd x => ?bytes⟩
  case notPageFault =>
    rcases exec_fault_state h with ⟨hs, _⟩ | ⟨_, c, _, hc, _⟩
    · exact hs
    · exact absurd hc (hpf c)
  case bytes =>
    rcases exec_fault_state h with ⟨_, hnone⟩ | ⟨d', _, hd', _, hs⟩
    · obtain ⟨e, he⟩ := hnone hdel
      rw [he] at hd
      cases hd
    · obtain rfl : d' = d := Except.ok.inj (hd'.symm.trans hd)
      rw [hs]
      exact readByte_withOpenFrame Config.params d' s x

end Sys2Proof.StateAfterFault
end

-- ==== Going on past a raised exception (R241, R249) ====
section

namespace Sys2Proof.Machine

section RaisedException

variable {p : Params} {ev : Event} {s : State} {g : Gate} {d : SegDesc} {c : Word16}

/-! ## The checks, without the gate's DPL -/

/-- For an event that is no software interrupt PROTECTED-MODE does not look at the gate's DPL (R142, R249). -/
theorem protectedGate_of_other {raw : Nat} (hsrc : ev.source.software = false)
    (hlim : ev.vector * 8 + 7 ≤ s.idtr.limit.toNat)
    (hread : memRead s 8 (tableAddr s.idtr.base (ev.vector * 8)) = .ok raw)
    (hk : (gate8 raw).kind = .interrupt ∨ (gate8 raw).kind = .trap) (hp : (gate8 raw).present = true) :
    protectedGate ev s = .ok (gate8 raw) :=
  protectedGate_eq_ok.mpr ⟨hlim, raw, hread, rfl, (kind_ne_other_task hk).1, by rw [hsrc, Bool.false_and], hp⟩

/-- With LMA = 0 the checks of the handler's segment depend on no parameter and no event. -/
theorem handlerSegment_of_legacy (hl : s.lma = false) (hc : HandlerCode s g d) : handlerSegment p ev s g = .ok d := by
  obtain ⟨hnull, htable, _, hread, hcode, hdpl, _, hpresent⟩ := hc
  exact handlerSegment_eq_ok.mpr ⟨hnull, htable, by rw [hl, Bool.false_and], hread,
    by rw [hcode, level_ult_eq_false_iff.mpr hdpl]; rfl, by rw [hl, Bool.false_and], hpresent⟩

/-- A handler at the same level is entered without a change of level (R165). -/
theorem transfer_eq_intraLegacy {ist : Res (Option Word64)} (hl : s.lma = false) (hh : SameLevel s d) :
    transfer p ev s g ist d = intraLegacy ev s g d := by
  obtain ⟨hvm, hlevel⟩ := hh
  have hsame : (!d.isConforming && d.dpl.ult s.cpl) = false := by
    rcases hlevel with hconf | hdpl
    · rw [hconf]; rfl
    · rw [hdpl, level_ult_eq_false_iff.mpr (Nat.le_refl _), Bool.and_false]
  simp [transfer, hsame, hvm, hl]

/-- Outside virtual-8086 mode, with LMA = 0, a checked gate that is no task gate leads to a handler at the same level by
INTRA-PRIVILEGE-LEVEL-INTERRUPT (R105, R144, R165). -/
theorem deliveryOf_eq_intraLegacy_of_protectedGate (hpe : s.pe = true) (hl : s.lma = false)
    (hg : protectedGate ev s = .ok g) (hk : g.kind ≠ .task) (hc : HandlerCode s g d) (hh : SameLevel s d) :
    deliveryOf p ev s = intraLegacy ev s g d := by
  simp [deliveryOf, hpe, hh.1, hl, protectedMode, hg, hk, trapOrInterruptGate, handlerSegment_of_legacy hl hc,
    transfer_eq_intraLegacy hl hh]

/-! ## The frame with the code on top (R225, R227, R249) -/

/-- The three values of a frame, then the code. -/
theorem intraLegacySlots_of_code (hcode : ev.code = some c) :
    intraLegacySlots ev s = [.exact (rflags s.eflags), .padded s.cs.sel, .exact (savedIp s), .padded c] := by
  simp [intraLegacySlots, codeSlots, hcode]

/-- Outside 64-bit mode the instruction pointer saved is EIP (R23, R114). -/
theorem savedIp_toNat_of_legacy (hl : s.lma = false) : (savedIp s).toNat = (eip s).toNat := by
  have hmode : inMode64 s = false := by
    unfold inMode64 opMode
    cases s.pe <;> cases flagVM s.eflags <;> simp [hl]
  rw [savedIp, if_neg (by simp [hmode]), BitVec.toNat_setWidth, Nat.mod_eq_of_lt (by omega)]

/-- The delivery of an event with a code at the same level through a 16- or 32-bit gate, on the current stack. -/
def codeDelivery (s : State) (g : Gate) (d : SegDesc) (c : Word16) : Delivery where
  ss := s.ss
  rspLo := s.rspLo
  rspHi := s.rspHi
  place :=
    { base := s.ss.hidden.base.setWidth 64, width := stackWidthOf s.ss.hidden, size := g.size, priv := cplPriv s }
  slots := [.exact (rflags s.eflags), .padded s.cs.sel, .exact (savedIp s), .padded c]
  cs := { sel := withRpl g.sel s.cpl, hidden := d.hidden }
  rip := writeEip s.rip (g.off.setWidth 32)
  cpl := s.cpl
  eflags := eflagsAfterGate g.kind s.eflags
  nullData := false
  draws := s.draws

/-- The room that the current stack has for the four values (R61). -/
abbrev codeFrameRoom (s : State) (g : Gate) : Room :=
  stackRoom s.ss.hidden (stackWidthOf s.ss.hidden) (stackPtr s (stackWidthOf s.ss.hidden)) (4 * g.size.bytes)

theorem intraLegacy_of_code (hcode : ev.code = some c) (hc : HandlerCode s g d)
    (hroom : codeFrameRoom s g = .yes)
    (hoff : g.off.toNat ≤ d.effLimit.toNat) : intraLegacy ev s g d = .ok (codeDelivery s g d c) := by
  rw [intraLegacy_eq_ok, intraLegacySlots_of_code hcode, inLimit_code (isCode_of_handlerCode hc)]
  exact ⟨hroom, decide_eq_true hoff, rfl⟩

/-- What the handler finds on its stack: the frame of four values, the code lowest and EFLAGS highest. -/
theorem enterHandler_codeDelivery (hl : s.lma = false) (hid : Unmapped s)
    (hroom : codeFrameRoom s g = .yes) :
    ∃ t, enterHandler p (codeDelivery s g d c) s = .ok t ∧ Entered (codeDelivery s g d c) s t ∧
      FramePushed s t (codeDelivery s g d c).place 4 (stackPtr s (stackWidthOf s.ss.hidden)) ∧
      readSlot t (codeDelivery s g d c).place 2 0 = .ok c.toNat ∧
      readSlot t (codeDelivery s g d c).place g.size.bytes 1 = .ok ((eip s).toNat % 256 ^ g.size.bytes) ∧
      readSlot t (codeDelivery s g d c).place 2 2 = .ok s.cs.sel.toNat ∧
      readSlot t (codeDelivery s g d c).place g.size.bytes 3 = .ok (s.eflags.toNat % 256 ^ g.size.bytes) := by
  have hptr : ∀ w, stackPtr (withHandlerStack (codeDelivery s g d c) s) w = stackPtr s w := fun w => by
    cases w <;> rfl
  obtain ⟨as, has⟩ := frameAddrs_identity (.inr hid) (codeDelivery s g d c).place 4
    (stackPtr (withHandlerStack (codeDelivery s g d c) s) (stackWidthOf s.ss.hidden))
  obtain ⟨t, ht⟩ := enterHandler_isOk (p := p) has
  obtain ⟨_, _, _, _, hE⟩ := enterHandler_ok ht
  have hfits : FrameFits (codeDelivery s g d c).place 4
      (stackPtr (withHandlerStack (codeDelivery s g d c) s) (stackWidthOf s.ss.hidden)) := by
    rw [hptr]
    exact frameFits_of_stackRoom hroom rfl (stackPtr_lt_modulus _ _) (frame_bytes_le (by omega) _)
  obtain ⟨hframe, hslots⟩ := enterHandler_frame ht (.inr hid) hfits
  have hcode := (hslots 0 2 (show 0 < 4 by decide) (two_le_bytes _)).trans (congrArg _ (leNat_paddedSlot p _ g.size c))
  have hip := (hslots 1 g.size.bytes (show 1 < 4 by decide) (Nat.le_refl _)).trans
    (congrArg _ (leNat_exactSlot p _ g.size.bytes (savedIp s)))
  have hcs := (hslots 2 2 (show 2 < 4 by decide) (two_le_bytes _)).trans (congrArg _ (leNat_paddedSlot p _ g.size s.cs.sel))
  have hflags := (hslots 3 g.size.bytes (show 3 < 4 by decide) (Nat.le_refl _)).trans
    (congrArg _ (leNat_exactSlot p _ g.size.bytes (rflags s.eflags)))
  rw [savedIp_toNat_of_legacy hl] at hip
  rw [rflags_toNat] at hflags
  exact ⟨t, ht, hE, hptr _ ▸ hframe, hcode, hip, hcs, hflags⟩

end RaisedException

/-- The event of a raised exception: no software interrupt, with the vector and the code of the exception (R240, R244). -/
def raisedEvent (ext : Bool) (f : Fault) : Event :=
  { vector := faultVector f, source := .other, ext := ext, code := faultCode f }

theorem takeException_eq_deliver (p : Params) (ext : Bool) (f : Fault) (s : State) :
    takeException p ext f s = deliver p (raisedEvent ext f) s := rfl

end Sys2Proof.Machine

namespace Sys2Proof.RaisedException

open Sys2Proof.Machine

/-- Settles O54: the delivery of the raised event is `codeDelivery`, whose frame has room and reads back. -/
theorem raisedExceptionPushesItsCodeLast : Obligations.RaisedExceptionPushesItsCodeLast := by
  intro p ext f c s raw d hcode hpe hl hh hid hlim hread g hk hp hc w place hroom hoff
  have hgate : protectedGate (raisedEvent ext f) s = .ok g := protectedGate_of_other rfl hlim hread hk hp
  have hdelivery : deliveryOf p (raisedEvent ext f) s = .ok (codeDelivery s g d c) := by
    rw [deliveryOf_eq_intraLegacy_of_protectedGate hpe hl hgate (kind_ne_other_task hk).2 hc hh]
    exact intraLegacy_of_code hcode hc hroom hoff
  obtain ⟨t, ht, hE, hframe, hslots⟩ := enterHandler_codeDelivery (p := p) (d := d) (c := c) hl hid hroom
  have heip : eip t = g.off.setWidth 32 := (congrArg (BitVec.setWidth 32) hE.rip).trans (eipOf_writeEip _ _)
  rw [takeException_eq_deliver]
  exact ⟨t, deliver_eq_ok.mpr ⟨_, hdelivery, ht⟩, hE.cs, heip, hframe, hslots⟩

end Sys2Proof.RaisedException
end

-- ==== The state after reset (R290, R291) ====
section

namespace Sys2Proof.Machine

/-! What R49 reads of the state after reset. -/

@[simp] theorem reset_lma : State.reset.lma = false := rfl

@[simp] theorem reset_flagVM : flagVM State.reset.eflags = false := rfl

@[simp] theorem reset_tr_kind : State.reset.tr.kind = .tss32 := rfl

/-- The state after reset meets R49: its TSS is not a 64-bit one, as LMA = 0 asks; VM = 1 and LMA = 1 do not arise. -/
theorem reset_lawful : lawful State.reset = true := by
  rw [lawful_iff, reset_tr_kind, reset_lma, reset_flagVM]
  simp

/-- CS.RPL is CPL after reset, although R28 asks it with PE = 1 only. -/
theorem reset_rpl : selRpl State.reset.cs.sel = State.reset.cpl := rfl

end Sys2Proof.Machine

namespace Sys2Proof.Reset

open Sys2Proof.Machine

/-- Settles O39: R49's invariants hold of the reset values, memory lists nothing, and CS.RPL is CPL. -/
theorem resetSatisfiesTheInvariant : Obligations.ResetSatisfiesTheInvariant :=
  ⟨reset_lawful, reset_mem_wf, fun _ _ => reset_rpl⟩

/-- Settles O50: R290's value is the one that the state after reset is defined with. -/
theorem idtrBaseIsZeroAfterReset : Obligations.IdtrBaseIsZeroAfterReset := rfl

end Sys2Proof.Reset
end
